-- ==== Sys2Proof/Word.lean ====
section
/-! DEFINITION. The word types of the block, named as `spec/00_scope.md` R8 and R9 and `spec/10_state.md` R20 name their widths. -/

namespace Sys2Proof

/-- One byte: a window slot's content, a stream byte, a literal (R60: every access is one byte). -/
abbrev Byte := BitVec 8

/-- A window index, 12 bits: the cursor, an offset, a slot operand (R61). -/
abbrev Slot := BitVec 12

/-- The 32-bit parallel values of the command interface: `RES`, `FADDR`, `in_ptr`, `epos` (R20, R7 `IN_ADDR_W`). -/
abbrev Word := BitVec 32

/-- The 24-bit host command word `{unit, op, opnd}` (R101). -/
abbrev CmdWord := BitVec 24

end Sys2Proof
end

