-- ==== Sys2Proof/Syntax.lean ====
section
/-! DEFINITION. The instruction set of `spec/00_scope.md` R3: the 20 host commands of R103 and the 4 stream tokens of R90, one
constructor per row of `spec/opcode_table.json`. -/

namespace Sys2Proof

/-- One host command or one stream token. Operand bits that a command ignores (R105) are not held, but for the two commands
that can record their own word in `FADDR` (R167, R294): their `ignored` field holds those bits. -/
inductive Instr where
  /-- `NOP` (R130). -/
  | nop
  /-- `SWB.INIT` (R131). -/
  | swbInit
  /-- `SWB.APPEND b` (R132). -/
  | swbAppend (b : Byte)
  /-- `SWB.GET i` (R133). -/
  | swbGet (slot : Slot)
  /-- `SWB.CURSOR` (R134). -/
  | swbCursor
  /-- `SWB.REPLAY i` (R135). -/
  | swbReplay (slot : Slot)
  /-- `CFC.D_CLEAR` (R160). -/
  | cfcDClear
  /-- `CFC.D_SHIFT` (R161). -/
  | cfcDShift
  /-- `CFC.D_LOAD c` (R162). -/
  | cfcDLoad (c : Byte)
  /-- `CFC.D_TAG` (R163). -/
  | cfcDTag
  /-- `CFC.E_CLEAR` (R166). -/
  | cfcEClear
  /-- `CFC.E_PUSH t` (R167); `ignored` is `opnd[15:1]`. -/
  | cfcEPush (t : BitVec 1) (ignored : BitVec 15)
  /-- `CFC.E_FLUSH` (R168). -/
  | cfcEFlush
  /-- `DEC.START` (R190). -/
  | decStart
  /-- `ENC.START` (R280). -/
  | encStart
  /-- `MF.COUNT b` (R242). -/
  | mfCount (b : Byte)
  /-- `MF.PROBE s` (R244). -/
  | mfProbe (slot : Slot)
  /-- `MF.FIND` (R248). -/
  | mfFind
  /-- `MF.SETPOS p` (R249). -/
  | mfSetpos (p : BitVec 16)
  /-- `CSR.READ n` (R294); `ignored` is `opnd[15:4]`. -/
  | csrRead (n : BitVec 4) (ignored : BitVec 12)
  /-- The stream header `HDR N` (R91). -/
  | hdr (n : BitVec 16)
  /-- A control byte `CTRL v` (R92). -/
  | ctrl (tags : Byte)
  /-- A Literal token `LIT b` (R93). -/
  | lit (b : Byte)
  /-- A BackRef token (R94): the absolute slot `off` and the length nibble `n`. -/
  | bref (off : Slot) (n : BitVec 4)
  deriving DecidableEq, Repr

/-- What the next stream bytes stand for. The bytes themselves do not tell (R97): the decoder's state does. -/
inductive TokenKind where
  | header
  | control
  | literal
  | backref
  deriving DecidableEq, Repr

/-- The encoded form of an instruction: a 24-bit command word (R101), or stream bytes in stream order (R90). -/
inductive Encoded where
  | command (w : CmdWord)
  | token (kind : TokenKind) (bytes : List Byte)
  deriving DecidableEq, Repr

end Sys2Proof
end

