-- ==== Sys2Proof/WellFormed.lean ====
section
/-! DEFINITION. Which instruction terms the spec gives a meaning other than ILLEGAL_CMD whatever the state: the value case of
`spec/30_encoding.md` R104 that the term alone decides. -/

namespace Sys2Proof

/-- The CSR numbers of R43; 11 to 15 are reserved (R104). -/
def csrListed (n : BitVec 4) : Bool := n.toNat ≤ 10

/-- A term is well formed unless it reads a reserved CSR (R104). Field widths are in the types (R101, R90). -/
def Instr.wellFormed : Instr → Bool
  | .csrRead n _ => csrListed n
  | .nop | .swbInit | .swbAppend _ | .swbGet _ | .swbCursor | .swbReplay _
  | .cfcDClear | .cfcDShift | .cfcDLoad _ | .cfcDTag | .cfcEClear | .cfcEPush _ _ | .cfcEFlush
  | .decStart | .encStart | .mfCount _ | .mfProbe _ | .mfFind | .mfSetpos _
  | .hdr _ | .ctrl _ | .lit _ | .bref _ _ => true

end Sys2Proof
end

