-- ==== Sys2Proof/Decode.lean ====
section
/-! DEFINITION. Decoding of command words (`spec/30_encoding.md` R101 to R105, R110) and of stream tokens (R90 to R97), total,
rejecting by name; then the encoder, written from the same tables. -/

namespace Sys2Proof

/-- Why a word or a byte sequence is no instruction. -/
inductive DecodeError where
  /-- The `unit` is 0x6 to 0xF (R102, R104). -/
  | reservedUnit (u : BitVec 4)
  /-- The `op` is not listed for its unit (R103, R104). -/
  | reservedOp (u op : BitVec 4)
  /-- The stream ends inside the token; the decoder meets this as END_OF_INPUT (R321). -/
  | tokenCutShort (kind : TokenKind)
  /-- Bytes are left after the token, where exactly one token was expected. -/
  | bytesLeft (kind : TokenKind)
  deriving DecidableEq, Repr

/-- `{unit, op, opnd}` as one word (R101). -/
def cmdWord (u op : BitVec 4) (opnd : BitVec 16) : CmdWord := u ++ op ++ opnd

/-- Bits 23:20 (R101). -/
def cmdUnit (w : CmdWord) : BitVec 4 := w.extractLsb' 20 4

/-- Bits 19:16 (R101). -/
def cmdOp (w : CmdWord) : BitVec 4 := w.extractLsb' 16 4

/-- Bits 15:0 (R101). -/
def cmdOpnd (w : CmdWord) : BitVec 16 := w.extractLsb' 0 16

/-- The opcode map of R103, on the fields of a word. -/
def decodeFields (u op : BitVec 4) (opnd : BitVec 16) : Except DecodeError Instr :=
  match u.toNat, op.toNat with
  | 0, 0 => .ok .nop
  | 0, 1 => .ok .swbInit
  | 0, 2 => .ok (.swbAppend (opnd.extractLsb' 0 8))
  | 0, 3 => .ok (.swbGet (opnd.extractLsb' 0 12))
  | 0, 4 => .ok .swbCursor
  | 0, 5 => .ok (.swbReplay (opnd.extractLsb' 0 12))
  | 1, 1 => .ok .cfcDClear
  | 1, 2 => .ok .cfcDShift
  | 1, 3 => .ok (.cfcDLoad (opnd.extractLsb' 0 8))
  | 1, 4 => .ok .cfcDTag
  | 1, 5 => .ok .cfcEClear
  | 1, 6 => .ok (.cfcEPush (opnd.extractLsb' 0 1) (opnd.extractLsb' 1 15))
  | 1, 7 => .ok .cfcEFlush
  | 2, 1 => .ok .decStart
  | 3, 1 => .ok .encStart
  | 4, 1 => .ok (.mfCount (opnd.extractLsb' 0 8))
  | 4, 2 => .ok (.mfProbe (opnd.extractLsb' 0 12))
  | 4, 3 => .ok .mfFind
  | 4, 4 => .ok (.mfSetpos opnd)
  | 5, 1 => .ok (.csrRead (opnd.extractLsb' 0 4) (opnd.extractLsb' 4 12))
  | k, _ => if k ≤ 5 then .error (.reservedOp u op) else .error (.reservedUnit u)

/-- Decoding of a command word: every word is one row of R103 or reserved (R110). -/
def decodeCommand (w : CmdWord) : Except DecodeError Instr :=
  decodeFields (cmdUnit w) (cmdOp w) (cmdOpnd w)

/-- `{B1[7:4], B0[7:0]}`, the absolute slot of a BackRef (R95). -/
def brefOffset (b0 b1 : Byte) : Slot := b1.extractLsb' 4 4 ++ b0

/-- `B1[3:0]`, the length nibble of a BackRef (R96). -/
def brefNibble (b1 : Byte) : BitVec 4 := b1.extractLsb' 0 4

/-- The token of the given kind at the head of a byte sequence, and the bytes after it. Every value of every field is legal
(R99), so only a sequence that is too short is rejected. -/
def decodeToken (kind : TokenKind) (bytes : List Byte) : Except DecodeError (Instr × List Byte) :=
  match kind, bytes with
  | .header, hi :: lo :: rest => .ok (.hdr (hi ++ lo), rest)
  | .control, c :: rest => .ok (.ctrl c, rest)
  | .literal, b :: rest => .ok (.lit b, rest)
  | .backref, b0 :: b1 :: rest => .ok (.bref (brefOffset b0 b1) (brefNibble b1), rest)
  | k, _ => .error (.tokenCutShort k)

/-- Decoding of an encoded instruction: a command word, or exactly one token. -/
def decode : Encoded → Except DecodeError Instr
  | .command w => decodeCommand w
  | .token kind bytes =>
    match decodeToken kind bytes with
    | .ok (i, []) => .ok i
    | .ok (_, _ :: _) => .error (.bytesLeft kind)
    | .error e => .error e

/-- `B0 = off[7:0]` (R94). -/
def brefByte0 (off : Slot) : Byte := off.extractLsb' 0 8

/-- `B1 = {off[11:8], n[3:0]}` (R94). -/
def brefByte1 (off : Slot) (n : BitVec 4) : Byte := off.extractLsb' 8 4 ++ n

/-- `{7'b0..., operand}`: an operand in the low bits of `opnd`, ignored bits written as 0 (R109). -/
def opndOf {k : Nat} (v : BitVec k) : BitVec 16 := v.setWidth 16

/-- The encoder: a command's word with its ignored bits 0 (R103, R109), but for the two commands whose term holds them; a
token's bytes in stream order (R91 to R94). -/
def encode : Instr → Encoded
  | .nop => .command (cmdWord 0x0#4 0x0#4 0#16)
  | .swbInit => .command (cmdWord 0x0#4 0x1#4 0#16)
  | .swbAppend b => .command (cmdWord 0x0#4 0x2#4 (opndOf b))
  | .swbGet slot => .command (cmdWord 0x0#4 0x3#4 (opndOf slot))
  | .swbCursor => .command (cmdWord 0x0#4 0x4#4 0#16)
  | .swbReplay slot => .command (cmdWord 0x0#4 0x5#4 (opndOf slot))
  | .cfcDClear => .command (cmdWord 0x1#4 0x1#4 0#16)
  | .cfcDShift => .command (cmdWord 0x1#4 0x2#4 0#16)
  | .cfcDLoad c => .command (cmdWord 0x1#4 0x3#4 (opndOf c))
  | .cfcDTag => .command (cmdWord 0x1#4 0x4#4 0#16)
  | .cfcEClear => .command (cmdWord 0x1#4 0x5#4 0#16)
  | .cfcEPush t ignored => .command (cmdWord 0x1#4 0x6#4 (ignored ++ t))
  | .cfcEFlush => .command (cmdWord 0x1#4 0x7#4 0#16)
  | .decStart => .command (cmdWord 0x2#4 0x1#4 0#16)
  | .encStart => .command (cmdWord 0x3#4 0x1#4 0#16)
  | .mfCount b => .command (cmdWord 0x4#4 0x1#4 (opndOf b))
  | .mfProbe slot => .command (cmdWord 0x4#4 0x2#4 (opndOf slot))
  | .mfFind => .command (cmdWord 0x4#4 0x3#4 0#16)
  | .mfSetpos p => .command (cmdWord 0x4#4 0x4#4 p)
  | .csrRead n ignored => .command (cmdWord 0x5#4 0x1#4 (ignored ++ n))
  | .hdr n => .token .header [n.extractLsb' 8 8, n.extractLsb' 0 8]
  | .ctrl tags => .token .control [tags]
  | .lit b => .token .literal [b]
  | .bref off n => .token .backref [brefByte0 off, brefByte1 off n]

/-- The instruction the decoder reads from a row's bits. 24 bits are a command word. Fewer are stream bytes, the first byte in
bits 7:0; a token's length is its tag's (R97), so one byte is a Literal and two are a BackRef (log 3: the header and the
control byte are framing, read only in the decoder states that expect them). -/
def decodeTableWord (nbits w : Nat) : Option Instr :=
  match nbits with
  | 24 => (decodeCommand (BitVec.ofNat 24 w)).toOption
  | 16 => (decode (.token .backref [BitVec.ofNat 8 w, BitVec.ofNat 8 (w / 256)])).toOption
  | 8 => (decode (.token .literal [BitVec.ofNat 8 w])).toOption
  | _ => none

end Sys2Proof
end

