-- ==== Sys2Proof/Config.lean ====
section
/-! DEFINITION. The fixed parameters of `spec/00_scope.md` R6, the parameters R7 leaves to the implementation (taken as
plain data, `Params`), and the two values the spec leaves free (opaque: nothing can evaluate them). -/

namespace Sys2Proof

namespace Config

/-- `WIN_SIZE`, the number of window slots (R6). -/
abbrev winSize : Nat := 4096

/-- `WIN_FILL`, the initial content of every slot (R6). -/
abbrev winFill : Byte := 0x00#8

/-- `INIT_CURSOR` = 0xFEE = 4078, the initial cursor (R6; the decimal 3822 of the source is wrong, C1). -/
abbrev initCursor : Slot := 0xFEE#12

/-- `GROUP`, the number of tokens one control byte tags (R6). -/
abbrev group : Nat := 8

/-- `MIN_MATCH`, the fewest matched bytes that make a candidate (R6). -/
abbrev minMatch : Nat := 3

/-- `LEN_BIAS` + `REPLAY_EXTRA`: the replay count of a BackRef is its nibble plus 3 (R6, R96). -/
abbrev replayBias : Nat := 3

/-- `N_MAX`, the largest length the header can carry (R6). -/
abbrev nMax : Nat := 65535

/-- `SENTINEL`, ORed into each loaded control byte (R6). -/
abbrev sentinel : BitVec 16 := 0xFF00#16

/-- `WARMUP_GROUPS`: the match search starts once this many groups were flushed (R7, R291). -/
abbrev warmupGroups : Nat := 1

/-- The slots of the encoder's token buffer (R32). -/
abbrev tokbufSize : Nat := 16

end Config

/-- A match candidate `(d, s, m)`: distance back from the cursor, absolute slot, matched count (R240). -/
structure Candidate where
  d : Nat
  s : Slot
  m : Nat
  deriving DecidableEq, Repr

/-- The parameter `SELECT` (R253): the default reading (R254), the two alternatives of R255, and any other policy, of which
only an identifying number is known. -/
inductive SelectPolicy where
  | rankSum
  | longest
  | nearest
  | other (policy : Nat)
  deriving DecidableEq, Repr

/-- The parameter `SCAN_ORDER` (R7, R245, I6): every distance 1 to 4096 nearest first, or the listed distances in the listed order. -/
inductive ScanOrder where
  | nearestFirst
  | listed (distances : List Nat)
  deriving DecidableEq, Repr

/-- The parameters that an implementation fixes and the spec names `parameter` (R7; `spec/93_implementation_defined.md` I3 to I6).
No step writes them. -/
structure Params where
  /-- `MAX_MATCH`, 3 to 18 (I5). -/
  maxMatch : Nat
  scan : ScanOrder
  select : SelectPolicy
  deriving DecidableEq, Repr

/-- The values R7 gives: `MAX_MATCH` = 17, distances 1 to 4096 nearest first, `SELECT_RANKSUM`. -/
def Params.standard : Params := ⟨17, .nearestFirst, .rankSum⟩

/-- The values the spec lets a parameter take: `MAX_MATCH` from 3 to 18 (I5), distances from 1 to 4096 (R240). -/
def Params.legal (p : Params) : Bool :=
  3 ≤ p.maxMatch && p.maxMatch ≤ 18 &&
    match p.scan with
    | .nearestFirst => true
    | .listed ds => ds.all fun d => 1 ≤ d && d ≤ Config.winSize

namespace Config

/-- FREE VALUE (log 1). The scheduler draw of R341: which of the possible steps is taken, drawn anew for each choice. -/
opaque schedulerDraw : Nat → Nat

/-- FREE VALUE (log 2). The index a policy other than the three named ones picks from a candidate list (R253: its only
obligation is that it returns a member, so the index is used modulo the list's length). -/
opaque freeSelect : Nat → List Candidate → Nat

end Config

end Sys2Proof
end

