-- ==== Sys2Proof/Machine/State.lean ====
section
/-! DEFINITION. The state of one instance of the block (`spec/10_state.md` R20 to R47), the host side it is connected to (R38,
R341), the reasons a step can stop, and the state after reset (R47, R360). Plain data throughout. -/

namespace Sys2Proof.Machine

/-- The window RAM as pairs (slot, byte), slots strictly rising, no pair listing the fill byte 0x00, which every unlisted slot
reads as (R62: 0x00 if no write has reached the slot since the last INIT or reset). -/
abbrev Memory := List Host.Cell

/-- The canonical form of the window: rising slots below 4096, no listed fill byte. -/
abbrev Memory.wf (m : Memory) : Prop :=
  m.Pairwise (fun a b => a.1 < b.1) ∧ ∀ c ∈ m, c.1 < Config.winSize ∧ c.2 ≠ Config.winFill

/-- The decoder's states (R29). -/
inductive DState where
  | idle | hdr0 | hdr1 | loop | ctrl | tag | lit | ref0 | ref1 | copy | done | fault
  deriving DecidableEq, Repr

/-- The encoder's states (R34). -/
inductive EState where
  | idle | hdr0 | hdr1 | loop | flush | search | lit | ref | final | done | fault
  deriving DecidableEq, Repr

/-- The four faults of R320 with what each records (R41, R42). They are recorded in the status registers and the machine goes
on (R330); they are not stops of the model. -/
inductive FaultCause where
  /-- `InRead()` at or past the end of `IN` (R321): the position of the missing byte. -/
  | endOfInput (pos : Word)
  /-- Replay count over the bytes still owed (R322): `in_ptr` after both BackRef bytes, and `c`. -/
  | corruptStream (pos : Word) (c : BitVec 5)
  /-- ENC.START with `IN.len` over 65535 (R323): `IN.len`. -/
  | inputTooLong (len : Nat)
  /-- A reserved command word (R324): the word. -/
  | illegalCmd (w : CmdWord)
  deriving DecidableEq, Repr

/-- What the host does next, in its own order (R38, R341, R360, R363). -/
inductive HostEvent where
  /-- Issue a command word. -/
  | command (w : CmdWord)
  /-- Present a new input sequence `IN`. -/
  | present (bytes : List Byte)
  /-- Do nothing further until BUSY = 0 (the end of R363's polling loop). -/
  | awaitIdle
  /-- Assert reset. -/
  | reset
  deriving DecidableEq, Repr

/-- Stops of the model for a state in which a rule would use a value the spec defines nowhere. No run reaches such a state
(`Obligations.LegalStatesNeverFault`), so both are safe (DEDUCED, log 7). -/
inductive Fault where
  /-- E_LIT or E_REF would read `IN[j]` with `j >= IN.len`, which R65 does not define. Safe. -/
  | inputIndex
  /-- E_LIT, E_REF, E_FLUSH or E_FINAL would use a slot of `tokbuf` at or above 16, which R32 does not have. Safe. -/
  | tokbufIndex
  deriving DecidableEq, Repr

/-- Runs the model gives no result. -/
inductive Refusal where
  /-- An instruction without a meaning yet, by its mnemonic; raised by `exec`'s refused arms only. Safe. -/
  | notModelled (mnemonic : String)
  /-- The host changed `IN` while BUSY = 1: such a run must not be given a result (R369, I2; log 6). Safe. -/
  | inputChangedWhileBusy
  deriving DecidableEq, Repr

/-- The state. Fields `win` to `fval` are R20's tuple (`STATUS` is held as `mode`, `done`, `faulted` and `fcode`, and BUSY is
computed, R327), under R20's names. -/
structure State where
  /-- The window RAM (R21). -/
  win : Memory
  /-- The write cursor (R22). -/
  cur : Slot
  /-- The decode flag shift register (R24). -/
  dflags : BitVec 16
  /-- The encode tag shift register (R25). -/
  etag : BitVec 8
  /-- How many tags `etag` holds, 0 to 8 (R25). -/
  ecnt : BitVec 4
  /-- `R`, the decoder's remaining output byte count (R26). -/
  rem : BitVec 16
  /-- Byte 0 of the BackRef being decoded (R27). -/
  refLo : Byte
  /-- The next slot to replay from (R27). -/
  refOff : Slot
  /-- The replay bytes still to do, 0 to 18 (R27). -/
  refCnt : BitVec 5
  /-- The decoder's read position in `IN` (R28). -/
  inPtr : Word
  /-- The decoder's state (R29). -/
  dstate : DState
  /-- The input length captured by ENC.START (R31). -/
  hdrN : BitVec 16
  /-- The index of the next input byte to encode; the match finder's position (R31). -/
  epos : Word
  /-- The encoder's remaining input length (R31). -/
  erem : BitVec 16
  /-- The token buffer, 16 bytes (R32). -/
  tokbuf : Vector Byte 16
  /-- How many bytes `tokbuf` holds, 0 to 16 (R32). -/
  toklen : BitVec 5
  /-- Control groups flushed since ENC.START (R33). -/
  groups : BitVec 16
  /-- The selected candidate's slot (R35). -/
  candS : Slot
  /-- The selected candidate's matched count (R35). -/
  candM : BitVec 5
  /-- The encoder's state (R34). -/
  estate : EState
  /-- 0 after DEC.START, 1 after ENC.START (R37). -/
  mode : BitVec 1
  /-- `RES`, the command result register (R36). -/
  res : Word
  /-- STATUS.DONE (R40). -/
  done : Bool
  /-- STATUS.FAULT (R40). -/
  faulted : Bool
  /-- STATUS.FCODE (R40, R320). -/
  fcode : BitVec 4
  /-- `FADDR` (R41). -/
  faddr : Word
  /-- `FVAL` (R42). -/
  fval : BitVec 16
  /-- The command word the host presents now, or the held one (R341). -/
  pending : Option CmdWord
  /-- `IN`, host-owned, its first byte first (R38). -/
  inp : List Byte
  /-- `OUT`, host-owned, append-only, in the order emitted (R38, R66). -/
  out : List Byte
  /-- MODEL'S OWN (log 4): what the host does next. -/
  host : List HostEvent
  /-- MODEL'S OWN (log 1): how many scheduler draws were made. -/
  draws : Nat
  /-- MODEL'S OWN (log 2): the implementation's parameters (R7); no step writes them. -/
  params : Params
  deriving DecidableEq, Repr

/-- The state right after reset (R47, R360), with nothing presented by the host. The bytes of `tokbuf` are unspecified (R47,
I1); the model names 0x00 (log 5). -/
def State.reset : State where
  win := []
  cur := Config.initCursor
  dflags := 0
  etag := 0
  ecnt := 0
  rem := 0
  refLo := 0
  refOff := 0
  refCnt := 0
  inPtr := 0
  dstate := .idle
  hdrN := 0
  epos := 0
  erem := 0
  tokbuf := Vector.replicate 16 0
  toklen := 0
  groups := 0
  candS := 0
  candM := 0
  estate := .idle
  mode := 0
  res := 0
  done := false
  faulted := false
  fcode := 0
  faddr := 0
  fval := 0
  pending := none
  inp := []
  out := []
  host := []
  draws := 0
  params := .standard

end Sys2Proof.Machine
end

