-- ==== Sys2Proof/Machine/Ops.lean ====
section
/-! DEFINITION. The named operations over the window, the streams and the registers (`spec/20_memory.md`), fault entry and the
clearing of the fault record (`spec/60_exceptions.md` R330, R332), and the reset event (`spec/70_reset_and_hazards.md` R360). -/

namespace Sys2Proof.Machine

/-- The answer of a meaning or a step. -/
abbrev Answer := Host.Outcome State Fault Refusal

/-- The byte at an address; the fill byte where none is listed (R62). -/
def Memory.read (m : Memory) (a : Nat) : Byte :=
  match m with
  | [] => Config.winFill
  | (k, v) :: rest => if k = a then v else Memory.read rest a

/-- The memory with the byte `v` at address `a`, in canonical form again. -/
def Memory.write (m : Memory) (a : Nat) (v : Byte) : Memory :=
  match m with
  | [] => if v = Config.winFill then [] else [(a, v)]
  | (k, b) :: rest =>
    if a < k then (if v = Config.winFill then (k, b) :: rest else (a, v) :: (k, b) :: rest)
    else if a = k then (if v = Config.winFill then rest else (k, v) :: rest)
    else (k, b) :: Memory.write rest a v

/-- `win[i]` (R62). -/
def State.slot (s : State) (i : Slot) : Byte := s.win.read i.toNat

/-- `win[cur] <- v; cur <- (cur + 1) & 0xFFF` (R63): the only write to a chosen slot. -/
def State.append (v : Byte) (s : State) : State :=
  { s with win := s.win.write s.cur.toNat v, cur := s.cur + 1 }

/-- The appends of a sequence of bytes, first byte first (R287). -/
def State.appendAll (bytes : List Byte) (s : State) : State :=
  bytes.foldl (fun t b => t.append b) s

/-- The initial fill: every slot 0x00, `cur` at 0xFEE (R131). -/
def State.initWindow (s : State) : State := { s with win := [], cur := Config.initCursor }

/-- `Emit(b)` (R66). -/
def State.emit (b : Byte) (s : State) : State := { s with out := s.out ++ [b] }

/-- The emission of a sequence of bytes, first byte first. -/
def State.emitAll (bytes : List Byte) (s : State) : State := { s with out := s.out ++ bytes }

/-- `RES <- v` (R36). -/
def State.setRes (v : Word) (s : State) : State := { s with res := v }

/-- `in_ptr <- in_ptr + 1` (R64). -/
def State.advanceIn (s : State) : State := { s with inPtr := s.inPtr + 1 }

/-- `IN[j]`, where `j < IN.len` (R65). -/
def State.input (s : State) (j : Nat) : Option Byte := s.inp[j]?

/-- `FCODE` of a fault (R320). -/
def FaultCause.code : FaultCause → BitVec 4
  | .endOfInput _ => 1
  | .corruptStream _ _ => 2
  | .inputTooLong _ => 3
  | .illegalCmd _ => 4

/-- What `FADDR` records (R41). -/
def FaultCause.info : FaultCause → Word
  | .endOfInput pos => pos
  | .corruptStream pos _ => pos
  | .inputTooLong len => BitVec.ofNat 32 len
  | .illegalCmd w => w.setWidth 32

/-- What `FVAL` records (R42). -/
def FaultCause.value : FaultCause → BitVec 16
  | .corruptStream _ c => c.setWidth 16
  | .endOfInput _ | .inputTooLong _ | .illegalCmd _ => 0

/-- The decoder's state after a fault (R330). -/
def FaultCause.dstateAfter (f : FaultCause) (d : DState) : DState :=
  match f with
  | .endOfInput _ | .corruptStream _ _ => .fault
  | .inputTooLong _ | .illegalCmd _ => d

/-- The encoder's state after a fault (R330). -/
def FaultCause.estateAfter (f : FaultCause) (e : EState) : EState :=
  match f with
  | .inputTooLong _ => .fault
  | .endOfInput _ | .corruptStream _ _ | .illegalCmd _ => e

/-- Fault entry, `raise Fault(code, info)` (R330): the record is written, the machine that faulted goes to its fault state, and
nothing else changes. -/
def State.raiseFault (f : FaultCause) (s : State) : State :=
  { s with
    faulted := true
    done := false
    fcode := f.code
    faddr := f.info
    fval := f.value
    dstate := f.dstateAfter s.dstate
    estate := f.estateAfter s.estate }

/-- The clearing of DONE and of the fault record by a START (R332, R190, R280). There is no other return from a fault. -/
def State.clearStatus (s : State) : State :=
  { s with done := false, faulted := false, fcode := 0, faddr := 0, fval := 0 }

/-- `InRead()` (R64): at the end of `IN` the fault END_OF_INPUT, `in_ptr` unchanged, and the step ends; else the byte, with
`in_ptr` advanced, goes to the rest of the rule. -/
def State.inRead (s : State) (rest : Byte → State → State) : State :=
  match s.input s.inPtr.toNat with
  | none => s.raiseFault (.endOfInput s.inPtr)
  | some b => rest b s.advanceIn

/-- The reset event (R360): every register at its reset value, the window filled, a held command discarded; `IN` and `OUT` are
the host's and stay. -/
def State.resetEvent (s : State) : State :=
  { State.reset with inp := s.inp, out := s.out, host := s.host, draws := s.draws, params := s.params }

end Sys2Proof.Machine
end

