-- ==== Sys2Proof/Machine/Flags.lean ====
section
/-! DEFINITION. The flag registers: BUSY and the STATUS word (`spec/10_state.md` R40, `spec/60_exceptions.md` R327), and the two
halves of the control frame codec as operations (`spec/41_control_frame.md`). -/

namespace Sys2Proof.Machine

/-- The decoder's busy states, D_HDR0 to D_COPY (R29). -/
def DState.busy : DState → Bool
  | .hdr0 | .hdr1 | .loop | .ctrl | .tag | .lit | .ref0 | .ref1 | .copy => true
  | .idle | .done | .fault => false

/-- The encoder's busy states, E_HDR0 to E_FINAL (R34). -/
def EState.busy : EState → Bool
  | .hdr0 | .hdr1 | .loop | .flush | .search | .lit | .ref | .final => true
  | .idle | .done | .fault => false

/-- STATUS.BUSY, computed from the state and never stored (R327). -/
def State.busy (s : State) : Bool := s.dstate.busy || s.estate.busy

/-- The 16-bit STATUS word (R40): bit 0 BUSY, 1 DONE, 2 FAULT, 3 MODE, 7:4 FCODE, 15:8 zero. -/
def State.status (s : State) : BitVec 16 :=
  0#8 ++ s.fcode ++ s.mode ++ BitVec.ofBool s.faulted ++ BitVec.ofBool s.done ++ BitVec.ofBool s.busy

/-- `dflags >> 1`, bit 15 becoming 0 (R161). -/
def State.shiftFlags (s : State) : State := { s with dflags := s.dflags >>> 1 }

/-- `need`: bit 8 of the shifted register is 0 (R161). -/
def State.needControl (s : State) : Bool := !s.dflags.getLsbD 8

/-- `dflags <- 0xFF00 | zext_16(c)` (R162). -/
def State.loadFlags (c : Byte) (s : State) : State := { s with dflags := Config.sentinel ||| c.setWidth 16 }

/-- `dflags <- 0x0000` (R160). -/
def State.clearFlags (s : State) : State := { s with dflags := 0 }

/-- `dflags[0]`: 1 for a Literal, 0 for a BackRef (R163, R92). -/
def State.tagBit (s : State) : Bool := s.dflags.getLsbD 0

/-- `etag <- 0x00; ecnt <- 0` (R166). -/
def State.clearTags (s : State) : State := { s with etag := 0, ecnt := 0 }

/-- `etag <- {t, etag[7:1]}; ecnt <- ecnt + 1` (R167). -/
def State.pushTag (t : BitVec 1) (s : State) : State :=
  { s with etag := t ++ s.etag.extractLsb' 1 7, ecnt := s.ecnt + 1 }

/-- The control byte of the tags held, `(etag >> (8 - ecnt))[7:0]` (R168; log 10 for `ecnt` over 8). -/
def State.controlByte (s : State) : Byte := s.etag >>> (8 - s.ecnt.toNat)

end Sys2Proof.Machine
end

