-- ==== Sys2Proof/Machine/Operands.lean ====
section
/-! DEFINITION. The operand and result forms of the commands: zero extension (`spec/30_encoding.md` R106), the packed results
of CFC.D_SHIFT and MF.FIND, the CSR map (`spec/10_state.md` R43), and the replay count of a BackRef (R96). -/

namespace Sys2Proof.Machine

/-- `zext_32` (R106). -/
def zext {k : Nat} (v : BitVec k) : Word := v.setWidth 32

/-- `{15'b0, need, dflags}` (R103, R161). -/
def shiftResult (need : Bool) (flags : BitVec 16) : Word := zext (BitVec.ofBool need ++ flags)

/-- `{1'b1, 10'b0, m[4:0], 4'b0, s[11:0]}` (R248). -/
def findResult (m : BitVec 5) (slot : Slot) : Word := 1#1 ++ 0#10 ++ m ++ 0#4 ++ slot

/-- The value of CSR `n` (R43); none for the reserved numbers 11 to 15. -/
def State.csr (s : State) (n : BitVec 4) : Option Word :=
  match n.toNat with
  | 0 => some (zext s.status)
  | 1 => some s.faddr
  | 2 => some (zext s.fval)
  | 3 => some (zext s.cur)
  | 4 => some (if s.mode = 0 then zext s.rem else zext s.erem)
  | 5 => some s.inPtr
  | 6 => some (zext s.dflags)
  | 7 => some (zext (s.ecnt ++ s.etag))
  | 8 => some s.epos
  | 9 => some (zext s.groups)
  | 10 => some (zext s.toklen)
  | _ => none

/-- The replay count `c = n + 3`, 3 to 18 (R96). -/
def replayCount (n : BitVec 4) : BitVec 5 := n.setWidth 5 + 3

/-- The nibble of a candidate of `m` matched bytes, `m - 3` (R96, R287). -/
def matchNibble (m : BitVec 5) : BitVec 4 := (m - 3).setWidth 4

end Sys2Proof.Machine
end

