-- ==== Sys2Proof/Machine/ControlFrame.lean ====
section
/-! DEFINITION. The meanings of the control frame codec commands (`spec/41_control_frame.md` R160 to R168). -/

namespace Sys2Proof.Machine

/-- `CFC.D_CLEAR` (R160). -/
def execCfcDClear (s : State) : Answer := .next s.clearFlags

/-- `CFC.D_SHIFT` (R161): shift, then test bit 8 of the shifted value. -/
def execCfcDShift (s : State) : Answer :=
  .next (s.shiftFlags.setRes (shiftResult s.shiftFlags.needControl s.shiftFlags.dflags))

/-- `CFC.D_LOAD c` (R162). -/
def execCfcDLoad (c : Byte) (s : State) : Answer := .next (s.loadFlags c)

/-- `CFC.D_TAG` (R163). -/
def execCfcDTag (s : State) : Answer := .next (s.setRes (zext (BitVec.ofBool s.tagBit)))

/-- `CFC.E_CLEAR` (R166). -/
def execCfcEClear (s : State) : Answer := .next s.clearTags

/-- The word of a `CFC.E_PUSH` with its ignored operand bits, which ILLEGAL_CMD records (R167, R41). -/
def ePushWord (t : BitVec 1) (ignored : BitVec 15) : CmdWord := cmdWord 0x1#4 0x6#4 (ignored ++ t)

/-- `CFC.E_PUSH t` (R167): ILLEGAL_CMD when `ecnt` = 8. -/
def execCfcEPush (t : BitVec 1) (ignored : BitVec 15) (s : State) : Answer :=
  if s.ecnt = 8 then .next (s.raiseFault (.illegalCmd (ePushWord t ignored)))
  else .next (s.pushTag t)

/-- `CFC.E_FLUSH` (R168). -/
def execCfcEFlush (s : State) : Answer := .next (s.clearTags.setRes (zext s.controlByte))

end Sys2Proof.Machine
end

