-- ==== Sys2Proof/Machine/Window.lean ====
section
/-! DEFINITION. The meanings of NOP and of the window commands (`spec/40_window.md` R130 to R135). -/

namespace Sys2Proof.Machine

/-- `NOP` (R130): no effect. -/
def execNop (s : State) : Answer := .next s

/-- `SWB.INIT` (R131). -/
def execSwbInit (s : State) : Answer := .next s.initWindow

/-- `SWB.APPEND b` (R132). -/
def execSwbAppend (b : Byte) (s : State) : Answer := .next (s.append b)

/-- `SWB.GET i` (R133). -/
def execSwbGet (i : Slot) (s : State) : Answer := .next (s.setRes (zext (s.slot i)))

/-- `SWB.CURSOR` (R134). -/
def execSwbCursor (s : State) : Answer := .next (s.setRes (zext s.cur))

/-- One replay step as a state change: read slot `i`, then append what was read (R135, R366). -/
def State.replay (i : Slot) (s : State) : State := s.append (s.slot i)

/-- `SWB.REPLAY i` (R135): the byte copied is the result. -/
def execSwbReplay (i : Slot) (s : State) : Answer := .next ((s.replay i).setRes (zext (s.slot i)))

end Sys2Proof.Machine
end

