-- ==== Sys2Proof/Machine/Decoder.lean ====
section
/-! DEFINITION. The decoder (`spec/42_decoder.md`): DEC.START, the effect of each stream byte, the meanings of the four stream
tokens, and one rule per state. -/

namespace Sys2Proof.Machine

/-- `DEC.START` (R190, R362). -/
def execDecStart (s : State) : Answer :=
  let t := s.clearStatus.initWindow.clearFlags
  .next { t with mode := 0, rem := 0, refLo := 0, refOff := 0, refCnt := 0, inPtr := 0, estate := .idle, dstate := .hdr0 }

/-- D_HDR0 after its read (R191): `R <- {b, R[7:0]}`. -/
def State.headerHigh (b : Byte) (s : State) : State := { s with rem := b ++ s.rem.extractLsb' 0 8, dstate := .hdr1 }

/-- D_HDR1 after its read (R192): `R <- {R[15:8], b}`. -/
def State.headerLow (b : Byte) (s : State) : State := { s with rem := s.rem.extractLsb' 8 8 ++ b, dstate := .loop }

/-- D_LOOP (R193): done when `R` = 0, else shift and ask for a control byte when none is active. -/
def State.loopHead (s : State) : State :=
  if s.rem = 0 then { s with dstate := .done, done := true }
  else
    let t := s.shiftFlags
    if t.needControl then { t with dstate := .ctrl } else { t with dstate := .tag }

/-- D_CTRL after its read (R194). -/
def State.controlLoad (c : Byte) (s : State) : State := { s.loadFlags c with dstate := .tag }

/-- D_TAG (R195). -/
def State.tagDispatch (s : State) : State := if s.tagBit then { s with dstate := .lit } else { s with dstate := .ref0 }

/-- D_LIT after its read (R196). -/
def State.literalByte (b : Byte) (s : State) : State :=
  let t := (s.append b).emit b
  { t with rem := t.rem - 1, dstate := .loop }

/-- D_REF0 after its read (R197). -/
def State.refByte0 (b : Byte) (s : State) : State := { s with refLo := b, dstate := .ref1 }

/-- D_REF1 after its read (R198): the offset is latched, then the replay count is checked against the bytes still owed. -/
def State.refByte1 (hi : Byte) (s : State) : State :=
  let t := { s with refOff := brefOffset s.refLo hi }
  let c := replayCount (brefNibble hi)
  if t.rem.toNat < c.toNat then t.raiseFault (.corruptStream t.inPtr c)
  else { t with refCnt := c, dstate := .copy }

/-- D_COPY (R199): one byte, read before write (R365, R366). -/
def State.copyByte (s : State) : State :=
  let t := (s.replay s.refOff).emit (s.slot s.refOff)
  { t with
    refOff := t.refOff + 1
    refCnt := t.refCnt - 1
    rem := t.rem - 1
    dstate := if t.refCnt - 1 = 0 then .loop else .copy }

/-- `k` replay bytes, one after the other. -/
def State.copyBytes : Nat → State → State
  | 0, s => s
  | k + 1, s => State.copyBytes k s.copyByte

/-- The header token `HDR N` (R91): both header bytes consumed, `R = N` (D_HDR0, D_HDR1). -/
def execHdr (n : BitVec 16) (s : State) : Answer :=
  .next (((s.advanceIn.headerHigh (n.extractLsb' 8 8)).advanceIn).headerLow (n.extractLsb' 0 8))

/-- A control byte (R92): consumed and loaded with the sentinel (D_CTRL). -/
def execCtrl (tags : Byte) (s : State) : Answer := .next (s.advanceIn.controlLoad tags)

/-- A Literal token (R93): consumed, appended, emitted, `R` decreased (D_LIT). -/
def execLit (b : Byte) (s : State) : Answer := .next (s.advanceIn.literalByte b)

/-- Both bytes of a BackRef consumed and checked (D_REF0, D_REF1). -/
def State.refBytes (b0 b1 : Byte) (s : State) : State := ((s.advanceIn.refByte0 b0).advanceIn).refByte1 b1

/-- A BackRef token (R94 to R96), whole: its two bytes (D_REF0, D_REF1), then, unless CORRUPT_STREAM was raised, every replay
byte (D_COPY). The machine itself takes these block steps one by one (DEDUCED, log 11). -/
def execBref (off : Slot) (n : BitVec 4) (s : State) : Answer :=
  let t := s.refBytes (brefByte0 off) (brefByte1 off n)
  .next (if t.dstate = .copy then State.copyBytes t.refCnt.toNat t else t)

/-- One block step of the decoder (R191 to R199). A state without a step leaves all as it is (R200, R201). -/
def State.decoderStep (s : State) : State :=
  match s.dstate with
  | .hdr0 => s.inRead State.headerHigh
  | .hdr1 => s.inRead State.headerLow
  | .loop => s.loopHead
  | .ctrl => s.inRead State.controlLoad
  | .tag => s.tagDispatch
  | .lit => s.inRead State.literalByte
  | .ref0 => s.inRead State.refByte0
  | .ref1 => s.inRead State.refByte1
  | .copy => s.copyByte
  | .idle | .done | .fault => s

end Sys2Proof.Machine
end

