-- ==== Sys2Proof/Machine/MatchFinder.lean ====
section
/-! DEFINITION. The match finder (`spec/43_match_finder.md`): count, probe, candidates, selection, find, and the four MF commands. -/

namespace Sys2Proof.Machine

/-- How many of the `len` slots from `start` on hold `b`. -/
def countFrom (m : Memory) (b : Byte) (start : Nat) : (len : Nat) → Nat
  | 0 => 0
  | len + 1 => (if m.read (start + len) = b then 1 else 0) + countFrom m b start len

/-- `count(b)` over all 4096 slots (R241), row by row of 64 slots. -/
def countRows (m : Memory) (b : Byte) : (rows : Nat) → Nat
  | 0 => 0
  | rows + 1 => countFrom m b (64 * rows) 64 + countRows m b rows

/-- `count(b)`: the number of slots of the window that hold `b` (R241). -/
def State.count (s : State) (b : Byte) : Nat := countRows s.win b 64

/-- `IN[j]` inside the match finder, which reads it only for `j < IN.len` (R243, R252). -/
def State.inputAt (s : State) (j : Nat) : Byte := s.inp.getD j 0

/-- `simwin(j, k)` (R243): slot `j` of the window as it would be after appending `IN[p .. p+k-1]`. -/
def State.simwin (s : State) (p : Nat) (j : Slot) (k : Nat) : Byte :=
  if (j - s.cur).toNat < k then s.inputAt (p + (j - s.cur).toNat) else s.slot j

/-- The loop of the probe (R243) with `m` bytes matched and `fuel` = `MAX_MATCH - m`. -/
def State.probeFrom (s : State) (start : Slot) (p m : Nat) : (fuel : Nat) → Nat
  | 0 => m
  | fuel + 1 =>
    if p + m < s.inp.length then
      if s.simwin p (start + BitVec.ofNat 12 m) m = s.inputAt (p + m) then s.probeFrom start p (m + 1) fuel else m
    else m

/-- `probe(s, p)` (R243). -/
def State.probe (s : State) (start : Slot) (p : Nat) : Nat := s.probeFrom start p 0 s.params.maxMatch

/-- The distances the scan visits, in order (R245). -/
def scanDistances : ScanOrder → List Nat
  | .nearestFirst => List.range' 1 Config.winSize
  | .listed ds => ds

/-- The slot at distance `d`, `(cur - d) & 0xFFF` (R240). -/
def State.slotAtDistance (s : State) (d : Nat) : Slot := s.cur - BitVec.ofNat 12 d

/-- The candidate at distance `d`, if there is one (R246). -/
def State.candidateAt (s : State) (p d : Nat) : Option Candidate :=
  let start := s.slotAtDistance d
  if s.slot start = s.inputAt p then
    let m := s.probe start p
    if Config.minMatch ≤ m then some ⟨d, start, m⟩ else none
  else none

/-- `cands(p)` in scan order (R246). -/
def State.cands (s : State) (p : Nat) : List Candidate := (scanDistances s.params.scan).filterMap (s.candidateAt p)

/-- The position of candidate `c` (at index `j`) in the stable sort by `m` ascending (R254): the candidates with a smaller `m`,
and those with the same `m` that come earlier, stand before it. -/
def lengthRank (C : List Candidate) (j : Nat) (c : Candidate) : Nat :=
  C.countP (fun x => decide (x.m < c.m)) + (C.take j).countP (fun x => decide (x.m = c.m))

/-- Each candidate with its `rank(j) = li(j) + si(j)` (R254). -/
def rankSums (C : List Candidate) : List (Candidate × Nat) := C.mapIdx fun j c => (c, lengthRank C j c + j)

/-- The first element of the list `best :: rest` that no other element is better than. -/
def firstBest {α : Type} (better : α → α → Bool) (best : α) : List α → α
  | [] => best
  | x :: rest => if better x best then firstBest better x rest else firstBest better best rest

/-- `SELECT_RANKSUM` (R254): the least rank sum, ties to the least index. -/
def selectRankSum (C : List Candidate) : Option Candidate :=
  match rankSums C with
  | [] => none
  | x :: rest => some (firstBest (fun a b => decide (a.2 < b.2)) x rest).1

/-- `SELECT_LONGEST` (R255): the greatest `m`, ties to the least `d`. -/
def selectLongest : List Candidate → Option Candidate
  | [] => none
  | x :: rest => some (firstBest (fun a b => decide (b.m < a.m) || (decide (a.m = b.m) && decide (a.d < b.d))) x rest)

/-- `SELECT_NEAREST` (R255): the least `d`. -/
def selectNearest : List Candidate → Option Candidate
  | [] => none
  | x :: rest => some (firstBest (fun a b => decide (a.d < b.d)) x rest)

/-- Any other policy: some member of the list, always the same one for the same list (R253). -/
def selectOther (policy : Nat) (C : List Candidate) : Option Candidate := C[Config.freeSelect policy C % C.length]?

/-- `SELECT(C)` (R253); none exactly for the empty list. -/
def select : SelectPolicy → List Candidate → Option Candidate
  | .rankSum, C => selectRankSum C
  | .longest, C => selectLongest C
  | .nearest, C => selectNearest C
  | .other k, C => selectOther k C

/-- `find(p)` (R247). -/
def State.find (s : State) (p : Nat) : Option Candidate :=
  if p < s.inp.length then
    if s.count (s.inputAt p) = 0 then none else select s.params.select (s.cands p)
  else none

/-- `MF.COUNT b` (R242). -/
def execMfCount (b : Byte) (s : State) : Answer := .next (s.setRes (BitVec.ofNat 32 (s.count b)))

/-- `MF.PROBE s` (R244). -/
def execMfProbe (start : Slot) (s : State) : Answer := .next (s.setRes (BitVec.ofNat 32 (s.probe start s.epos.toNat)))

/-- The result of MF.FIND (R248): 0 when no candidate is found. -/
def findRes : Option Candidate → Word
  | none => 0
  | some c => findResult (BitVec.ofNat 5 c.m) c.s

/-- `MF.FIND` (R248); the warm-up gap is the encoder's, not applied here. -/
def execMfFind (s : State) : Answer := .next (s.setRes (findRes (s.find s.epos.toNat)))

/-- `MF.SETPOS p` (R249): `epos` alone is written; that R31's `erem = hdrN - epos` may then not hold is DEDUCED (log 9). -/
def execMfSetpos (p : BitVec 16) (s : State) : Answer := .next { s with epos := zext p }

end Sys2Proof.Machine
end

