-- ==== Sys2Proof/Machine/Encoder.lean ====
section
/-! DEFINITION. The encoder main loop (`spec/44_encoder.md`): ENC.START and one rule per state. -/

namespace Sys2Proof.Machine

/-- `ENC.START` (R280, R362): the status and the decoder's state are set first, then the length is checked, so INPUT_TOO_LONG
leaves the window and every encoder register as they were (R330, R331). That `etag` and `ecnt` are left too, where the table of
R362 has no exception, is DEDUCED (log 8). -/
def execEncStart (s : State) : Answer :=
  let t := { s.clearStatus with mode := 1, dstate := .idle }
  if Config.nMax < t.inp.length then .next (t.raiseFault (.inputTooLong t.inp.length))
  else
    let u := t.initWindow.clearTags
    .next { u with
      hdrN := BitVec.ofNat 16 u.inp.length
      epos := 0
      erem := BitVec.ofNat 16 u.inp.length
      toklen := 0
      groups := 0
      candS := 0
      candM := 0
      estate := .hdr0 }

/-- One byte more in the token buffer (R32). -/
def State.bufferByte (b : Byte) (s : State) : State :=
  { s with tokbuf := s.tokbuf.setIfInBounds s.toklen.toNat b, toklen := s.toklen + 1 }

/-- The token buffer has room for `k` bytes more (R32: slots 0 to 15). -/
def State.bufferRoom (k : Nat) (s : State) : Bool := s.toklen.toNat + k ≤ Config.tokbufSize

/-- E_HDR0 (R281). -/
def encHdr0 (s : State) : Answer := .next { s.emit (s.hdrN.extractLsb' 8 8) with estate := .hdr1 }

/-- E_HDR1 (R282). -/
def encHdr1 (s : State) : Answer := .next { s.emit (s.hdrN.extractLsb' 0 8) with estate := .loop }

/-- E_LOOP (R283): termination is checked first. -/
def encLoop (s : State) : Answer :=
  .next { s with estate := if s.erem = 0 then .final else if s.ecnt = 8 then .flush else .search }

/-- The emission of the control byte and of the token buffer, and the clearing of both (R284, R288). -/
def State.flushGroup (s : State) : State :=
  let t := (s.clearTags.emit s.controlByte).emitAll (s.tokbuf.toList.take s.toklen.toNat)
  { t with toklen := 0, groups := t.groups + 1 }

/-- E_FLUSH (R284). -/
def encFlush (s : State) : Answer :=
  if s.bufferRoom 0 then .next { s.flushGroup with estate := .search } else .fault .tokbufIndex

/-- What E_SEARCH finds: nothing during the warm-up gap (R285, R291). -/
def State.searchResult (s : State) : Option Candidate :=
  if Config.warmupGroups ≤ s.groups.toNat then s.find s.epos.toNat else none

/-- E_SEARCH (R285). -/
def encSearch (s : State) : Answer :=
  match s.searchResult with
  | some c => .next { s with candS := c.s, candM := BitVec.ofNat 5 c.m, estate := .ref }
  | none => .next { s with estate := .lit }

/-- E_LIT (R286). -/
def encLit (s : State) : Answer :=
  match s.input s.epos.toNat with
  | none => .fault .inputIndex
  | some b =>
    if s.bufferRoom 1 then
      let t := ((s.pushTag 1).bufferByte b).append b
      .next { t with epos := t.epos + 1, erem := t.erem - 1, estate := .loop }
    else .fault .tokbufIndex

/-- `IN[epos .. epos + m - 1]`, when all of it exists (R287, R65). -/
def State.matchedBytes (s : State) : Option (List Byte) :=
  let bytes := (s.inp.drop s.epos.toNat).take s.candM.toNat
  if bytes.length = s.candM.toNat then some bytes else none

/-- E_REF (R287): the packed token is buffered and the matched input bytes are appended. -/
def encRef (s : State) : Answer :=
  match s.matchedBytes with
  | none => .fault .inputIndex
  | some bytes =>
    if s.bufferRoom 2 then
      let t := (((s.pushTag 0).bufferByte (brefByte0 s.candS)).bufferByte
        (brefByte1 s.candS (matchNibble s.candM))).appendAll bytes
      .next { t with epos := t.epos + s.candM.setWidth 32, erem := t.erem - s.candM.setWidth 16, estate := .loop }
    else .fault .tokbufIndex

/-- E_FINAL (R288): a non-empty last group is flushed. -/
def encFinal (s : State) : Answer :=
  if s.ecnt = 0 then .next { s with estate := .done, done := true }
  else if s.bufferRoom 0 then .next { s.flushGroup with estate := .done, done := true }
  else .fault .tokbufIndex

/-- One block step of the encoder (R281 to R288). A state without a step leaves all as it is (R289, R290). -/
def encoderStep (s : State) : Answer :=
  match s.estate with
  | .hdr0 => encHdr0 s
  | .hdr1 => encHdr1 s
  | .loop => encLoop s
  | .flush => encFlush s
  | .search => encSearch s
  | .lit => encLit s
  | .ref => encRef s
  | .final => encFinal s
  | .idle | .done | .fault => .next s

end Sys2Proof.Machine
end

