-- ==== Sys2Proof/Machine/Status.lean ====
section
/-! DEFINITION. The status read (`spec/44_encoder.md` R294). -/

namespace Sys2Proof.Machine

/-- The word of a `CSR.READ` with its ignored operand bits, which ILLEGAL_CMD records (R294, R41). -/
def csrReadWord (n : BitVec 4) (ignored : BitVec 12) : CmdWord := cmdWord 0x5#4 0x1#4 (ignored ++ n)

/-- `CSR.READ n` (R294): ILLEGAL_CMD for the reserved numbers, else the value zero-extended in `RES`. -/
def execCsrRead (n : BitVec 4) (ignored : BitVec 12) (s : State) : Answer :=
  match s.csr n with
  | some v => .next (s.setRes v)
  | none => .next (s.raiseFault (.illegalCmd (csrReadWord n ignored)))

end Sys2Proof.Machine
end

