-- ==== Sys2Proof/Machine/Dispatch.lean ====
section
/-! DEFINITION. The meaning of every instruction, one arm per constructor of `Instr`. -/

namespace Sys2Proof.Machine

def exec (i : Instr) (s : State) : Host.Outcome State Fault Refusal :=
  match i with
  -- 40_window.md
  | .nop => Sys2Proof.Machine.execNop s
  | .swbInit => Sys2Proof.Machine.execSwbInit s
  | .swbAppend b => Sys2Proof.Machine.execSwbAppend b s
  | .swbGet slot => Sys2Proof.Machine.execSwbGet slot s
  | .swbCursor => Sys2Proof.Machine.execSwbCursor s
  | .swbReplay slot => Sys2Proof.Machine.execSwbReplay slot s
  -- 41_control_frame.md
  | .cfcDClear => Sys2Proof.Machine.execCfcDClear s
  | .cfcDShift => Sys2Proof.Machine.execCfcDShift s
  | .cfcDLoad c => Sys2Proof.Machine.execCfcDLoad c s
  | .cfcDTag => Sys2Proof.Machine.execCfcDTag s
  | .cfcEClear => Sys2Proof.Machine.execCfcEClear s
  | .cfcEPush t ignored => Sys2Proof.Machine.execCfcEPush t ignored s
  | .cfcEFlush => Sys2Proof.Machine.execCfcEFlush s
  -- 42_decoder.md, 44_encoder.md
  | .decStart => Sys2Proof.Machine.execDecStart s
  | .encStart => Sys2Proof.Machine.execEncStart s
  -- 43_match_finder.md
  | .mfCount b => Sys2Proof.Machine.execMfCount b s
  | .mfProbe slot => Sys2Proof.Machine.execMfProbe slot s
  | .mfFind => Sys2Proof.Machine.execMfFind s
  | .mfSetpos p => Sys2Proof.Machine.execMfSetpos p s
  -- 44_encoder.md, section 4
  | .csrRead n ignored => Sys2Proof.Machine.execCsrRead n ignored s
  -- the stream tokens of 30_encoding.md, executed by 42_decoder.md
  | .hdr n => Sys2Proof.Machine.execHdr n s
  | .ctrl tags => Sys2Proof.Machine.execCtrl tags s
  | .lit b => Sys2Proof.Machine.execLit b s
  | .bref off n => Sys2Proof.Machine.execBref off n s

end Sys2Proof.Machine
end

