-- ==== Sys2Proof/Machine/Scheduler.lean ====
section
/-! DEFINITION. Who moves next (`spec/60_exceptions.md` R341): the block, the acceptance of the pending command, or the host's
next event; and what each move does. -/

namespace Sys2Proof.Machine

/-- One possible move. -/
inductive Turn where
  /-- (a) of R341: one state rule of the running state machine. -/
  | block
  /-- (b) of R341: the pending word is accepted. -/
  | accept (w : CmdWord)
  /-- The host's reset lands (R360). -/
  | reset
  /-- The host's new `IN` lands (R38). -/
  | present (bytes : List Byte)
  /-- The host's wait for BUSY = 0 is over (R363). -/
  | proceed
  deriving DecidableEq, Repr

/-- The host presents one command at a time (R341): its next command becomes the pending one when none is pending. -/
def State.offer (s : State) : State :=
  match s.pending, s.host with
  | none, .command w :: rest => { s with pending := some w, host := rest }
  | _, _ => s

/-- The commands accepted while BUSY = 1: NOP, and CSR.READ of CSR 0 to 10 (R341). -/
def acceptedWhileBusy (w : CmdWord) : Bool :=
  match decodeCommand w with
  | .ok .nop => true
  | .ok (.csrRead n _) => csrListed n
  | _ => false

/-- The move of the host's next event, where it can land now. A reset can land between any two steps (R360). The host acts in
its own order, so a new `IN` and the end of a wait come after the pending command was accepted. -/
def State.eventTurns (s : State) : List Turn :=
  match s.host with
  | .reset :: _ => [.reset]
  | .present bytes :: _ => if s.pending.isNone then [.present bytes] else []
  | .awaitIdle :: _ => if s.pending.isNone && !s.busy then [.proceed] else []
  | _ => []

/-- The acceptance of the pending word, unless the busy hold keeps it (R341). -/
def State.acceptTurns (s : State) : List Turn :=
  match s.pending with
  | some w => if s.busy && !acceptedWhileBusy w then [] else [.accept w]
  | none => []

/-- The block step, while BUSY = 1 (R341). -/
def State.blockTurns (s : State) : List Turn := if s.busy then [.block] else []

/-- All moves possible now. -/
def State.turns (s : State) : List Turn := s.eventTurns ++ s.acceptTurns ++ s.blockTurns

/-- One block step: the decoder's if it is busy, else the encoder's if it is busy (R341). -/
def blockStep (s : State) : Answer :=
  if s.dstate.busy then .next s.decoderStep else if s.estate.busy then encoderStep s else .next s

/-- The acceptance of a command word (R341): a reserved word raises ILLEGAL_CMD, any other runs. -/
def acceptCommand (w : CmdWord) (s : State) : Answer :=
  match decodeCommand w with
  | .ok i => exec i s
  | .error _ => .next (s.raiseFault (.illegalCmd w))

/-- What a move does. A change of `IN` while BUSY = 1 gets no result (R369). -/
def runTurn (t : Turn) (s : State) : Answer :=
  match t with
  | .block => blockStep s
  | .accept w => acceptCommand w { s with pending := none }
  | .reset => .next { s with host := s.host.tail }.resetEvent
  | .present bytes =>
    if s.busy then .refused .inputChangedWhileBusy else .next { s with inp := bytes, host := s.host.tail }
  | .proceed => .next { s with host := s.host.tail }

/-- The move taken: the only possible one, or, where several are possible, the one the scheduler draws (R341). An idle block
with nothing to accept keeps all its state (R347). -/
def takeTurn (s : State) : Answer :=
  match s.turns with
  | [] => .next s
  | [t] => runTurn t s
  | t :: u :: rest =>
    runTurn ((t :: u :: rest).getD (Config.schedulerDraw s.draws % (rest.length + 2)) t) { s with draws := s.draws + 1 }

end Sys2Proof.Machine
end

