-- ==== Sys2Proof/Machine/Step.lean ====
section
/-! DEFINITION. One step of the machine (`spec/60_exceptions.md` R341), and the placing of an instruction where the next step
takes it. -/

namespace Sys2Proof.Machine

/-- One step: the host presents its next command if none is pending, then one move is taken. -/
def step (s : State) : Host.Outcome State Fault Refusal := takeTurn s.offer

/-- `bytes` with `new` written over it from index `at` on, filled up with zeros before `at`. -/
def overwrite (bytes : List Byte) (pos : Nat) (new : List Byte) : List Byte :=
  bytes.take pos ++ List.replicate (pos - bytes.length) 0 ++ new ++ bytes.drop (pos + new.length)

/-- The state in which the decoder meets the given bytes as its next token, and nothing else can move. -/
def State.atToken (s : State) (d : DState) (bytes : List Byte) : State :=
  { s with
    inp := overwrite s.inp s.inPtr.toNat bytes
    dstate := d
    estate := if s.estate.busy then .idle else s.estate
    rem := if s.rem.toNat < 18 then 18 else s.rem
    pending := none
    host := [] }

/-- The state whose next step runs the instruction with those bits (log 3). A command word is made the pending command of an
idle block; a token's bytes are placed at `in_ptr` with the decoder at the state that reads them and owing bytes enough. -/
def State.withFetchWord (s : State) (nbits w : Nat) : State :=
  match nbits with
  | 24 =>
    { s with
      pending := some (BitVec.ofNat 24 w)
      host := []
      dstate := if s.dstate.busy then .idle else s.dstate
      estate := if s.estate.busy then .idle else s.estate }
  | 16 => s.atToken .ref0 [BitVec.ofNat 8 w, BitVec.ofNat 8 (w / 256)]
  | 8 => s.atToken .lit [BitVec.ofNat 8 w]
  | _ => s

end Sys2Proof.Machine
end

