-- ==== Sys2Proof/Machine/Listing.lean ====
section
/-! DEFINITION. The stream listings of `spec/30_encoding.md` R107 and R108 as data, and the bytes they stand for. A command
listing (R109) needs nothing of its own: it is a term of `Instr`, and its word is `encode`'s. -/

namespace Sys2Proof.Machine

/-- One line of a stream listing (R107). -/
inductive ListItem where
  | hdr (n : BitVec 16)
  | ctrl (v : Byte)
  | lit (b : Byte)
  | ref (off : Slot) (c : Nat)
  | raw (b : Byte)
  deriving DecidableEq, Repr

/-- A line may also be one of the pseudo-instructions (R108). -/
inductive ListLine where
  | item (i : ListItem)
  | hdrStar
  | refd (d c : Nat)
  | lits (bytes : List Byte)
  deriving DecidableEq, Repr

/-- The bytes a line stands for (R107). -/
def ListItem.bytes : ListItem → List Byte
  | .hdr n => [n.extractLsb' 8 8, n.extractLsb' 0 8]
  | .ctrl v => [v]
  | .lit b => [b]
  | .ref off c => [brefByte0 off, brefByte1 off (BitVec.ofNat 4 (c - 3))]
  | .raw b => [b]

/-- What a line needs: `3 <= c <= 18` (R107). -/
def ListItem.valid : ListItem → Bool
  | .ref _ c => 3 ≤ c && c ≤ 18
  | .hdr _ | .ctrl _ | .lit _ | .raw _ => true

/-- The tag of a token line: 1 for LIT, 0 for REF (R107, R92). -/
def ListItem.tag : ListItem → Option Bool
  | .lit _ => some true
  | .ref _ _ => some false
  | .hdr _ | .ctrl _ | .raw _ => none

/-- How many decoded bytes a line produces: 1 for LIT, `c` for REF (R108). -/
def ListItem.produces : ListItem → Nat
  | .lit _ => 1
  | .ref _ c => c
  | .hdr _ | .ctrl _ | .raw _ => 0

/-- A run of tokens as bytes: its control byte, then the tokens; nothing for the empty run. -/
def runBytes (count : Nat) (control : Byte) (bytes : List Byte) : List Byte :=
  if count = 0 then [] else control :: bytes

/-- The grouped form (R107): a control byte before each run of 8 tokens and before a shorter run that the listing or a line
other than a token ends (DEDUCED, log 16). `count`, `control` and `bytes` are the run so far. -/
def groupedBytes (count : Nat) (control : Byte) (bytes : List Byte) : List ListItem → List Byte
  | [] => runBytes count control bytes
  | x :: rest =>
    match x.tag with
    | none => runBytes count control bytes ++ x.bytes ++ groupedBytes 0 0 [] rest
    | some t =>
      let control' := control ||| (if t then (1#8 <<< count) else 0#8)
      let bytes' := bytes ++ x.bytes
      if count = 7 then runBytes 8 control' bytes' ++ groupedBytes 0 0 [] rest
      else groupedBytes (count + 1) control' bytes' rest

/-- Is the line a control byte written explicitly? -/
def ListItem.isCtrl : ListItem → Bool
  | .ctrl _ => true
  | .hdr _ | .lit _ | .ref _ _ | .raw _ => false

/-- The bytes of a listing: as written where it has a `CTRL` line, else in grouped form (R107). -/
def assemble (items : List ListItem) : List Byte :=
  if items.any ListItem.isCtrl then items.flatMap ListItem.bytes else groupedBytes 0 0 [] items

/-- The decoded bytes that the lines of a listing produce in all (R108, `HDR *`). -/
def ListLine.produces : ListLine → Nat
  | .item i => i.produces
  | .hdrStar => 0
  | .refd _ c => c
  | .lits bytes => bytes.length

/-- The expansion of a listing's pseudo-instructions (R108); `cur` is `INIT_CURSOR` plus the bytes produced so far, and
`total` is what `HDR *` stands for. -/
def expandFrom (total : Nat) (cur : Slot) : List ListLine → List ListItem
  | [] => []
  | x :: rest =>
    (match x with
      | .item i => [i]
      | .hdrStar => [.hdr (BitVec.ofNat 16 total)]
      | .refd d c => [.ref (cur - BitVec.ofNat 12 d) c]
      | .lits bytes => bytes.map .lit) ++ expandFrom total (cur + BitVec.ofNat 12 x.produces) rest

/-- The expansion of a whole listing (R108). -/
def expand (lines : List ListLine) : List ListItem :=
  expandFrom (lines.map ListLine.produces).sum Config.initCursor lines

end Sys2Proof.Machine
end

