-- ==== Sys2Proof/Safety.lean ====
section
/-! DEFINITION. The terms the statements use: legal states, runs, the end of an operation, and what a safe run is. -/

namespace Sys2Proof.Machine

/-- Nothing presented by the host: only the block can move. -/
def State.quiet (s : State) : Prop := s.pending = none ∧ s.host = []

/-- `k` steps; the first fault or refusal ends the run. -/
def run : Nat → State → Answer
  | 0, s => .next s
  | k + 1, s =>
    match step s with
    | .next t => run k t
    | .fault f => .fault f
    | .refused r => .refused r

/-- The effects of several instructions, one after the other; the first fault or refusal ends them. -/
def execAll : List Instr → State → Answer
  | [], s => .next s
  | i :: rest, s =>
    match exec i s with
    | .next t => execAll rest t
    | .fault f => .fault f
    | .refused r => .refused r

/-- The state of the running operation alone: without the result register, what the host presents, and the draws (R341). -/
def State.operation (s : State) : State := { s with res := 0, pending := none, host := [], draws := 0 }

/-- How many commands the host has still to have accepted, where all its events are commands. -/
def State.commandsLeft (s : State) : Nat := (if s.pending.isSome then 1 else 0) + s.host.length

/-- The distance from slot `off` to the cursor, 1 to 4096 (R12, R245). -/
def State.distance (s : State) (off : Slot) : Nat := if s.cur = off then Config.winSize else (s.cur - off).toNat

/-- The header value of a stream, 0 where the stream does not hold two bytes (R67, R91). -/
def headerValue : List Byte → Nat
  | hi :: lo :: _ => (hi ++ lo).toNat
  | _ => 0

/-- A decode has ended (R202). -/
def State.decodeEnded (s : State) : Prop := s.dstate = .done ∨ s.dstate = .fault

/-- What remains of the sentinel, `dflags[15:8]`: ones at its low end and zeros above (R45). -/
abbrev sentinelShape (flags : BitVec 16) : Prop :=
  flags.extractLsb' 8 8 &&& (flags.extractLsb' 8 8 + 1) = 0

/-- What holds while the decoder is busy: bytes are owed in every state past D_LOOP's test (R193, R196), a control byte is
active in every state past D_TAG's entry (R195), and a replay never exceeds what is owed (R198, R199). -/
structure State.DecoderLegal (s : State) : Prop where
  mode : s.mode = 0
  position : s.inPtr.toNat ≤ s.inp.length
  owes : s.dstate = .ctrl ∨ s.dstate = .tag ∨ s.dstate = .lit ∨ s.dstate = .ref0 ∨ s.dstate = .ref1 → s.rem ≠ 0
  active : s.dstate = .tag ∨ s.dstate = .lit ∨ s.dstate = .ref0 ∨ s.dstate = .ref1 ∨ s.dstate = .copy →
    s.dflags.getLsbD 8 = true
  replay : s.dstate = .copy → 1 ≤ s.refCnt.toNat ∧ s.refCnt.toNat ≤ s.rem.toNat

/-- What holds while the encoder is busy: the header and the position agree with `IN` (R31), the token buffer holds at most two
bytes a tag (R32), every flushed group covers at least 8 bytes (R33), and each state is entered as its rule says (R283 to R288). -/
structure State.EncoderLegal (s : State) : Prop where
  mode : s.mode = 1
  length : s.inp.length ≤ Config.nMax
  header : s.hdrN.toNat = s.inp.length
  position : s.epos.toNat + s.erem.toNat = s.inp.length
  buffer : s.toklen.toNat ≤ 2 * s.ecnt.toNat
  grouped : 8 * s.groups.toNat + s.ecnt.toNat ≤ s.epos.toNat
  start : s.estate = .hdr0 ∨ s.estate = .hdr1 → s.epos = 0
  full : s.estate = .flush → s.ecnt = 8 ∧ s.erem ≠ 0
  open_ : s.estate = .search ∨ s.estate = .lit → s.ecnt.toNat < 8 ∧ s.erem ≠ 0
  matched : s.estate = .ref → s.ecnt.toNat < 8 ∧ 3 ≤ s.candM.toNat ∧ s.candM.toNat ≤ s.erem.toNat ∧
    s.candM.toNat ≤ s.params.maxMatch
  last : s.estate = .final → s.erem = 0

/-- The states a run can reach, as far as the rules bound them: the window in canonical form, every counter in the range
R20 gives it, at most one machine busy (R37), STATUS as R40 says, and the conditions of the running machine. -/
structure State.Legal (s : State) : Prop where
  window : s.win.wf
  params : s.params.legal = true
  ecnt : s.ecnt.toNat ≤ 8
  etag : s.etag <<< s.ecnt.toNat = 0
  toklen : s.toklen.toNat ≤ 16
  refCnt : s.refCnt.toNat ≤ 18
  candM : s.candM.toNat ≤ 18
  sentinel : sentinelShape s.dflags
  oneBusy : ¬ (s.dstate.busy = true ∧ s.estate.busy = true)
  busyClear : s.busy = true → s.done = false ∧ s.faulted = false
  doneClear : s.done = true → s.faulted = false
  record : s.faulted = false → s.fcode = 0 ∧ s.faddr = 0 ∧ s.fval = 0
  code : s.faulted = true → 1 ≤ s.fcode.toNat ∧ s.fcode.toNat ≤ 4
  decoder : s.dstate.busy = true → s.DecoderLegal
  encoder : s.estate.busy = true → s.EncoderLegal

/-- A step that does not stop, or that stops only because the host changed `IN` while the block was busy (R369). -/
def Answer.safe : Answer → Bool
  | .next _ => true
  | .refused r => decide (r = .inputChangedWhileBusy)
  | .fault _ => false

/-- A safe run of `k` steps: no step of it stops but for a host that breaks its duty of R364. -/
def State.safeFor (s : State) (k : Nat) : Prop := Answer.safe (run k s) = true

end Sys2Proof.Machine
end

