-- ==== Sys2Proof/Certificates/Slice0/Obligations.lean ====
section
/-! DEFINITION. The statements about the machine, from the numbered rules of `spec/`, for the provers. Where a statement says
`.next { s with … }`, the fields it does not list are unchanged: that equality is the frame. Where it says
`{ t with x := s.x, … } = s`, the state `t` differs from `s` in the listed fields only, and the clauses before say how. -/

open Sys2Proof Sys2Proof.Machine

/-! Encodings (`spec/30_encoding.md`). -/

/-- R90 to R97, R101 to R110: decoding an encoded instruction gives it back, with every operand at every value; and a token's
bytes decode to it whatever follows them in the stream. -/
def Obligations.DecodeReturnsEncodedInstruction : Prop :=
  ∀ i : Instr, decode (encode i) = .ok i ∧
    ∀ kind own rest, encode i = .token kind own → decodeToken kind (own ++ rest) = .ok (i, rest)

/-- R91 to R96: the bytes a decoded token was read from are the bytes it is encoded as, so no two byte sequences read as the
same token. -/
def Obligations.TokenBytesReadOneWay : Prop :=
  ∀ kind bytes i rest, decodeToken kind bytes = .ok (i, rest) → ∃ own, encode i = .token kind own ∧ bytes = own ++ rest

/-- R101 to R104, R110: a word is its three fields; exactly the 20 listed `(unit, op)` pairs decode, whatever the operand; the
rest is rejected under the name of its reserved space. -/
def Obligations.OpcodeMapIsTotal : Prop :=
  (∀ w : CmdWord, w = cmdWord (cmdUnit w) (cmdOp w) (cmdOpnd w)) ∧
  ∀ (u op : BitVec 4) (opnd : BitVec 16),
    ((u.toNat, op.toNat) ∈ [(0, 0), (0, 1), (0, 2), (0, 3), (0, 4), (0, 5), (1, 1), (1, 2), (1, 3), (1, 4), (1, 5), (1, 6),
        (1, 7), (2, 1), (3, 1), (4, 1), (4, 2), (4, 3), (4, 4), (5, 1)] →
      ∃ i, decodeCommand (cmdWord u op opnd) = .ok i) ∧
    ((u.toNat, op.toNat) ∉ [(0, 0), (0, 1), (0, 2), (0, 3), (0, 4), (0, 5), (1, 1), (1, 2), (1, 3), (1, 4), (1, 5), (1, 6),
        (1, 7), (2, 1), (3, 1), (4, 1), (4, 2), (4, 3), (4, 4), (5, 1)] → u.toNat ≤ 5 →
      decodeCommand (cmdWord u op opnd) = .error (.reservedOp u op)) ∧
    (6 ≤ u.toNat → decodeCommand (cmdWord u op opnd) = .error (.reservedUnit u))

/-- R105: two words that agree in `unit`, `op` and the operand bits R103 names do the same; a rejected word is recorded as it
stands (R41). The list gives the operand mask of each row of R103. -/
def Obligations.IgnoredOperandBitsDoNothing : Prop :=
  ∀ row ∈ ([(0, 0, 0x0000), (0, 1, 0x0000), (0, 2, 0x00FF), (0, 3, 0x0FFF), (0, 4, 0x0000), (0, 5, 0x0FFF), (1, 1, 0x0000),
      (1, 2, 0x0000), (1, 3, 0x00FF), (1, 4, 0x0000), (1, 5, 0x0000), (1, 6, 0x0001), (1, 7, 0x0000), (2, 1, 0x0000),
      (3, 1, 0x0000), (4, 1, 0x00FF), (4, 2, 0x0FFF), (4, 3, 0x0000), (4, 4, 0xFFFF), (5, 1, 0x000F)] :
      List (BitVec 4 × BitVec 4 × BitVec 16)),
    ∀ (x y : BitVec 16) (s : State), x &&& row.2.2 = y &&& row.2.2 →
      ∃ t, acceptCommand (cmdWord row.1 row.2.1 x) s = .next t ∧
        (acceptCommand (cmdWord row.1 row.2.1 y) s = .next t ∨
          t.fcode = 4#4 ∧ t.faddr = (cmdWord row.1 row.2.1 x).setWidth 32 ∧
          acceptCommand (cmdWord row.1 row.2.1 y) s =
            .next { t with faddr := (cmdWord row.1 row.2.1 y).setWidth 32 })

/-- R107, R109 and the examples of `spec/95_test_vectors.md`: words and bytes written out from the encodings of the spec decode
to the instructions they stand for, one or more of each unit. -/
def Obligations.SampleEncodingsDecode : Prop :=
  decodeTableWord 24 0x000000 = some .nop ∧
  decodeTableWord 24 0x020041 = some (.swbAppend 0x41#8) ∧
  decodeTableWord 24 0x030FEE = some (.swbGet 0xFEE#12) ∧
  decodeTableWord 24 0x050FEE = some (.swbReplay 0xFEE#12) ∧
  decodeTableWord 24 0x1300A5 = some (.cfcDLoad 0xA5#8) ∧
  decodeTableWord 24 0x160001 = some (.cfcEPush 1#1 0#15) ∧
  decodeTableWord 24 0x210000 = some .decStart ∧
  decodeTableWord 24 0x310000 = some .encStart ∧
  decodeTableWord 24 0x440008 = some (.mfSetpos 8#16) ∧
  decodeTableWord 24 0x510003 = some (.csrRead 3#4 0#12) ∧
  decode (.token .header [0x01#8, 0x23#8]) = .ok (.hdr 0x0123#16) ∧
  decode (.token .control [0xA5#8]) = .ok (.ctrl 0xA5#8) ∧
  decode (.token .literal [0x41#8]) = .ok (.lit 0x41#8) ∧
  decode (.token .backref [0xEE#8, 0xF6#8]) = .ok (.bref 0xFEE#12 6#4) ∧
  decodeTableWord 24 0x600000 = none ∧ decodeTableWord 24 0x060000 = none

/-! Steps (`spec/60_exceptions.md` R341, `spec/70_reset_and_hazards.md`). -/

/-- R341: the pending command is the held one, or the host's next command; an idle block with no reset at hand runs the decoded
instruction, or faults a reserved word. The command is no longer pending. The host's list and the end of its wait for an idle
block are the model's own (log 4). -/
def Obligations.StepAcceptsThePendingCommand : Prop :=
  (∀ (s : State) w, s.pending = some w → s.offer = s) ∧
  (∀ (s : State) w rest, s.pending = none → s.host = .command w :: rest →
    s.offer = { s with pending := some w, host := rest }) ∧
  (∀ (s : State) rest, s.busy = false → s.pending = none → s.host = .awaitIdle :: rest →
    step s = .next { s with host := rest }) ∧
  ∀ (s : State) w, s.busy = false → s.offer.pending = some w → s.offer.host.head? ≠ some .reset →
    (∀ i, decodeCommand w = .ok i → step s = exec i { s.offer with pending := none }) ∧
    (∀ e, decodeCommand w = .error e → step s = .next ({ s.offer with pending := none }.raiseFault (.illegalCmd w)))

/-- R194, R196, R341: with nothing presented by the host, the step of a decoder that expects a control byte or a literal is the
effect of the token its next byte decodes to. That a token is one instruction is the model's reading (log 11). -/
def Obligations.TokenStepRunsTheToken : Prop :=
  ∀ (s : State) kind i rest, s.quiet → (s.dstate = .ctrl ∧ kind = .control ∨ s.dstate = .lit ∧ kind = .literal) →
    decodeToken kind (s.inp.drop s.inPtr.toNat) = .ok (i, rest) → step s = exec i s

/-- R191, R192, R197 to R199, R341: the block steps of a header, and those of a whole BackRef, add up to the effect of the
token the next two bytes decode to: two steps, and one more for each replayed byte (log 11). -/
def Obligations.HeaderAndBackRefRunByBlockSteps : Prop :=
  ∀ (s : State), s.quiet → s.inPtr.toNat + 1 < 2 ^ 32 →
    (∀ i rest, s.dstate = .hdr0 → decodeToken .header (s.inp.drop s.inPtr.toNat) = .ok (i, rest) → run 2 s = exec i s) ∧
    (∀ off n rest, s.dstate = .ref0 → decodeToken .backref (s.inp.drop s.inPtr.toNat) = .ok (.bref off n, rest) →
      run (if s.rem.toNat < n.toNat + 3 then 2 else n.toNat + 5) s = exec (.bref off n) s)

/-- R341, R370: the words accepted while busy are NOP and CSR.READ of CSR 0 to 10; any other pending word is held, unchanged,
while the block takes its own step; an accepted one runs, or the block takes its own step (the draw of R341). -/
def Obligations.BusyBlockHoldsCommands : Prop :=
  (∀ w, acceptedWhileBusy w = true ↔
    (cmdUnit w = 0x0#4 ∧ cmdOp w = 0x0#4) ∨
    (cmdUnit w = 0x5#4 ∧ cmdOp w = 0x1#4 ∧ ((cmdOpnd w).extractLsb' 0 4).toNat ≤ 10)) ∧
  ∀ (s : State) w, s.busy = true → s.pending = some w → s.host.head? ≠ some .reset →
    (acceptedWhileBusy w = false → step s = blockStep s ∧ ∀ t, step s = .next t → t.pending = some w) ∧
    (acceptedWhileBusy w = true → ∃ d v,
      acceptCommand w { s with pending := none, draws := d } = .next { s with pending := none, draws := d, res := v } ∧
      (step s = blockStep { s with draws := d } ∨ step s = .next { s with pending := none, draws := d, res := v }))

/-- R341, R374, I9: whatever the scheduler draws, commands accepted while busy never change the operation: every run of a legal
state with such commands goes through the states of the same operation run alone, but for RES, and falls behind it by at most
one step for each command. -/
def Obligations.DrawsNeverChangeAnOperation : Prop :=
  ∀ s : State, s.Legal → (∀ w, s.pending = some w → acceptedWhileBusy w = true) →
    (∀ e ∈ s.host, ∃ w, e = .command w ∧ acceptedWhileBusy w = true) →
    ∀ k, ∃ j t u, j ≤ k ∧ run k s = .next t ∧ run j s.operation = .next u ∧ t.operation = u.operation ∧
      (t.busy = true → k ≤ j + s.commandsLeft)

/-- R347: an idle block to which the host presents nothing keeps all its state, whatever that state is. -/
def Obligations.IdleBlockKeepsItsState : Prop :=
  ∀ s : State, s.busy = false → s.pending = none → s.host = [] → step s = .next s

/-- From R47, R360 and R361: the reset values, of the state after reset and of a reset that the host asserts at any time; that
reset discards the held command and leaves IN and OUT alone. R47 gives `tokbuf` no value, so it is not mentioned. That a reset is
an event of the host's list and leaves the rest of that list (log 4), and that it leaves the parameters, which the model holds in
its state (log 2), are the model's choices (DESIGN CHOICE). -/
def Obligations.ResetRestoresEveryRegister : Prop :=
  (∀ (s r : State) rest, r = State.reset ∨ s.host = .reset :: rest ∧ runTurn .reset s = .next r →
    (∀ i, r.slot i = 0x00#8) ∧ r.cur = 0xFEE#12 ∧ r.dflags = 0x0000#16 ∧ r.etag = 0x00#8 ∧ r.ecnt = 0 ∧
    r.rem = 0 ∧ r.refLo = 0 ∧ r.refOff = 0 ∧ r.refCnt = 0 ∧ r.inPtr = 0 ∧ r.dstate = .idle ∧
    r.hdrN = 0 ∧ r.epos = 0 ∧ r.erem = 0 ∧ r.groups = 0 ∧ r.toklen = 0 ∧ r.candS = 0 ∧ r.candM = 0 ∧ r.estate = .idle ∧
    r.mode = 0 ∧ r.res = 0 ∧ r.status = 0x0000#16 ∧ r.faddr = 0 ∧ r.fval = 0 ∧ r.pending = none) ∧
  ∀ (s : State) rest, s.host = .reset :: rest → Turn.reset ∈ s.offer.turns ∧
    (s.busy = false → s.pending = none → step s = runTurn .reset s) ∧
    ∃ t, runTurn .reset s = .next t ∧ t.inp = s.inp ∧ t.out = s.out ∧ t.params = s.params ∧ t.host = rest

/-- From R369 and R38: the host may present a new IN to an idle block; a run in which it changes IN while BUSY = 1 gets no result.
The host's list of events, from which a presented IN is taken in a step of its own, is the model's choice (DESIGN CHOICE, log 4).
So is the outcome `refused .inputChangedWhileBusy` (DEDUCED, log 6): R369 says only that a model may refuse such a run. -/
def Obligations.InputChangeWhileBusyGetsNoResult : Prop :=
  ∀ (s : State) bytes rest, s.pending = none → s.host = .present bytes :: rest →
    (s.busy = false → step s = .next { s with inp := bytes, host := rest }) ∧
    (s.busy = true →
      (step s = .refused .inputChangedWhileBusy ∨ ∃ d, step s = blockStep { s with draws := d }) ∧
      ∀ t, step s = .next t → t.inp = s.inp ∧ t.host = s.host)

/-! Window commands (`spec/40_window.md`). -/

/-- R131: SWB.INIT, whatever its operand bits, fills every slot with 0x00 and sets the cursor to 0xFEE, and changes nothing else. -/
def Obligations.SwbInitFillsTheWindow : Prop :=
  ∀ (s : State) (x : BitVec 16), decodeCommand (cmdWord 0x0#4 0x1#4 x) = .ok .swbInit ∧
    ∃ t, exec .swbInit s = .next t ∧ (∀ i, t.slot i = 0x00#8) ∧ t.cur = 0xFEE#12 ∧
      { t with win := s.win, cur := s.cur } = s

/-- R132, R63: the byte stands at the old cursor, every other slot reads as before, the cursor advances modulo 4096. -/
def Obligations.SwbAppendWritesAtTheCursor : Prop :=
  ∀ (s : State) (x b : BitVec 8), s.win.wf →
    decodeCommand (cmdWord 0x0#4 0x2#4 (x ++ b)) = .ok (.swbAppend b) ∧
    ∃ t, exec (.swbAppend b) s = .next t ∧ t.slot s.cur = b ∧ (∀ i, i ≠ s.cur → t.slot i = s.slot i) ∧
      t.cur.toNat = (s.cur.toNat + 1) % 4096 ∧ { t with win := s.win, cur := s.cur } = s

/-- R130, R133, R134: NOP changes nothing and is accepted while busy; SWB.GET writes the slot's byte and SWB.CURSOR the cursor,
zero-extended, to RES and change nothing else. -/
def Obligations.NopGetAndCursorOnlyRead : Prop :=
  ∀ (s : State) (x : BitVec 16) (y : BitVec 4) (i : Slot),
    decodeCommand (cmdWord 0x0#4 0x0#4 x) = .ok .nop ∧ exec .nop s = .next s ∧
      acceptedWhileBusy (cmdWord 0x0#4 0x0#4 x) = true ∧
    decodeCommand (cmdWord 0x0#4 0x3#4 (y ++ i)) = .ok (.swbGet i) ∧
      exec (.swbGet i) s = .next { s with res := (s.slot i).setWidth 32 } ∧
    decodeCommand (cmdWord 0x0#4 0x4#4 x) = .ok .swbCursor ∧
      exec .swbCursor s = .next { s with res := s.cur.setWidth 32 } ∧ s.cur.toNat ≤ 0xFFF

/-- R135, R366: slot `i` is read before the write, then appended; where it is the slot at the cursor, only the cursor moves. -/
def Obligations.SwbReplayCopiesOneByte : Prop :=
  ∀ (s : State) (y : BitVec 4) (i : Slot), s.win.wf →
    decodeCommand (cmdWord 0x0#4 0x5#4 (y ++ i)) = .ok (.swbReplay i) ∧
    ∃ t, exec (.swbReplay i) s = .next t ∧ t.slot s.cur = s.slot i ∧ (∀ j, j ≠ s.cur → t.slot j = s.slot j) ∧
      (i = s.cur → ∀ j, t.slot j = s.slot j) ∧ t.cur.toNat = (s.cur.toNat + 1) % 4096 ∧
      t.res = (s.slot i).setWidth 32 ∧ { t with win := s.win, cur := s.cur, res := s.res } = s

/-- R136, R137: after INIT and any appends, the cursor is 0xFEE plus their number, the slots behind it hold the appended bytes,
most recent first, and the slots no append reached hold 0x00. -/
def Obligations.WindowHoldsTheLastAppends : Prop :=
  ∀ (s : State) (bytes : List Byte), ∃ t, execAll (.swbInit :: bytes.map .swbAppend) s = .next t ∧
    t.cur.toNat = (0xFEE + bytes.length) % 4096 ∧
    ∀ k < 4096, t.slot (t.cur - 1 - BitVec.ofNat 12 k) = if k < bytes.length then bytes.reverse.getD k 0 else 0x00#8

/-! Control frame codec (`spec/41_control_frame.md`). -/

/-- R160 to R163: clear, shift with the need for a control byte tested on the shifted value, load under the sentinel, tag. -/
def Obligations.CfcDecodeCommands : Prop :=
  ∀ (s : State) (x : BitVec 16) (y c : BitVec 8),
    decodeCommand (cmdWord 0x1#4 0x1#4 x) = .ok .cfcDClear ∧
      exec .cfcDClear s = .next { s with dflags := 0x0000#16 } ∧
    decodeCommand (cmdWord 0x1#4 0x2#4 x) = .ok .cfcDShift ∧
      exec .cfcDShift s = .next { s with
        dflags := s.dflags >>> 1
        res := (BitVec.ofBool (decide ((s.dflags >>> 1).getLsbD 8 = false)) ++ s.dflags >>> 1).setWidth 32 } ∧
    decodeCommand (cmdWord 0x1#4 0x3#4 (y ++ c)) = .ok (.cfcDLoad c) ∧
      exec (.cfcDLoad c) s = .next { s with dflags := 0xFF#8 ++ c } ∧
    decodeCommand (cmdWord 0x1#4 0x4#4 x) = .ok .cfcDTag ∧
      exec .cfcDTag s = .next { s with res := (s.dflags.extractLsb' 0 1).setWidth 32 }

/-- R164, R45: after a load, `k` shifts leave the loaded value shifted by `k`; bit 0 is control bit `k`, a control byte is needed
after the 8th shift and not before, and the whole high byte says the same; a shift from 0x0000 needs one at once. -/
def Obligations.ReloadComesAfterEightShifts : Prop :=
  (∀ (s : State) (c : Byte) (k : Nat), 1 ≤ k → k ≤ 8 →
    ∃ t, execAll (.cfcDLoad c :: List.replicate k .cfcDShift) s = .next t ∧ t.dflags = (0xFF#8 ++ c) >>> k ∧
      (k ≤ 7 → t.dflags.getLsbD 0 = c.getLsbD k) ∧ t.res.getLsbD 16 = decide (k = 8) ∧
      t.dflags.getLsbD 8 = decide (k ≤ 7) ∧ (t.dflags.extractLsb' 8 8 = 0 ↔ k = 8)) ∧
  ∀ s : State, ∃ t, execAll [.cfcDClear, .cfcDShift] s = .next t ∧ t.dflags = 0x0000#16 ∧ t.res.getLsbD 16 = true

/-- R166 to R168: clear, push with ILLEGAL_CMD at eight tags, flush; `ecnt` is within the range R25 gives it. -/
def Obligations.CfcEncodeCommands : Prop :=
  ∀ (s : State) (x : BitVec 16) (y : BitVec 15) (b : BitVec 1), s.ecnt.toNat ≤ 8 →
    decodeCommand (cmdWord 0x1#4 0x5#4 x) = .ok .cfcEClear ∧
      exec .cfcEClear s = .next { s with etag := 0x00#8, ecnt := 0 } ∧
    decodeCommand (cmdWord 0x1#4 0x6#4 (y ++ b)) = .ok (.cfcEPush b y) ∧
      (s.ecnt.toNat < 8 →
        exec (.cfcEPush b y) s = .next { s with etag := b ++ s.etag.extractLsb' 1 7, ecnt := s.ecnt + 1 }) ∧
      (s.ecnt.toNat = 8 → exec (.cfcEPush b y) s = .next { s with
        faulted := true, done := false, fcode := 4, fval := 0
        faddr := (cmdWord 0x1#4 0x6#4 (y ++ b)).setWidth 32 }) ∧
    decodeCommand (cmdWord 0x1#4 0x7#4 x) = .ok .cfcEFlush ∧
      exec .cfcEFlush s = .next { s with
        etag := 0x00#8, ecnt := 0, res := (s.etag >>> (8 - s.ecnt.toNat)).setWidth 32 } ∧
      ∀ j, s.ecnt.toNat ≤ j → (s.etag >>> (8 - s.ecnt.toNat)).getLsbD j = false

/-- R169, R167: up to eight tags pushed from clear come back from E_FLUSH with tag `j` at bit `j` and the unused bits 0, and the
decode side, loaded with that byte, gives them back in token order. -/
def Obligations.TagsComeBackInTokenOrder : Prop :=
  ∀ (s : State) (tags : List (BitVec 1)), tags.length ≤ 8 →
    ∃ t, execAll (.cfcEClear :: tags.map (fun b => .cfcEPush b 0) ++ [.cfcEFlush]) s = .next t ∧
      (∀ j, t.res.getLsbD j = (tags.getD j 0).getLsbD 0) ∧
      ∀ j < tags.length, ∃ u,
        execAll (.cfcDLoad (t.res.extractLsb' 0 8) :: List.replicate j .cfcDShift ++ [.cfcDTag]) t = .next u ∧
        u.res = (tags.getD j 0).setWidth 32

/-! Match finder (`spec/43_match_finder.md`). -/

/-- R241, R242: the number of the 4096 slots that hold the byte. -/
def Obligations.MfCountCountsAllSlots : Prop :=
  ∀ (s : State) (x b : BitVec 8), decodeCommand (cmdWord 0x4#4 0x1#4 (x ++ b)) = .ok (.mfCount b) ∧
    exec (.mfCount b) s = .next { s with
      res := BitVec.ofNat 32 ((List.range 4096).countP fun j => s.slot (BitVec.ofNat 12 j) == b) } ∧
    (List.range 4096).countP (fun j => s.slot (BitVec.ofNat 12 j) == b) ≤ 4096

/-- R243: the closed form of the simulated window is the window after the appends of the first `k` input bytes from `p`, so the
probe needs no write to the live window (R46, R367). -/
def Obligations.SimulatedWindowIsTheGrownWindow : Prop :=
  ∀ (s : State) (p k : Nat) (j : Slot), s.win.wf → k ≤ 4096 → p + k ≤ s.inp.length →
    s.simwin p j k = (s.appendAll ((s.inp.drop p).take k)).slot j ∧
    s.simwin p j k =
      if (j - s.cur).toNat < k then s.inp.getD (p + (j - s.cur).toNat) 0 else s.slot j

/-- R243, R244, R252: PROBE returns the `m` for which every earlier byte equals the grown window and the next does not, is past
the input, or is past the cap; 0 at the end of the input. -/
def Obligations.MfProbeReturnsTheMatchedCount : Prop :=
  ∀ (s : State) (y : BitVec 4) (start : Slot), s.win.wf → s.params.legal = true →
    decodeCommand (cmdWord 0x4#4 0x2#4 (y ++ start)) = .ok (.mfProbe start) ∧
    ∃ m : Nat, exec (.mfProbe start) s = .next { s with res := BitVec.ofNat 32 m } ∧
      m ≤ s.params.maxMatch ∧ (s.inp.length ≤ s.epos.toNat → m = 0) ∧
      (∀ k < m, s.epos.toNat + k < s.inp.length ∧
        (s.appendAll ((s.inp.drop s.epos.toNat).take k)).slot (start + BitVec.ofNat 12 k) =
          s.inp.getD (s.epos.toNat + k) 0) ∧
      (m = s.params.maxMatch ∨ s.inp.length ≤ s.epos.toNat + m ∨
        (s.appendAll ((s.inp.drop s.epos.toNat).take m)).slot (start + BitVec.ofNat 12 m) ≠
          s.inp.getD (s.epos.toNat + m) 0)

/-- R240, R245, R246, R252: the candidates are exactly the scanned distances whose slot holds the next input byte and whose
probe reaches 3 bytes, in scan order, nearest first as standard, with every number in its range. -/
def Obligations.CandidatesAreTheLongEnoughMatches : Prop :=
  scanDistances Params.standard.scan = List.range' 1 4096 ∧
  ∀ (s : State) (p : Nat), s.params.legal = true →
    ((s.cands p).map Candidate.d).Sublist (scanDistances s.params.scan) ∧
    (∀ c, c ∈ s.cands p ↔ c.d ∈ scanDistances s.params.scan ∧ c.s = s.cur - BitVec.ofNat 12 c.d ∧
      s.slot c.s = s.inp.getD p 0 ∧ c.m = s.probe c.s p ∧ 3 ≤ c.m) ∧
    ∀ c ∈ s.cands p, 1 ≤ c.d ∧ c.d ≤ 4096 ∧ c.m ≤ s.params.maxMatch ∧ p + c.m ≤ s.inp.length

/-- R247, R248, R106: 0 when no candidate is found (the count is no further condition, R241), else the found bit, `m` and `s` of
the candidate the policy selects. -/
def Obligations.MfFindReturnsTheSelected : Prop :=
  ∀ (s : State) (x : BitVec 16), s.params.legal = true → decodeCommand (cmdWord 0x4#4 0x3#4 x) = .ok .mfFind ∧
    (s.inp.length ≤ s.epos.toNat ∨ s.cands s.epos.toNat = [] → exec .mfFind s = .next { s with res := 0 }) ∧
    (s.epos.toNat < s.inp.length → s.cands s.epos.toNat ≠ [] →
      ∃ c ∈ s.cands s.epos.toNat, select s.params.select (s.cands s.epos.toNat) = some c ∧
        exec .mfFind s = .next { s with res := 1#1 ++ 0#10 ++ BitVec.ofNat 5 c.m ++ 0#4 ++ c.s } ∧
        (BitVec.ofNat 5 c.m).toNat = c.m)

/-- R253, R255: the standard policy is RANKSUM; every policy answers a member of a non-empty list; LONGEST the greatest `m`, ties to the least `d`; NEAREST the
least `d`. -/
def Obligations.SelectionAnswersAMember : Prop :=
  Params.standard.select = .rankSum ∧
  ∀ C : List Candidate, C ≠ [] →
    (∀ policy, ∃ c ∈ C, select policy C = some c) ∧
    (∀ c, select .longest C = some c → ∀ x ∈ C, x.m < c.m ∨ x.m = c.m ∧ c.d ≤ x.d) ∧
    (∀ c, select .nearest C = some c → ∀ x ∈ C, c.d ≤ x.d)

/-- R254: for the stable sort `order` of the indices by `m` ascending, RANKSUM answers the candidate with the least sum of its
position in `order` and its scan index, ties to the least index. -/
def Obligations.RankSumPicksTheLeastRank : Prop :=
  ∀ (C : List Candidate) (order : List Nat), C ≠ [] → order.Perm (List.range C.length) →
    order.Pairwise (fun a b => (C.map Candidate.m).getD a 0 < (C.map Candidate.m).getD b 0 ∨
      (C.map Candidate.m).getD a 0 = (C.map Candidate.m).getD b 0 ∧ a < b) →
    ∃ j < C.length, select .rankSum C = C[j]? ∧
      ∀ k < C.length, order.idxOf j + j ≤ order.idxOf k + k ∧ (order.idxOf j + j = order.idxOf k + k → j ≤ k)

/-- R249: MF.SETPOS writes its zero-extended operand to `epos` and changes nothing else. -/
def Obligations.MfSetposWritesEpos : Prop :=
  ∀ (s : State) (p : BitVec 16), decodeCommand (cmdWord 0x4#4 0x4#4 p) = .ok (.mfSetpos p) ∧
    exec (.mfSetpos p) s = .next { s with epos := p.setWidth 32 }

/-! Status (`spec/10_state.md` R40 to R43, `spec/44_encoder.md` R294). -/

/-- R294, R43: every CSR reads as its row of R43 says and reading writes RES alone; the reserved numbers raise ILLEGAL_CMD with
the whole word recorded, and only they are held while busy. -/
def Obligations.CsrReadReturnsEachRegister : Prop :=
  ∀ (s : State) (x : BitVec 12) (n : BitVec 4), decodeCommand (cmdWord 0x5#4 0x1#4 (x ++ n)) = .ok (.csrRead n x) ∧
    acceptedWhileBusy (cmdWord 0x5#4 0x1#4 (x ++ n)) = decide (n.toNat ≤ 10) ∧
    (∀ row ∈ [(0, s.status.setWidth 32), (1, s.faddr), (2, s.fval.setWidth 32), (3, s.cur.setWidth 32),
        (4, if s.mode = 0 then s.rem.setWidth 32 else s.erem.setWidth 32), (5, s.inPtr), (6, s.dflags.setWidth 32),
        (7, (s.ecnt ++ s.etag).setWidth 32), (8, s.epos), (9, s.groups.setWidth 32), (10, s.toklen.setWidth 32)],
      n.toNat = row.1 → exec (.csrRead n x) s = .next { s with res := row.2 }) ∧
    (11 ≤ n.toNat → exec (.csrRead n x) s = .next { s with
      faulted := true, done := false, fcode := 4, fval := 0
      faddr := (cmdWord 0x5#4 0x1#4 (x ++ n)).setWidth 32 })

/-- R40, R327, R29, R34: the bits of the STATUS word; BUSY is computed from the two state machines. -/
def Obligations.StatusWordShowsItsBits : Prop :=
  ∀ s : State, s.status.getLsbD 1 = s.done ∧ s.status.getLsbD 2 = s.faulted ∧ s.status.extractLsb' 3 1 = s.mode ∧
    s.status.extractLsb' 4 4 = s.fcode ∧ s.status.extractLsb' 8 8 = 0 ∧
    (s.status.getLsbD 0 = true ↔
      s.dstate ∈ [DState.hdr0, .hdr1, .loop, .ctrl, .tag, .lit, .ref0, .ref1, .copy] ∨
      s.estate ∈ [EState.hdr0, .hdr1, .loop, .flush, .search, .lit, .ref, .final])

/-! Faults (`spec/60_exceptions.md`). -/

/-- R104, R324, R41: a word of a reserved unit or op, E_PUSH at eight tags and CSR.READ of 11 to 15 change the fault registers
and STATUS only, and FADDR holds the word. -/
def Obligations.ReservedCommandsOnlyFault : Prop :=
  ∀ (s : State) (w : CmdWord),
    ((cmdUnit w).toNat, (cmdOp w).toNat) ∉ [(0, 0), (0, 1), (0, 2), (0, 3), (0, 4), (0, 5), (1, 1), (1, 2), (1, 3), (1, 4),
        (1, 5), (1, 6), (1, 7), (2, 1), (3, 1), (4, 1), (4, 2), (4, 3), (4, 4), (5, 1)] ∨ (cmdUnit w = 0x1#4 ∧ cmdOp w = 0x6#4 ∧ s.ecnt = 8#4) ∨
      (cmdUnit w = 0x5#4 ∧ cmdOp w = 0x1#4 ∧ 11 ≤ ((cmdOpnd w).extractLsb' 0 4).toNat) →
    acceptCommand w s = .next { s with faulted := true, done := false, fcode := 4, faddr := w.setWidth 32, fval := 0 }

/-- R330, R320, R41, R42: what fault entry writes for each of the four causes, and that it writes nothing else. -/
def Obligations.FaultEntryWritesTheRecord : Prop :=
  ∀ (s : State) (pos : Word) (c : BitVec 5) (len : Nat) (w : CmdWord),
    s.raiseFault (.endOfInput pos) = { s with
      faulted := true, done := false, fcode := 1, faddr := pos, fval := 0, dstate := .fault } ∧
    s.raiseFault (.corruptStream pos c) = { s with
      faulted := true, done := false, fcode := 2, faddr := pos, fval := c.setWidth 16, dstate := .fault } ∧
    s.raiseFault (.inputTooLong len) = { s with
      faulted := true, done := false, fcode := 3, faddr := BitVec.ofNat 32 len, fval := 0, estate := .fault } ∧
    s.raiseFault (.illegalCmd w) = { s with
      faulted := true, done := false, fcode := 4, faddr := w.setWidth 32, fval := 0 }

/-- R321, R64: each of the six reading states faults at the end of IN, at once and with `in_ptr` unchanged; with a byte left,
`in_ptr` advances by one. The encoder raises no such fault. -/
def Obligations.EndOfInputFaultsTheReader : Prop :=
  (∀ s t : State, s.dstate.busy = false → blockStep s = .next t → t.fcode = s.fcode ∧ t.faulted = s.faulted) ∧
  ∀ s : State, s.dstate ∈ [DState.hdr0, .hdr1, .ctrl, .lit, .ref0, .ref1] →
    (s.inp.length ≤ s.inPtr.toNat → blockStep s = .next { s with
      faulted := true, done := false, fcode := 1, faddr := s.inPtr, fval := 0, dstate := .fault }) ∧
    (s.inPtr.toNat < s.inp.length → ∃ t, blockStep s = .next t ∧ t.inPtr = s.inPtr + 1)

/-- R322, R198, R331: a BackRef that would replay more bytes than are owed is rejected after both its bytes were read: the window,
`cur`, `R` and OUT are as before. -/
def Obligations.CorruptStreamIsPrecise : Prop :=
  ∀ (s : State) (hi : Byte), s.dstate = .ref1 → s.input s.inPtr.toNat = some hi →
    s.rem.toNat < (hi.extractLsb' 0 4).toNat + 3 → blockStep s = .next { s with
      inPtr := s.inPtr + 1, refOff := hi.extractLsb' 4 4 ++ s.refLo, dstate := .fault
      faulted := true, done := false, fcode := 2, faddr := s.inPtr + 1, fval := (hi.extractLsb' 0 4).setWidth 16 + 3 }

/-- R332, R333: the record of a fault stands over every step of the idle block until a START, a reset, or a later ILLEGAL_CMD,
which overwrites it. -/
def Obligations.FaultRecordStandsUntilStart : Prop :=
  ∀ s t : State, s.busy = false → s.faulted = true → step s = .next t →
    (t.faulted = true ∧ t.fcode = s.fcode ∧ t.faddr = s.faddr ∧ t.fval = s.fval) ∨
    s.offer.host.head? = some .reset ∨
    ∃ w, s.offer.pending = some w ∧
      (decodeCommand w = .ok .decStart ∨ decodeCommand w = .ok .encStart ∨
        t = { s.offer with
          pending := none, faulted := true, done := false, fcode := 4, faddr := w.setWidth 32, fval := 0 })

/-! Decoder (`spec/42_decoder.md`). -/

/-- R190, R362: DEC.START, with every register it does not name unchanged, OUT among them. -/
def Obligations.DecStartBeginsADecode : Prop :=
  ∀ (s : State) (x : BitVec 16), decodeCommand (cmdWord 0x2#4 0x1#4 x) = .ok .decStart ∧
    ∃ t, exec .decStart s = .next t ∧ (∀ i, t.slot i = 0x00#8) ∧ t.cur = 0xFEE#12 ∧ t.busy = true ∧
      t = { s with
        win := t.win, cur := t.cur, mode := 0, done := false, faulted := false, fcode := 0, faddr := 0, fval := 0
        dflags := 0x0000#16, rem := 0, refLo := 0, refOff := 0, refCnt := 0, inPtr := 0, estate := .idle, dstate := .hdr0 }

/-- R191, R192, R67: the two header bytes, high byte first, or END_OF_INPUT. -/
def Obligations.DecoderReadsTheHeader : Prop :=
  ∀ s : State,
    (s.dstate = .hdr0 →
      (∀ b, s.input s.inPtr.toNat = some b → blockStep s = .next { s with
        inPtr := s.inPtr + 1, rem := b ++ s.rem.extractLsb' 0 8, dstate := .hdr1 }) ∧
      (s.input s.inPtr.toNat = none → blockStep s = .next (s.raiseFault (.endOfInput s.inPtr)))) ∧
    (s.dstate = .hdr1 →
      (∀ b, s.input s.inPtr.toNat = some b → blockStep s = .next { s with
        inPtr := s.inPtr + 1, rem := s.rem.extractLsb' 8 8 ++ b, dstate := .loop }) ∧
      (s.input s.inPtr.toNat = none → blockStep s = .next (s.raiseFault (.endOfInput s.inPtr))))

/-- R193, R195: the loop test comes before the shift; a control byte is asked for when bit 8 of the shifted register is 0; the
tag bit chooses the token. -/
def Obligations.DecoderLoopAndTagDispatch : Prop :=
  ∀ s : State,
    (s.dstate = .loop →
      (s.rem = 0 → blockStep s = .next { s with dstate := .done, done := true }) ∧
      (s.rem ≠ 0 → blockStep s = .next { s with
        dflags := s.dflags >>> 1, dstate := if (s.dflags >>> 1).getLsbD 8 = false then .ctrl else .tag })) ∧
    (s.dstate = .tag → blockStep s = .next { s with dstate := if s.dflags.getLsbD 0 = true then .lit else .ref0 })

/-- R194, R196: a control byte is loaded under the sentinel; a literal byte is appended, emitted and counted. -/
def Obligations.DecoderControlAndLiteralSteps : Prop :=
  ∀ (s : State), s.win.wf →
    (s.dstate = .ctrl →
      (∀ c, s.input s.inPtr.toNat = some c → blockStep s = .next { s with
        inPtr := s.inPtr + 1, dflags := 0xFF#8 ++ c, dstate := .tag }) ∧
      (s.input s.inPtr.toNat = none → blockStep s = .next (s.raiseFault (.endOfInput s.inPtr)))) ∧
    (s.dstate = .lit →
      (∀ b, s.input s.inPtr.toNat = some b → ∃ t, blockStep s = .next t ∧
        t.slot s.cur = b ∧ (∀ i, i ≠ s.cur → t.slot i = s.slot i) ∧
        t = { s with
          win := t.win, cur := s.cur + 1, out := s.out ++ [b], inPtr := s.inPtr + 1, rem := s.rem - 1, dstate := .loop }) ∧
      (s.input s.inPtr.toNat = none → blockStep s = .next (s.raiseFault (.endOfInput s.inPtr))))

/-- R197, R198, R94 to R96: the two BackRef bytes; the offset is latched before the check, a replay count equal to what is owed
is legal. -/
def Obligations.DecoderBackRefSteps : Prop :=
  ∀ s : State,
    (s.dstate = .ref0 →
      (∀ b, s.input s.inPtr.toNat = some b → blockStep s = .next { s with
        inPtr := s.inPtr + 1, refLo := b, dstate := .ref1 }) ∧
      (s.input s.inPtr.toNat = none → blockStep s = .next (s.raiseFault (.endOfInput s.inPtr)))) ∧
    (s.dstate = .ref1 →
      (∀ hi, s.input s.inPtr.toNat = some hi →
        ((hi.extractLsb' 0 4).toNat + 3 ≤ s.rem.toNat → blockStep s = .next { s with
          inPtr := s.inPtr + 1, refOff := hi.extractLsb' 4 4 ++ s.refLo, refCnt := (hi.extractLsb' 0 4).setWidth 5 + 3
          dstate := .copy }) ∧
        (s.rem.toNat < (hi.extractLsb' 0 4).toNat + 3 → blockStep s = .next
          ({ s with inPtr := s.inPtr + 1, refOff := hi.extractLsb' 4 4 ++ s.refLo }.raiseFault
            (.corruptStream (s.inPtr + 1) ((hi.extractLsb' 0 4).setWidth 5 + 3))))) ∧
      (s.input s.inPtr.toNat = none → blockStep s = .next (s.raiseFault (.endOfInput s.inPtr))))

/-- R199, R365, R366: one replayed byte, read before it is written, with both positions advanced modulo 4096. -/
def Obligations.CopyStepReplaysOneByte : Prop :=
  ∀ s : State, s.win.wf → s.dstate = .copy → ∃ t, blockStep s = .next t ∧
    t.slot s.cur = s.slot s.refOff ∧ (∀ i, i ≠ s.cur → t.slot i = s.slot i) ∧
    t = { s with
      win := t.win, cur := s.cur + 1, out := s.out ++ [s.slot s.refOff], refOff := s.refOff + 1, refCnt := s.refCnt - 1
      rem := s.rem - 1, dstate := if s.refCnt = 1 then .loop else .copy }

/-- R91 to R93, with R191, R192, R194 and R196: the effects of the header, of a control byte and of a Literal as whole
tokens (log 11). -/
def Obligations.HeaderControlAndLiteralTokens : Prop :=
  ∀ (s : State) (n : BitVec 16) (v b : Byte), s.win.wf →
    exec (.hdr n) s = .next { s with inPtr := s.inPtr + 2, rem := n, dstate := .loop } ∧
    exec (.ctrl v) s = .next { s with inPtr := s.inPtr + 1, dflags := 0xFF#8 ++ v, dstate := .tag } ∧
    ∃ t, exec (.lit b) s = .next t ∧ t.slot s.cur = b ∧ (∀ i, i ≠ s.cur → t.slot i = s.slot i) ∧
      t = { s with
        win := t.win, cur := s.cur + 1, out := s.out ++ [b], inPtr := s.inPtr + 1, rem := s.rem - 1, dstate := .loop }

/-- R94 to R96, R78, R198, R199: a whole BackRef replays `n + 3` bytes; byte `k` is window history while `k` is below the
distance, else byte `k - d` of the same replay; the slots from the cursor on hold them and every other slot reads as before. A
replay count over what is owed is CORRUPT_STREAM instead. The token is taken whole (log 11). -/
def Obligations.BackRefTokenReplaysHistory : Prop :=
  ∀ (s : State) (off : Slot) (n : BitVec 4), s.win.wf →
    (s.rem.toNat < n.toNat + 3 → exec (.bref off n) s = .next { s with
      inPtr := s.inPtr + 2, refLo := off.extractLsb' 0 8, refOff := off, dstate := .fault
      faulted := true, done := false, fcode := 2, faddr := s.inPtr + 2, fval := n.setWidth 16 + 3 }) ∧
    (n.toNat + 3 ≤ s.rem.toNat → ∃ t bytes, exec (.bref off n) s = .next t ∧ bytes.length = n.toNat + 3 ∧
      (∀ k < n.toNat + 3, bytes.getD k 0 =
        if k < s.distance off then s.slot (off + BitVec.ofNat 12 k) else bytes.getD (k - s.distance off) 0) ∧
      (∀ i, t.slot i = if (i - s.cur).toNat < n.toNat + 3 then bytes.getD (i - s.cur).toNat 0 else s.slot i) ∧
      t = { s with
        win := t.win, cur := s.cur + BitVec.ofNat 12 (n.toNat + 3), out := s.out ++ bytes, inPtr := s.inPtr + 2
        refLo := off.extractLsb' 0 8, refOff := off + BitVec.ofNat 12 (n.toNat + 3), refCnt := 0
        rem := s.rem - BitVec.ofNat 16 (n.toNat + 3), dstate := .loop })

/-- R200 to R204, R99: every decode ends within the bound of R204; it fails only by END_OF_INPUT or CORRUPT_STREAM; when it
succeeds it has emitted and appended exactly the `N` bytes of its header. -/
def Obligations.DecodeEndsAndDeliversN : Prop :=
  ∀ s : State, s.quiet → ∃ t k u, exec .decStart s = .next t ∧ run k t = .next u ∧
    k ≤ 2 + 1 + 4 * headerValue s.inp + (headerValue s.inp + 7) / 8 ∧ u.decodeEnded ∧ u.busy = false ∧
    (u.dstate = .fault → u.faulted = true ∧ u.done = false ∧ (u.fcode = 1#4 ∨ u.fcode = 2#4)) ∧
    (u.dstate = .done → u.done = true ∧ u.faulted = false ∧ u.rem = 0 ∧
      u.cur.toNat = (0xFEE + headerValue s.inp) % 4096 ∧ u.inPtr.toNat ≤ s.inp.length ∧
      ∃ bytes, u.out = s.out ++ bytes ∧ bytes.length = headerValue s.inp ∧
        ∀ i, u.slot i = (t.appendAll bytes).slot i)

/-! Encoder (`spec/44_encoder.md`). -/

/-- From R280 and R323: ENC.START; with IN longer than 65535 bytes it raises INPUT_TOO_LONG, and the window and every encoder
register are left as they were. That `etag` and `ecnt` are left too is the model's reading (DEDUCED, log 8). -/
def Obligations.EncStartBeginsAnEncode : Prop :=
  ∀ (s : State) (x : BitVec 16), decodeCommand (cmdWord 0x3#4 0x1#4 x) = .ok .encStart ∧
    (65535 < s.inp.length → exec .encStart s = .next { s with
      mode := 1, dstate := .idle, estate := .fault
      faulted := true, done := false, fcode := 3, faddr := BitVec.ofNat 32 s.inp.length, fval := 0 }) ∧
    (s.inp.length ≤ 65535 → ∃ t, exec .encStart s = .next t ∧ (∀ i, t.slot i = 0x00#8) ∧ t.cur = 0xFEE#12 ∧
      t.busy = true ∧ t.hdrN.toNat = s.inp.length ∧ t.erem.toNat = s.inp.length ∧
      t = { s with
        win := t.win, cur := t.cur, mode := 1, done := false, faulted := false, fcode := 0, faddr := 0, fval := 0
        dstate := .idle, hdrN := t.hdrN, epos := 0, erem := t.erem, etag := 0x00#8, ecnt := 0, toklen := 0, groups := 0
        candS := 0, candM := 0, estate := .hdr0 })

/-- R281 to R283: the header is emitted high byte first; the loop head tests the end before the full group. -/
def Obligations.EncoderHeaderAndLoop : Prop :=
  ∀ s : State, s.dstate.busy = false →
    (s.estate = .hdr0 → blockStep s = .next { s with out := s.out ++ [s.hdrN.extractLsb' 8 8], estate := .hdr1 }) ∧
    (s.estate = .hdr1 → blockStep s = .next { s with out := s.out ++ [s.hdrN.extractLsb' 0 8], estate := .loop }) ∧
    (s.estate = .loop → blockStep s = .next { s with
      estate := if s.erem = 0 then .final else if s.ecnt = 8 then .flush else .search })

/-- R284, R288: the control byte and then the buffered token bytes are emitted and both are cleared; an empty last group emits
nothing. `ecnt` and `toklen` are within the ranges R20 gives them. -/
def Obligations.EncoderFlushAndFinal : Prop :=
  ∀ s : State, s.dstate.busy = false → s.ecnt.toNat ≤ 8 → s.toklen.toNat ≤ 16 →
    (s.estate = .flush → blockStep s = .next { s with
      etag := 0x00#8, ecnt := 0, toklen := 0, groups := s.groups + 1, estate := .search
      out := s.out ++ (s.etag >>> (8 - s.ecnt.toNat) :: s.tokbuf.toList.take s.toklen.toNat) }) ∧
    (s.estate = .final → s.ecnt = 0 → blockStep s = .next { s with estate := .done, done := true }) ∧
    (s.estate = .final → s.ecnt ≠ 0 → blockStep s = .next { s with
      etag := 0x00#8, ecnt := 0, toklen := 0, groups := s.groups + 1, estate := .done, done := true
      out := s.out ++ (s.etag >>> (8 - s.ecnt.toNat) :: s.tokbuf.toList.take s.toklen.toNat) })

/-- R285, R247, R291: no search before the first group was flushed; then the selected candidate is latched, or a literal follows. -/
def Obligations.EncoderSearchLatchesTheSelected : Prop :=
  ∀ s : State, s.dstate.busy = false → s.estate = .search →
    (s.groups = 0 ∨ s.inp.length ≤ s.epos.toNat ∨ s.cands s.epos.toNat = [] →
      blockStep s = .next { s with estate := .lit }) ∧
    (s.groups ≠ 0 → s.epos.toNat < s.inp.length → s.cands s.epos.toNat ≠ [] →
      ∃ c ∈ s.cands s.epos.toNat, select s.params.select (s.cands s.epos.toNat) = some c ∧
        blockStep s = .next { s with candS := c.s, candM := BitVec.ofNat 5 c.m, estate := .ref })

/-- R286: a Literal token is tagged, buffered and appended, and the position moves on by one. There is an input byte left and
room in the buffer (R283, R32). -/
def Obligations.EncoderBuffersALiteral : Prop :=
  ∀ (s : State) (b : Byte), s.win.wf → s.dstate.busy = false → s.estate = .lit → s.input s.epos.toNat = some b →
    s.toklen.toNat < 16 → ∃ t, blockStep s = .next t ∧
      t.slot s.cur = b ∧ (∀ i, i ≠ s.cur → t.slot i = s.slot i) ∧
      t.tokbuf.toList.take (s.toklen.toNat + 1) = s.tokbuf.toList.take s.toklen.toNat ++ [b] ∧
      t = { s with
        win := t.win, tokbuf := t.tokbuf, cur := s.cur + 1, toklen := s.toklen + 1
        etag := 1#1 ++ s.etag.extractLsb' 1 7, ecnt := s.ecnt + 1, epos := s.epos + 1, erem := s.erem - 1, estate := .loop }

/-- R287, R94: a BackRef token is tagged and buffered, the matched input bytes are appended, and the position moves over them.
The matched bytes exist and there is room in the buffer (R252, R32). -/
def Obligations.EncoderBuffersABackRef : Prop :=
  ∀ s : State, s.win.wf → s.dstate.busy = false → s.estate = .ref → s.epos.toNat + s.candM.toNat ≤ s.inp.length →
    s.toklen.toNat + 2 ≤ 16 → ∃ t, blockStep s = .next t ∧
      (∀ i, t.slot i = if (i - s.cur).toNat < s.candM.toNat
        then s.inp.getD (s.epos.toNat + (i - s.cur).toNat) 0 else s.slot i) ∧
      t.tokbuf.toList.take (s.toklen.toNat + 2) = s.tokbuf.toList.take s.toklen.toNat ++
        [s.candS.extractLsb' 0 8, s.candS.extractLsb' 8 4 ++ (s.candM - 3).extractLsb' 0 4] ∧
      t = { s with
        win := t.win, tokbuf := t.tokbuf, cur := s.cur + s.candM.setWidth 12, toklen := s.toklen + 2
        etag := 0#1 ++ s.etag.extractLsb' 1 7, ecnt := s.ecnt + 1, epos := s.epos + s.candM.setWidth 32
        erem := s.erem - s.candM.setWidth 16, estate := .loop }

/-- R295, R289: every encode of at most 65535 bytes ends in E_DONE within the bound of R295, with all of IN encoded. -/
def Obligations.EncodeEndsInDone : Prop :=
  ∀ s : State, s.quiet → s.params.legal = true → s.inp.length ≤ 65535 →
    ∃ t k u, exec .encStart s = .next t ∧ run k t = .next u ∧ k ≤ 3 + 4 * s.inp.length + 2 ∧
      u.estate = .done ∧ u.done = true ∧ u.faulted = false ∧ u.busy = false ∧
      u.epos.toNat = s.inp.length ∧ u.erem = 0 ∧ u.cur.toNat = (0xFEE + s.inp.length) % 4096 ∧
      ∀ i, u.slot i = (t.appendAll s.inp).slot i

/-- R292, R293, R291, R98, R107: the output is a stream in grouped form, of the header `N` and tokens that stand for `N` bytes;
the tokens of the first group are the literals of the first input bytes, and an input of at most 8 bytes has no others. -/
def Obligations.EncoderOutputIsAGroupedStream : Prop :=
  ∀ s : State, s.quiet → s.params.legal = true → s.inp.length ≤ 65535 →
    ∃ t k u items, exec .encStart s = .next t ∧ run k t = .next u ∧ u.estate = .done ∧
      (∀ x ∈ items, x.tag.isSome = true ∧ x.valid = true) ∧ (items.map ListItem.produces).sum = s.inp.length ∧
      items.take 8 = (s.inp.take 8).map .lit ∧ (s.inp.length ≤ 8 → items = s.inp.map .lit) ∧
      u.out = s.out ++ assemble (.hdr (BitVec.ofNat 16 s.inp.length) :: items)

/-- R256, R205: for any policy and any input of at most 65535 bytes, decoding the encoder's output yields the input and consumes
the output exactly. -/
def Obligations.DecodingAnEncodeYieldsTheInput : Prop :=
  ∀ s : State, s.quiet → s.params.legal = true → s.inp.length ≤ 65535 →
    ∃ t k u code, exec .encStart s = .next t ∧ run k t = .next u ∧ u.estate = .done ∧ u.out = s.out ++ code ∧
      ∃ t' k' v, exec .decStart { u with inp := code } = .next t' ∧ run k' t' = .next v ∧ v.dstate = .done ∧
        v.out = u.out ++ s.inp ∧ v.inPtr.toNat = code.length

/-! Invariants of the whole machine. -/

/-- The state after reset is legal and idle (R47, R361). The bytes the model names for `tokbuf` (log 5) play no part in it. -/
def Obligations.ResetStateIsLegal : Prop :=
  State.reset.Legal ∧ State.reset.busy = false ∧ State.reset.win.wf

/-- R20, R25, R26, R31, R32, R37, R40, R45, R62: every step keeps a legal state legal. -/
def Obligations.EveryStepKeepsLegal : Prop :=
  ∀ s t : State, s.Legal → step s = .next t → t.Legal

/-- R325, R329, R331: a legal state never stops, but for the host that changes IN while BUSY = 1 (R369; DEDUCED, log 6). -/
def Obligations.LegalStatesNeverFault : Prop :=
  ∀ s : State, s.Legal → (∃ t, step s = .next t) ∨
    step s = .refused .inputChangedWhileBusy ∧ s.busy = true ∧ ∃ bytes, s.host.head? = some (.present bytes)

/-- R63, R22, R137, R257: a step fills the whole window and sets the cursor to 0xFEE, or appends some bytes at the cursor, or
leaves both; and it keeps the canonical form. -/
def Obligations.WindowIsWrittenByAppendsOnly : Prop :=
  ∀ s t : State, s.win.wf → step s = .next t → t.win.wf ∧
    ((∀ i, t.slot i = 0x00#8) ∧ t.cur = 0xFEE#12 ∨
      ∃ bytes : List Byte, bytes.length ≤ 31 ∧ (∀ i, t.slot i = (s.appendAll bytes).slot i) ∧
        t.cur = s.cur + BitVec.ofNat 12 bytes.length)

/-- R66, R79, R334, R7: a step never takes back an emitted byte, never writes IN but when the host presents one to an idle block,
and never changes a parameter. -/
def Obligations.OutputGrowsAndInputStays : Prop :=
  ∀ s t : State, step s = .next t → s.out <+: t.out ∧ t.params = s.params ∧
    (t.inp = s.inp ∨ s.busy = false ∧ s.offer.host.head? = some (.present t.inp))
end

