-- ==== Sys2Proof/Laws/Codec.lean ====
section
/-! SUPPORT. The two shift registers of the control frame codec: the sentinel (R45, R164) and the tags (R167 to R169). -/

namespace Sys2Proof.Machine

/-- A shift keeps the sentinel's shape: ones at the low end of the high byte (R45). -/
theorem sentinelShape_shift {flags : BitVec 16} (h : sentinelShape flags) : sentinelShape (flags >>> 1) := by
  have key : ∀ x : BitVec 8, x &&& (x + 1) = 0 → (x >>> 1) &&& ((x >>> 1) + 1) = 0 := by decide +kernel
  have he : (flags >>> 1).extractLsb' 8 8 = (flags.extractLsb' 8 8) >>> 1 := by
    ext i hi
    simp only [BitVec.getElem_extractLsb', BitVec.getLsbD_ushiftRight, BitVec.getElem_ushiftRight,
      BitVec.getLsbD_extractLsb']
    by_cases h7 : i = 7
    · subst h7
      rw [BitVec.getLsbD_of_ge _ _ (by omega)]
      simp
    · rw [show 1 + (8 + i) = 8 + (1 + i) by omega, decide_eq_true (by omega : 1 + i < 8), Bool.true_and]
  unfold sentinelShape at h ⊢
  rw [he]
  exact key _ h

/-- A load gives the whole sentinel (R162). -/
theorem sentinelShape_load (c : Byte) : sentinelShape (Config.sentinel ||| c.setWidth 16) := by
  revert c
  unfold sentinelShape
  decide +kernel

/-- After a load a control byte is active (R162, R164). -/
theorem load_active (c : Byte) : (Config.sentinel ||| c.setWidth 16).getLsbD 8 = true := by
  revert c
  decide +kernel

/-- Where the sentinel has its shape, bit 8 is 0 exactly when the whole high byte is (R164). -/
theorem sentinel_bit8 {flags : BitVec 16} (h : sentinelShape flags) :
    flags.getLsbD 8 = false ↔ flags.extractLsb' 8 8 = 0 := by
  have key : ∀ x : BitVec 8, x &&& (x + 1) = 0 → (x.getLsbD 0 = false ↔ x = 0) := by decide +kernel
  have he : (flags.extractLsb' 8 8).getLsbD 0 = flags.getLsbD 8 := by simp
  rw [← he]
  exact key _ h

/-- A push keeps the unused low bits of `etag` 0 (R167). -/
theorem etag_push (e : BitVec 8) (n : BitVec 4) (t : BitVec 1) (hn : n.toNat < 8) (h : e <<< n.toNat = 0) :
    (t ++ e.extractLsb' 1 7 : BitVec 8) <<< (n + 1).toNat = 0 := by
  revert e n t
  decide +kernel

/-- A push adds the tag behind the tags held: the control byte gains it at bit `n` (R167, R168). -/
theorem controlByte_push (e : BitVec 8) (n : BitVec 4) (t : BitVec 1) (hn : n.toNat < 8) (h : e <<< n.toNat = 0) :
    (t ++ e.extractLsb' 1 7 : BitVec 8) >>> (8 - (n + 1).toNat) = (e >>> (8 - n.toNat)) ||| (t.setWidth 8 <<< n.toNat) := by
  revert e n t
  decide +kernel

end Sys2Proof.Machine
end

