-- ==== Sys2Proof/Laws/Decode.lean ====
section
/-! SUPPORT. The fields of a command word, the decoding of each row of the opcode map with any ignored bits, and the bytes of
the tokens. -/

namespace Sys2Proof

/-! The fields of a word `{code, opnd}` (R101). -/

theorem cmdUnit_append (code : BitVec 8) (opnd : BitVec 16) : cmdUnit (code ++ opnd) = code.extractLsb' 4 4 := by
  unfold cmdUnit
  ext i hi
  rw [BitVec.getElem_extractLsb', BitVec.getElem_extractLsb', BitVec.getLsbD_append, if_neg (by omega)]
  congr 1
  omega

theorem cmdOp_append (code : BitVec 8) (opnd : BitVec 16) : cmdOp (code ++ opnd) = code.extractLsb' 0 4 := by
  unfold cmdOp
  ext i hi
  rw [BitVec.getElem_extractLsb', BitVec.getElem_extractLsb', BitVec.getLsbD_append, if_neg (by omega)]
  congr 1
  omega

theorem cmdOpnd_append (code : BitVec 8) (opnd : BitVec 16) : cmdOpnd (code ++ opnd) = opnd := by
  unfold cmdOpnd
  ext i hi
  rw [BitVec.getElem_extractLsb', BitVec.getLsbD_append, if_pos (by omega), BitVec.getLsbD_eq_getElem (by omega)]
  congr 1
  omega

/-- The decoding of a word by its code byte and its operand (R110). -/
theorem decodeCommand_append (code : BitVec 8) (opnd : BitVec 16) :
    decodeCommand (code ++ opnd) = decodeFields (code.extractLsb' 4 4) (code.extractLsb' 0 4) opnd := by
  rw [decodeCommand, cmdUnit_append, cmdOp_append, cmdOpnd_append]

/-- The low part of a concatenation. -/
theorem extract_low {m k : Nat} (x : BitVec m) (v : BitVec k) : (x ++ v).extractLsb' 0 k = v := by
  ext i hi
  rw [BitVec.getElem_extractLsb', BitVec.getLsbD_append, if_pos (by omega), BitVec.getLsbD_eq_getElem (by omega)]
  congr 1
  omega

/-- The high part of a concatenation. -/
theorem extract_high {m k : Nat} (x : BitVec m) (v : BitVec k) : (x ++ v).extractLsb' k m = x := by
  ext i hi
  rw [BitVec.getElem_extractLsb', BitVec.getLsbD_append, if_neg (by omega), BitVec.getLsbD_eq_getElem (by omega)]
  congr 1
  omega

/-- A value is the concatenation of its high and its low part. -/
theorem append_extract {m k : Nat} (v : BitVec (m + k)) : v.extractLsb' k m ++ v.extractLsb' 0 k = v := by
  ext i hi
  rw [BitVec.getElem_append]
  split
  · rw [BitVec.getElem_extractLsb', ← BitVec.getLsbD_eq_getElem]
    congr 1
    omega
  · rw [BitVec.getElem_extractLsb', ← BitVec.getLsbD_eq_getElem]
    congr 1
    omega

/-! One row of the opcode map each (R103), whatever the ignored bits `x` hold (R105). -/

section

variable (x16 : BitVec 16) (x8 b : BitVec 8) (x4 : BitVec 4) (slot : Slot)

theorem decode_nop : decodeCommand (0x00#8 ++ x16) = .ok .nop := by rw [decodeCommand_append]; rfl
theorem decode_swbInit : decodeCommand (0x01#8 ++ x16) = .ok .swbInit := by rw [decodeCommand_append]; rfl
theorem decode_swbAppend : decodeCommand (0x02#8 ++ (x8 ++ b)) = .ok (.swbAppend b) := by
  rw [decodeCommand_append]; exact congrArg (fun v => Except.ok (Instr.swbAppend v)) (extract_low x8 b)
theorem decode_swbGet : decodeCommand (0x03#8 ++ (x4 ++ slot)) = .ok (.swbGet slot) := by
  rw [decodeCommand_append]; exact congrArg (fun v => Except.ok (Instr.swbGet v)) (extract_low x4 slot)
theorem decode_swbCursor : decodeCommand (0x04#8 ++ x16) = .ok .swbCursor := by rw [decodeCommand_append]; rfl
theorem decode_swbReplay : decodeCommand (0x05#8 ++ (x4 ++ slot)) = .ok (.swbReplay slot) := by
  rw [decodeCommand_append]; exact congrArg (fun v => Except.ok (Instr.swbReplay v)) (extract_low x4 slot)
theorem decode_cfcDClear : decodeCommand (0x11#8 ++ x16) = .ok .cfcDClear := by rw [decodeCommand_append]; rfl
theorem decode_cfcDShift : decodeCommand (0x12#8 ++ x16) = .ok .cfcDShift := by rw [decodeCommand_append]; rfl
theorem decode_cfcDLoad : decodeCommand (0x13#8 ++ (x8 ++ b)) = .ok (.cfcDLoad b) := by
  rw [decodeCommand_append]; exact congrArg (fun v => Except.ok (Instr.cfcDLoad v)) (extract_low x8 b)
theorem decode_cfcDTag : decodeCommand (0x14#8 ++ x16) = .ok .cfcDTag := by rw [decodeCommand_append]; rfl
theorem decode_cfcEClear : decodeCommand (0x15#8 ++ x16) = .ok .cfcEClear := by rw [decodeCommand_append]; rfl
theorem decode_cfcEPush (x : BitVec 15) (t : BitVec 1) :
    decodeCommand (0x16#8 ++ (x ++ t)) = .ok (.cfcEPush t x) := by
  rw [decodeCommand_append]
  exact congrArg₂ (fun v w => Except.ok (Instr.cfcEPush v w)) (extract_low x t) (extract_high x t)
theorem decode_cfcEFlush : decodeCommand (0x17#8 ++ x16) = .ok .cfcEFlush := by rw [decodeCommand_append]; rfl
theorem decode_decStart : decodeCommand (0x21#8 ++ x16) = .ok .decStart := by rw [decodeCommand_append]; rfl
theorem decode_encStart : decodeCommand (0x31#8 ++ x16) = .ok .encStart := by rw [decodeCommand_append]; rfl
theorem decode_mfCount : decodeCommand (0x41#8 ++ (x8 ++ b)) = .ok (.mfCount b) := by
  rw [decodeCommand_append]; exact congrArg (fun v => Except.ok (Instr.mfCount v)) (extract_low x8 b)
theorem decode_mfProbe : decodeCommand (0x42#8 ++ (x4 ++ slot)) = .ok (.mfProbe slot) := by
  rw [decodeCommand_append]; exact congrArg (fun v => Except.ok (Instr.mfProbe v)) (extract_low x4 slot)
theorem decode_mfFind : decodeCommand (0x43#8 ++ x16) = .ok .mfFind := by rw [decodeCommand_append]; rfl
theorem decode_mfSetpos : decodeCommand (0x44#8 ++ x16) = .ok (.mfSetpos x16) := by rw [decodeCommand_append]; rfl
theorem decode_csrRead (x : BitVec 12) (n : BitVec 4) :
    decodeCommand (0x51#8 ++ (x ++ n)) = .ok (.csrRead n x) := by
  rw [decodeCommand_append]
  exact congrArg₂ (fun v w => Except.ok (Instr.csrRead v w)) (extract_low x n) (extract_high x n)

end

/-! A word written from its three fields. -/

theorem cmdUnit_cmdWord (u op : BitVec 4) (opnd : BitVec 16) : cmdUnit (cmdWord u op opnd) = u := by
  rw [cmdWord, cmdUnit_append, extract_high]

theorem cmdOp_cmdWord (u op : BitVec 4) (opnd : BitVec 16) : cmdOp (cmdWord u op opnd) = op := by
  rw [cmdWord, cmdOp_append, extract_low]

theorem cmdOpnd_cmdWord (u op : BitVec 4) (opnd : BitVec 16) : cmdOpnd (cmdWord u op opnd) = opnd := by
  rw [cmdWord, cmdOpnd_append]

theorem decodeCommand_cmdWord (u op : BitVec 4) (opnd : BitVec 16) :
    decodeCommand (cmdWord u op opnd) = decodeFields u op opnd := by
  rw [decodeCommand, cmdUnit_cmdWord, cmdOp_cmdWord, cmdOpnd_cmdWord]

/-- A word is its three fields (R101). -/
theorem cmdWord_fields (w : CmdWord) : cmdWord (cmdUnit w) (cmdOp w) (cmdOpnd w) = w := by
  have hu : (w.extractLsb' 16 8).extractLsb' 4 4 = cmdUnit w := by
    ext i hi
    simp only [cmdUnit, BitVec.getElem_extractLsb', BitVec.getLsbD_extractLsb']
    rw [decide_eq_true (by omega : 4 + i < 8), Bool.true_and, ← Nat.add_assoc]
  have ho : (w.extractLsb' 16 8).extractLsb' 0 4 = cmdOp w := by
    ext i hi
    simp only [cmdOp, BitVec.getElem_extractLsb', BitVec.getLsbD_extractLsb', Nat.zero_add]
    rw [decide_eq_true (by omega : i < 8), Bool.true_and]
  rw [cmdWord, ← hu, ← ho, append_extract (m := 4) (k := 4)]
  exact append_extract (m := 8) (k := 16) w

/-- The operand field of an encoded command gives the operand back. -/
theorem opndOf_extract {k : Nat} (h : k ≤ 16) (v : BitVec k) : (opndOf v).extractLsb' 0 k = v := by
  ext i hi
  rw [BitVec.getElem_extractLsb', opndOf, BitVec.getLsbD_setWidth, Nat.zero_add, BitVec.getLsbD_eq_getElem hi]
  simp [show i < 16 by omega]

/-- A command word never reads as a stream token. -/
theorem decodeCommand_ne_token {w : CmdWord} {i : Instr} (h : decodeCommand w = .ok i) :
    (∀ n, i ≠ .hdr n) ∧ (∀ v, i ≠ .ctrl v) ∧ (∀ b, i ≠ .lit b) ∧ ∀ off n, i ≠ .bref off n := by
  unfold decodeCommand decodeFields at h
  split at h <;> first | (cases h; simp) | (split at h <;> cases h)

/-- The two header bytes give the header value back (R91). -/
theorem header_bytes (n : BitVec 16) : n.extractLsb' 8 8 ++ n.extractLsb' 0 8 = n := append_extract (m := 8) (k := 8) n

/-! The bytes of a BackRef (R94 to R96). -/

theorem brefOffset_bytes (off : Slot) (n : BitVec 4) : brefOffset (brefByte0 off) (brefByte1 off n) = off := by
  unfold brefOffset brefByte1
  rw [extract_high]
  exact append_extract (m := 4) (k := 8) off

theorem brefNibble_byte1 (off : Slot) (n : BitVec 4) : brefNibble (brefByte1 off n) = n := extract_low _ _

theorem brefByte0_offset (b0 b1 : Byte) : brefByte0 (brefOffset b0 b1) = b0 := extract_low _ _

theorem brefByte1_offset (b0 b1 : Byte) : brefByte1 (brefOffset b0 b1) (brefNibble b1) = b1 := by
  unfold brefByte1 brefOffset
  rw [extract_high]
  exact append_extract (m := 4) (k := 4) b1

end Sys2Proof
end

