-- ==== Sys2Proof/Laws/Memory.lean ====
section
/-! SUPPORT. The laws of the window as a memory: a read after a write, the canonical form, and that canonical memories with
the same bytes are the same data. -/

namespace Sys2Proof.Machine

@[simp] theorem Memory.read_nil (a : Nat) : Memory.read [] a = Config.winFill := rfl

/-- An address below every listed one reads as the fill byte. -/
theorem Memory.read_of_lt (m : Memory) (a : Nat) (h : ∀ c ∈ m, a < c.1) : m.read a = Config.winFill := by
  induction m with
  | nil => rfl
  | cons c rest ih =>
    obtain ⟨k, v⟩ := c
    have hk : a < k := h (k, v) (by simp)
    have hrest := ih fun c hc => h c (by simp [hc])
    simp [Memory.read, Nat.ne_of_gt hk, hrest]

theorem Memory.wf_nil : Memory.wf [] := by simp [Memory.wf]

theorem Memory.wf_of_cons {c : Host.Cell} {rest : Memory} (h : Memory.wf (c :: rest)) : Memory.wf rest :=
  ⟨(List.pairwise_cons.1 h.1).2, fun x hx => h.2 x (List.mem_cons_of_mem _ hx)⟩

/-- Where a write can list an address. -/
theorem Memory.mem_write {m : Memory} {a : Nat} {v : Byte} {c : Host.Cell} (h : c ∈ Memory.write m a v) :
    c ∈ m ∨ c = (a, v) ∧ v ≠ Config.winFill := by
  induction m with
  | nil =>
    simp only [Memory.write] at h
    split at h
    · simp at h
    · exact .inr ⟨by simpa using h, ‹_›⟩
  | cons d rest ih =>
    obtain ⟨k, b⟩ := d
    simp only [Memory.write] at h
    split at h
    · split at h
      · exact .inl h
      · rcases List.mem_cons.1 h with rfl | h
        · exact .inr ⟨rfl, ‹_›⟩
        · exact .inl h
    · split at h
      · rename_i hk
        subst hk
        split at h
        · exact .inl (List.mem_cons_of_mem _ h)
        · rcases List.mem_cons.1 h with rfl | h
          · exact .inr ⟨rfl, ‹_›⟩
          · exact .inl (List.mem_cons_of_mem _ h)
      · rcases List.mem_cons.1 h with rfl | h
        · exact .inl (by simp)
        · rcases ih h with h | h
          · exact .inl (List.mem_cons_of_mem _ h)
          · exact .inr h

/-- A read after a write, on a canonical memory: the written byte at its address, every other address as before. -/
theorem Memory.read_write {m : Memory} (hm : m.wf) (a b : Nat) (v : Byte) :
    (Memory.write m a v).read b = if b = a then v else m.read b := by
  induction m with
  | nil =>
    simp only [Memory.write]
    by_cases hv : v = Config.winFill <;> by_cases hb : b = a
    · simp [hv]
    · simp [hv]
    · simp [Memory.read, hb, hv]
    · simp [Memory.read, hb, hv, Ne.symm hb]
  | cons c rest ih =>
    obtain ⟨k, w⟩ := c
    have hlt : ∀ c ∈ rest, k < c.1 := (List.pairwise_cons.1 hm.1).1
    have hrest := ih (Memory.wf_of_cons hm)
    simp only [Memory.write]
    by_cases h1 : a < k
    · rw [if_pos h1]
      by_cases hv : v = Config.winFill
      · rw [if_pos hv]
        by_cases hb : b = a
        · subst hb
          rw [if_pos rfl, hv]
          exact Memory.read_of_lt _ _ fun c hc => by
            rcases List.mem_cons.1 hc with rfl | hc
            · exact h1
            · exact Nat.lt_trans h1 (hlt c hc)
        · rw [if_neg hb]
      · rw [if_neg hv]
        by_cases hb : b = a
        · subst hb; simp [Memory.read]
        · simp [Memory.read, hb, Ne.symm hb]
    · rw [if_neg h1]
      by_cases h2 : a = k
      · subst h2
        rw [if_pos rfl]
        by_cases hv : v = Config.winFill
        · rw [if_pos hv]
          by_cases hb : b = a
          · subst hb
            rw [if_pos rfl, hv]
            exact Memory.read_of_lt _ _ hlt
          · simp [Memory.read, hb, Ne.symm hb]
        · rw [if_neg hv]
          by_cases hb : b = a
          · subst hb; simp [Memory.read]
          · simp [Memory.read, hb, Ne.symm hb]
      · rw [if_neg h2]
        by_cases hb : k = b
        · subst hb
          simp [Memory.read, Ne.symm h2]
        · simp [Memory.read, hb, hrest]

/-- A write below 4096 keeps the canonical form. -/
theorem Memory.wf_write {m : Memory} (hm : m.wf) {a : Nat} (ha : a < Config.winSize) (v : Byte) :
    (Memory.write m a v).wf := by
  refine ⟨?_, fun c hc => ?_⟩
  · induction m with
    | nil =>
      simp only [Memory.write]
      split <;> simp
    | cons c rest ih =>
      obtain ⟨k, b⟩ := c
      have hlt : ∀ c ∈ rest, k < c.1 := (List.pairwise_cons.1 hm.1).1
      have hp : rest.Pairwise (fun a b => a.1 < b.1) := (List.pairwise_cons.1 hm.1).2
      simp only [Memory.write]
      split
      · rename_i h1
        split
        · exact hm.1
        · exact List.pairwise_cons.2 ⟨fun c hc => by
            rcases List.mem_cons.1 hc with rfl | hc
            · exact h1
            · exact Nat.lt_trans h1 (hlt c hc), hm.1⟩
      · rename_i h1
        split
        · split
          · exact hp
          · exact List.pairwise_cons.2 ⟨hlt, hp⟩
        · rename_i h2
          refine List.pairwise_cons.2 ⟨fun c hc => ?_, ih (Memory.wf_of_cons hm)⟩
          rcases Memory.mem_write hc with hc | ⟨rfl, -⟩
          · exact hlt c hc
          · show k < a
            omega
  · rcases Memory.mem_write hc with hc | ⟨rfl, hv⟩
    · exact hm.2 c hc
    · exact ⟨ha, hv⟩

/-- Canonical memories that read the same at every address are equal. -/
theorem Memory.ext_of_read {m n : Memory} (hm : m.wf) (hn : n.wf) (h : ∀ a, m.read a = n.read a) : m = n := by
  induction m generalizing n with
  | nil =>
    cases n with
    | nil => rfl
    | cons c rest =>
      obtain ⟨k, v⟩ := c
      have := h k
      simp [Memory.read] at this
      exact absurd this.symm (hn.2 (k, v) (by simp)).2
  | cons c rest ih =>
    obtain ⟨k, v⟩ := c
    have hk := (hm.2 (k, v) (by simp)).2
    cases n with
    | nil =>
      have := h k
      simp [Memory.read] at this
      exact absurd this hk
    | cons d rest' =>
      obtain ⟨k', v'⟩ := d
      have hk' := (hn.2 (k', v') (by simp)).2
      have hlt : ∀ c ∈ rest, k < c.1 := (List.pairwise_cons.1 hm.1).1
      have hlt' : ∀ c ∈ rest', k' < c.1 := (List.pairwise_cons.1 hn.1).1
      have hkk : k = k' := by
        rcases Nat.lt_trichotomy k k' with hc | hc | hc
        · have := h k
          rw [Memory.read_of_lt ((k', v') :: rest') k (fun c hc' => by
            rcases List.mem_cons.1 hc' with rfl | hc'
            · exact hc
            · exact Nat.lt_trans hc (hlt' c hc'))] at this
          simp [Memory.read] at this
          exact absurd this hk
        · exact hc
        · have := h k'
          rw [Memory.read_of_lt ((k, v) :: rest) k' (fun c hc' => by
            rcases List.mem_cons.1 hc' with rfl | hc'
            · exact hc
            · exact Nat.lt_trans hc (hlt c hc'))] at this
          simp [Memory.read] at this
          exact absurd this.symm hk'
      subst hkk
      have hv : v = v' := by simpa [Memory.read] using h k
      subst hv
      rw [ih (Memory.wf_of_cons hm) (Memory.wf_of_cons hn) fun a => ?_]
      by_cases ha : k = a
      · subst ha
        rw [Memory.read_of_lt _ _ hlt, Memory.read_of_lt _ _ hlt']
      · simpa [Memory.read, ha] using h a

end Sys2Proof.Machine
end

