-- ==== Sys2Proof/Laws/State.lean ====
section
/-! SUPPORT. What each named update does to each field of the state, one lemma a field, true by definition. -/

namespace Sys2Proof.Machine

/-! The fields after an append (R63). -/

section

variable (v : Byte) (s : State)

@[simp] theorem State.append_win : (s.append v).win = s.win.write s.cur.toNat v := rfl
@[simp] theorem State.append_cur : (s.append v).cur = s.cur + 1 := rfl
@[simp] theorem State.append_dflags : (s.append v).dflags = s.dflags := rfl
@[simp] theorem State.append_etag : (s.append v).etag = s.etag := rfl
@[simp] theorem State.append_ecnt : (s.append v).ecnt = s.ecnt := rfl
@[simp] theorem State.append_rem : (s.append v).rem = s.rem := rfl
@[simp] theorem State.append_refLo : (s.append v).refLo = s.refLo := rfl
@[simp] theorem State.append_refOff : (s.append v).refOff = s.refOff := rfl
@[simp] theorem State.append_refCnt : (s.append v).refCnt = s.refCnt := rfl
@[simp] theorem State.append_inPtr : (s.append v).inPtr = s.inPtr := rfl
@[simp] theorem State.append_dstate : (s.append v).dstate = s.dstate := rfl
@[simp] theorem State.append_hdrN : (s.append v).hdrN = s.hdrN := rfl
@[simp] theorem State.append_epos : (s.append v).epos = s.epos := rfl
@[simp] theorem State.append_erem : (s.append v).erem = s.erem := rfl
@[simp] theorem State.append_tokbuf : (s.append v).tokbuf = s.tokbuf := rfl
@[simp] theorem State.append_toklen : (s.append v).toklen = s.toklen := rfl
@[simp] theorem State.append_groups : (s.append v).groups = s.groups := rfl
@[simp] theorem State.append_candS : (s.append v).candS = s.candS := rfl
@[simp] theorem State.append_candM : (s.append v).candM = s.candM := rfl
@[simp] theorem State.append_estate : (s.append v).estate = s.estate := rfl
@[simp] theorem State.append_mode : (s.append v).mode = s.mode := rfl
@[simp] theorem State.append_res : (s.append v).res = s.res := rfl
@[simp] theorem State.append_done : (s.append v).done = s.done := rfl
@[simp] theorem State.append_faulted : (s.append v).faulted = s.faulted := rfl
@[simp] theorem State.append_fcode : (s.append v).fcode = s.fcode := rfl
@[simp] theorem State.append_faddr : (s.append v).faddr = s.faddr := rfl
@[simp] theorem State.append_fval : (s.append v).fval = s.fval := rfl
@[simp] theorem State.append_pending : (s.append v).pending = s.pending := rfl
@[simp] theorem State.append_inp : (s.append v).inp = s.inp := rfl
@[simp] theorem State.append_out : (s.append v).out = s.out := rfl
@[simp] theorem State.append_host : (s.append v).host = s.host := rfl
@[simp] theorem State.append_draws : (s.append v).draws = s.draws := rfl
@[simp] theorem State.append_params : (s.append v).params = s.params := rfl

end

/-! The fields after the initial fill (R131). -/

section

variable (s : State)

@[simp] theorem State.initWindow_win : s.initWindow.win = [] := rfl
@[simp] theorem State.initWindow_cur : s.initWindow.cur = Config.initCursor := rfl
@[simp] theorem State.initWindow_dflags : s.initWindow.dflags = s.dflags := rfl
@[simp] theorem State.initWindow_etag : s.initWindow.etag = s.etag := rfl
@[simp] theorem State.initWindow_ecnt : s.initWindow.ecnt = s.ecnt := rfl
@[simp] theorem State.initWindow_rem : s.initWindow.rem = s.rem := rfl
@[simp] theorem State.initWindow_refLo : s.initWindow.refLo = s.refLo := rfl
@[simp] theorem State.initWindow_refOff : s.initWindow.refOff = s.refOff := rfl
@[simp] theorem State.initWindow_refCnt : s.initWindow.refCnt = s.refCnt := rfl
@[simp] theorem State.initWindow_inPtr : s.initWindow.inPtr = s.inPtr := rfl
@[simp] theorem State.initWindow_dstate : s.initWindow.dstate = s.dstate := rfl
@[simp] theorem State.initWindow_hdrN : s.initWindow.hdrN = s.hdrN := rfl
@[simp] theorem State.initWindow_epos : s.initWindow.epos = s.epos := rfl
@[simp] theorem State.initWindow_erem : s.initWindow.erem = s.erem := rfl
@[simp] theorem State.initWindow_tokbuf : s.initWindow.tokbuf = s.tokbuf := rfl
@[simp] theorem State.initWindow_toklen : s.initWindow.toklen = s.toklen := rfl
@[simp] theorem State.initWindow_groups : s.initWindow.groups = s.groups := rfl
@[simp] theorem State.initWindow_candS : s.initWindow.candS = s.candS := rfl
@[simp] theorem State.initWindow_candM : s.initWindow.candM = s.candM := rfl
@[simp] theorem State.initWindow_estate : s.initWindow.estate = s.estate := rfl
@[simp] theorem State.initWindow_mode : s.initWindow.mode = s.mode := rfl
@[simp] theorem State.initWindow_res : s.initWindow.res = s.res := rfl
@[simp] theorem State.initWindow_done : s.initWindow.done = s.done := rfl
@[simp] theorem State.initWindow_faulted : s.initWindow.faulted = s.faulted := rfl
@[simp] theorem State.initWindow_fcode : s.initWindow.fcode = s.fcode := rfl
@[simp] theorem State.initWindow_faddr : s.initWindow.faddr = s.faddr := rfl
@[simp] theorem State.initWindow_fval : s.initWindow.fval = s.fval := rfl
@[simp] theorem State.initWindow_pending : s.initWindow.pending = s.pending := rfl
@[simp] theorem State.initWindow_inp : s.initWindow.inp = s.inp := rfl
@[simp] theorem State.initWindow_out : s.initWindow.out = s.out := rfl
@[simp] theorem State.initWindow_host : s.initWindow.host = s.host := rfl
@[simp] theorem State.initWindow_draws : s.initWindow.draws = s.draws := rfl
@[simp] theorem State.initWindow_params : s.initWindow.params = s.params := rfl

end

/-! The fields after an emission (R66). -/

section

variable (b : Byte) (s : State)

@[simp] theorem State.emit_win : (s.emit b).win = s.win := rfl
@[simp] theorem State.emit_cur : (s.emit b).cur = s.cur := rfl
@[simp] theorem State.emit_dflags : (s.emit b).dflags = s.dflags := rfl
@[simp] theorem State.emit_etag : (s.emit b).etag = s.etag := rfl
@[simp] theorem State.emit_ecnt : (s.emit b).ecnt = s.ecnt := rfl
@[simp] theorem State.emit_rem : (s.emit b).rem = s.rem := rfl
@[simp] theorem State.emit_refLo : (s.emit b).refLo = s.refLo := rfl
@[simp] theorem State.emit_refOff : (s.emit b).refOff = s.refOff := rfl
@[simp] theorem State.emit_refCnt : (s.emit b).refCnt = s.refCnt := rfl
@[simp] theorem State.emit_inPtr : (s.emit b).inPtr = s.inPtr := rfl
@[simp] theorem State.emit_dstate : (s.emit b).dstate = s.dstate := rfl
@[simp] theorem State.emit_hdrN : (s.emit b).hdrN = s.hdrN := rfl
@[simp] theorem State.emit_epos : (s.emit b).epos = s.epos := rfl
@[simp] theorem State.emit_erem : (s.emit b).erem = s.erem := rfl
@[simp] theorem State.emit_tokbuf : (s.emit b).tokbuf = s.tokbuf := rfl
@[simp] theorem State.emit_toklen : (s.emit b).toklen = s.toklen := rfl
@[simp] theorem State.emit_groups : (s.emit b).groups = s.groups := rfl
@[simp] theorem State.emit_candS : (s.emit b).candS = s.candS := rfl
@[simp] theorem State.emit_candM : (s.emit b).candM = s.candM := rfl
@[simp] theorem State.emit_estate : (s.emit b).estate = s.estate := rfl
@[simp] theorem State.emit_mode : (s.emit b).mode = s.mode := rfl
@[simp] theorem State.emit_res : (s.emit b).res = s.res := rfl
@[simp] theorem State.emit_done : (s.emit b).done = s.done := rfl
@[simp] theorem State.emit_faulted : (s.emit b).faulted = s.faulted := rfl
@[simp] theorem State.emit_fcode : (s.emit b).fcode = s.fcode := rfl
@[simp] theorem State.emit_faddr : (s.emit b).faddr = s.faddr := rfl
@[simp] theorem State.emit_fval : (s.emit b).fval = s.fval := rfl
@[simp] theorem State.emit_pending : (s.emit b).pending = s.pending := rfl
@[simp] theorem State.emit_inp : (s.emit b).inp = s.inp := rfl
@[simp] theorem State.emit_out : (s.emit b).out = s.out ++ [b] := rfl
@[simp] theorem State.emit_host : (s.emit b).host = s.host := rfl
@[simp] theorem State.emit_draws : (s.emit b).draws = s.draws := rfl
@[simp] theorem State.emit_params : (s.emit b).params = s.params := rfl

end

/-! The fields after the emission of several bytes. -/

section

variable (bytes : List Byte) (s : State)

@[simp] theorem State.emitAll_win : (s.emitAll bytes).win = s.win := rfl
@[simp] theorem State.emitAll_cur : (s.emitAll bytes).cur = s.cur := rfl
@[simp] theorem State.emitAll_dflags : (s.emitAll bytes).dflags = s.dflags := rfl
@[simp] theorem State.emitAll_etag : (s.emitAll bytes).etag = s.etag := rfl
@[simp] theorem State.emitAll_ecnt : (s.emitAll bytes).ecnt = s.ecnt := rfl
@[simp] theorem State.emitAll_rem : (s.emitAll bytes).rem = s.rem := rfl
@[simp] theorem State.emitAll_refLo : (s.emitAll bytes).refLo = s.refLo := rfl
@[simp] theorem State.emitAll_refOff : (s.emitAll bytes).refOff = s.refOff := rfl
@[simp] theorem State.emitAll_refCnt : (s.emitAll bytes).refCnt = s.refCnt := rfl
@[simp] theorem State.emitAll_inPtr : (s.emitAll bytes).inPtr = s.inPtr := rfl
@[simp] theorem State.emitAll_dstate : (s.emitAll bytes).dstate = s.dstate := rfl
@[simp] theorem State.emitAll_hdrN : (s.emitAll bytes).hdrN = s.hdrN := rfl
@[simp] theorem State.emitAll_epos : (s.emitAll bytes).epos = s.epos := rfl
@[simp] theorem State.emitAll_erem : (s.emitAll bytes).erem = s.erem := rfl
@[simp] theorem State.emitAll_tokbuf : (s.emitAll bytes).tokbuf = s.tokbuf := rfl
@[simp] theorem State.emitAll_toklen : (s.emitAll bytes).toklen = s.toklen := rfl
@[simp] theorem State.emitAll_groups : (s.emitAll bytes).groups = s.groups := rfl
@[simp] theorem State.emitAll_candS : (s.emitAll bytes).candS = s.candS := rfl
@[simp] theorem State.emitAll_candM : (s.emitAll bytes).candM = s.candM := rfl
@[simp] theorem State.emitAll_estate : (s.emitAll bytes).estate = s.estate := rfl
@[simp] theorem State.emitAll_mode : (s.emitAll bytes).mode = s.mode := rfl
@[simp] theorem State.emitAll_res : (s.emitAll bytes).res = s.res := rfl
@[simp] theorem State.emitAll_done : (s.emitAll bytes).done = s.done := rfl
@[simp] theorem State.emitAll_faulted : (s.emitAll bytes).faulted = s.faulted := rfl
@[simp] theorem State.emitAll_fcode : (s.emitAll bytes).fcode = s.fcode := rfl
@[simp] theorem State.emitAll_faddr : (s.emitAll bytes).faddr = s.faddr := rfl
@[simp] theorem State.emitAll_fval : (s.emitAll bytes).fval = s.fval := rfl
@[simp] theorem State.emitAll_pending : (s.emitAll bytes).pending = s.pending := rfl
@[simp] theorem State.emitAll_inp : (s.emitAll bytes).inp = s.inp := rfl
@[simp] theorem State.emitAll_out : (s.emitAll bytes).out = s.out ++ bytes := rfl
@[simp] theorem State.emitAll_host : (s.emitAll bytes).host = s.host := rfl
@[simp] theorem State.emitAll_draws : (s.emitAll bytes).draws = s.draws := rfl
@[simp] theorem State.emitAll_params : (s.emitAll bytes).params = s.params := rfl

end

/-! The fields after a command's result (R36). -/

section

variable (v : Word) (s : State)

@[simp] theorem State.setRes_win : (s.setRes v).win = s.win := rfl
@[simp] theorem State.setRes_cur : (s.setRes v).cur = s.cur := rfl
@[simp] theorem State.setRes_dflags : (s.setRes v).dflags = s.dflags := rfl
@[simp] theorem State.setRes_etag : (s.setRes v).etag = s.etag := rfl
@[simp] theorem State.setRes_ecnt : (s.setRes v).ecnt = s.ecnt := rfl
@[simp] theorem State.setRes_rem : (s.setRes v).rem = s.rem := rfl
@[simp] theorem State.setRes_refLo : (s.setRes v).refLo = s.refLo := rfl
@[simp] theorem State.setRes_refOff : (s.setRes v).refOff = s.refOff := rfl
@[simp] theorem State.setRes_refCnt : (s.setRes v).refCnt = s.refCnt := rfl
@[simp] theorem State.setRes_inPtr : (s.setRes v).inPtr = s.inPtr := rfl
@[simp] theorem State.setRes_dstate : (s.setRes v).dstate = s.dstate := rfl
@[simp] theorem State.setRes_hdrN : (s.setRes v).hdrN = s.hdrN := rfl
@[simp] theorem State.setRes_epos : (s.setRes v).epos = s.epos := rfl
@[simp] theorem State.setRes_erem : (s.setRes v).erem = s.erem := rfl
@[simp] theorem State.setRes_tokbuf : (s.setRes v).tokbuf = s.tokbuf := rfl
@[simp] theorem State.setRes_toklen : (s.setRes v).toklen = s.toklen := rfl
@[simp] theorem State.setRes_groups : (s.setRes v).groups = s.groups := rfl
@[simp] theorem State.setRes_candS : (s.setRes v).candS = s.candS := rfl
@[simp] theorem State.setRes_candM : (s.setRes v).candM = s.candM := rfl
@[simp] theorem State.setRes_estate : (s.setRes v).estate = s.estate := rfl
@[simp] theorem State.setRes_mode : (s.setRes v).mode = s.mode := rfl
@[simp] theorem State.setRes_res : (s.setRes v).res = v := rfl
@[simp] theorem State.setRes_done : (s.setRes v).done = s.done := rfl
@[simp] theorem State.setRes_faulted : (s.setRes v).faulted = s.faulted := rfl
@[simp] theorem State.setRes_fcode : (s.setRes v).fcode = s.fcode := rfl
@[simp] theorem State.setRes_faddr : (s.setRes v).faddr = s.faddr := rfl
@[simp] theorem State.setRes_fval : (s.setRes v).fval = s.fval := rfl
@[simp] theorem State.setRes_pending : (s.setRes v).pending = s.pending := rfl
@[simp] theorem State.setRes_inp : (s.setRes v).inp = s.inp := rfl
@[simp] theorem State.setRes_out : (s.setRes v).out = s.out := rfl
@[simp] theorem State.setRes_host : (s.setRes v).host = s.host := rfl
@[simp] theorem State.setRes_draws : (s.setRes v).draws = s.draws := rfl
@[simp] theorem State.setRes_params : (s.setRes v).params = s.params := rfl

end

/-! The fields after the advance of the read position (R64). -/

section

variable (s : State)

@[simp] theorem State.advanceIn_win : s.advanceIn.win = s.win := rfl
@[simp] theorem State.advanceIn_cur : s.advanceIn.cur = s.cur := rfl
@[simp] theorem State.advanceIn_dflags : s.advanceIn.dflags = s.dflags := rfl
@[simp] theorem State.advanceIn_etag : s.advanceIn.etag = s.etag := rfl
@[simp] theorem State.advanceIn_ecnt : s.advanceIn.ecnt = s.ecnt := rfl
@[simp] theorem State.advanceIn_rem : s.advanceIn.rem = s.rem := rfl
@[simp] theorem State.advanceIn_refLo : s.advanceIn.refLo = s.refLo := rfl
@[simp] theorem State.advanceIn_refOff : s.advanceIn.refOff = s.refOff := rfl
@[simp] theorem State.advanceIn_refCnt : s.advanceIn.refCnt = s.refCnt := rfl
@[simp] theorem State.advanceIn_inPtr : s.advanceIn.inPtr = s.inPtr + 1 := rfl
@[simp] theorem State.advanceIn_dstate : s.advanceIn.dstate = s.dstate := rfl
@[simp] theorem State.advanceIn_hdrN : s.advanceIn.hdrN = s.hdrN := rfl
@[simp] theorem State.advanceIn_epos : s.advanceIn.epos = s.epos := rfl
@[simp] theorem State.advanceIn_erem : s.advanceIn.erem = s.erem := rfl
@[simp] theorem State.advanceIn_tokbuf : s.advanceIn.tokbuf = s.tokbuf := rfl
@[simp] theorem State.advanceIn_toklen : s.advanceIn.toklen = s.toklen := rfl
@[simp] theorem State.advanceIn_groups : s.advanceIn.groups = s.groups := rfl
@[simp] theorem State.advanceIn_candS : s.advanceIn.candS = s.candS := rfl
@[simp] theorem State.advanceIn_candM : s.advanceIn.candM = s.candM := rfl
@[simp] theorem State.advanceIn_estate : s.advanceIn.estate = s.estate := rfl
@[simp] theorem State.advanceIn_mode : s.advanceIn.mode = s.mode := rfl
@[simp] theorem State.advanceIn_res : s.advanceIn.res = s.res := rfl
@[simp] theorem State.advanceIn_done : s.advanceIn.done = s.done := rfl
@[simp] theorem State.advanceIn_faulted : s.advanceIn.faulted = s.faulted := rfl
@[simp] theorem State.advanceIn_fcode : s.advanceIn.fcode = s.fcode := rfl
@[simp] theorem State.advanceIn_faddr : s.advanceIn.faddr = s.faddr := rfl
@[simp] theorem State.advanceIn_fval : s.advanceIn.fval = s.fval := rfl
@[simp] theorem State.advanceIn_pending : s.advanceIn.pending = s.pending := rfl
@[simp] theorem State.advanceIn_inp : s.advanceIn.inp = s.inp := rfl
@[simp] theorem State.advanceIn_out : s.advanceIn.out = s.out := rfl
@[simp] theorem State.advanceIn_host : s.advanceIn.host = s.host := rfl
@[simp] theorem State.advanceIn_draws : s.advanceIn.draws = s.draws := rfl
@[simp] theorem State.advanceIn_params : s.advanceIn.params = s.params := rfl

end

/-! The fields after fault entry (R330). -/

section

variable (f : FaultCause) (s : State)

@[simp] theorem State.raiseFault_win : (s.raiseFault f).win = s.win := rfl
@[simp] theorem State.raiseFault_cur : (s.raiseFault f).cur = s.cur := rfl
@[simp] theorem State.raiseFault_dflags : (s.raiseFault f).dflags = s.dflags := rfl
@[simp] theorem State.raiseFault_etag : (s.raiseFault f).etag = s.etag := rfl
@[simp] theorem State.raiseFault_ecnt : (s.raiseFault f).ecnt = s.ecnt := rfl
@[simp] theorem State.raiseFault_rem : (s.raiseFault f).rem = s.rem := rfl
@[simp] theorem State.raiseFault_refLo : (s.raiseFault f).refLo = s.refLo := rfl
@[simp] theorem State.raiseFault_refOff : (s.raiseFault f).refOff = s.refOff := rfl
@[simp] theorem State.raiseFault_refCnt : (s.raiseFault f).refCnt = s.refCnt := rfl
@[simp] theorem State.raiseFault_inPtr : (s.raiseFault f).inPtr = s.inPtr := rfl
@[simp] theorem State.raiseFault_dstate : (s.raiseFault f).dstate = f.dstateAfter s.dstate := rfl
@[simp] theorem State.raiseFault_hdrN : (s.raiseFault f).hdrN = s.hdrN := rfl
@[simp] theorem State.raiseFault_epos : (s.raiseFault f).epos = s.epos := rfl
@[simp] theorem State.raiseFault_erem : (s.raiseFault f).erem = s.erem := rfl
@[simp] theorem State.raiseFault_tokbuf : (s.raiseFault f).tokbuf = s.tokbuf := rfl
@[simp] theorem State.raiseFault_toklen : (s.raiseFault f).toklen = s.toklen := rfl
@[simp] theorem State.raiseFault_groups : (s.raiseFault f).groups = s.groups := rfl
@[simp] theorem State.raiseFault_candS : (s.raiseFault f).candS = s.candS := rfl
@[simp] theorem State.raiseFault_candM : (s.raiseFault f).candM = s.candM := rfl
@[simp] theorem State.raiseFault_estate : (s.raiseFault f).estate = f.estateAfter s.estate := rfl
@[simp] theorem State.raiseFault_mode : (s.raiseFault f).mode = s.mode := rfl
@[simp] theorem State.raiseFault_res : (s.raiseFault f).res = s.res := rfl
@[simp] theorem State.raiseFault_done : (s.raiseFault f).done = false := rfl
@[simp] theorem State.raiseFault_faulted : (s.raiseFault f).faulted = true := rfl
@[simp] theorem State.raiseFault_fcode : (s.raiseFault f).fcode = f.code := rfl
@[simp] theorem State.raiseFault_faddr : (s.raiseFault f).faddr = f.info := rfl
@[simp] theorem State.raiseFault_fval : (s.raiseFault f).fval = f.value := rfl
@[simp] theorem State.raiseFault_pending : (s.raiseFault f).pending = s.pending := rfl
@[simp] theorem State.raiseFault_inp : (s.raiseFault f).inp = s.inp := rfl
@[simp] theorem State.raiseFault_out : (s.raiseFault f).out = s.out := rfl
@[simp] theorem State.raiseFault_host : (s.raiseFault f).host = s.host := rfl
@[simp] theorem State.raiseFault_draws : (s.raiseFault f).draws = s.draws := rfl
@[simp] theorem State.raiseFault_params : (s.raiseFault f).params = s.params := rfl

end

/-! The fields after the clearing of the fault record (R332). -/

section

variable (s : State)

@[simp] theorem State.clearStatus_win : s.clearStatus.win = s.win := rfl
@[simp] theorem State.clearStatus_cur : s.clearStatus.cur = s.cur := rfl
@[simp] theorem State.clearStatus_dflags : s.clearStatus.dflags = s.dflags := rfl
@[simp] theorem State.clearStatus_etag : s.clearStatus.etag = s.etag := rfl
@[simp] theorem State.clearStatus_ecnt : s.clearStatus.ecnt = s.ecnt := rfl
@[simp] theorem State.clearStatus_rem : s.clearStatus.rem = s.rem := rfl
@[simp] theorem State.clearStatus_refLo : s.clearStatus.refLo = s.refLo := rfl
@[simp] theorem State.clearStatus_refOff : s.clearStatus.refOff = s.refOff := rfl
@[simp] theorem State.clearStatus_refCnt : s.clearStatus.refCnt = s.refCnt := rfl
@[simp] theorem State.clearStatus_inPtr : s.clearStatus.inPtr = s.inPtr := rfl
@[simp] theorem State.clearStatus_dstate : s.clearStatus.dstate = s.dstate := rfl
@[simp] theorem State.clearStatus_hdrN : s.clearStatus.hdrN = s.hdrN := rfl
@[simp] theorem State.clearStatus_epos : s.clearStatus.epos = s.epos := rfl
@[simp] theorem State.clearStatus_erem : s.clearStatus.erem = s.erem := rfl
@[simp] theorem State.clearStatus_tokbuf : s.clearStatus.tokbuf = s.tokbuf := rfl
@[simp] theorem State.clearStatus_toklen : s.clearStatus.toklen = s.toklen := rfl
@[simp] theorem State.clearStatus_groups : s.clearStatus.groups = s.groups := rfl
@[simp] theorem State.clearStatus_candS : s.clearStatus.candS = s.candS := rfl
@[simp] theorem State.clearStatus_candM : s.clearStatus.candM = s.candM := rfl
@[simp] theorem State.clearStatus_estate : s.clearStatus.estate = s.estate := rfl
@[simp] theorem State.clearStatus_mode : s.clearStatus.mode = s.mode := rfl
@[simp] theorem State.clearStatus_res : s.clearStatus.res = s.res := rfl
@[simp] theorem State.clearStatus_done : s.clearStatus.done = false := rfl
@[simp] theorem State.clearStatus_faulted : s.clearStatus.faulted = false := rfl
@[simp] theorem State.clearStatus_fcode : s.clearStatus.fcode = 0 := rfl
@[simp] theorem State.clearStatus_faddr : s.clearStatus.faddr = 0 := rfl
@[simp] theorem State.clearStatus_fval : s.clearStatus.fval = 0 := rfl
@[simp] theorem State.clearStatus_pending : s.clearStatus.pending = s.pending := rfl
@[simp] theorem State.clearStatus_inp : s.clearStatus.inp = s.inp := rfl
@[simp] theorem State.clearStatus_out : s.clearStatus.out = s.out := rfl
@[simp] theorem State.clearStatus_host : s.clearStatus.host = s.host := rfl
@[simp] theorem State.clearStatus_draws : s.clearStatus.draws = s.draws := rfl
@[simp] theorem State.clearStatus_params : s.clearStatus.params = s.params := rfl

end

/-! The fields after the shift of the decode flags (R161). -/

section

variable (s : State)

@[simp] theorem State.shiftFlags_win : s.shiftFlags.win = s.win := rfl
@[simp] theorem State.shiftFlags_cur : s.shiftFlags.cur = s.cur := rfl
@[simp] theorem State.shiftFlags_dflags : s.shiftFlags.dflags = s.dflags >>> 1 := rfl
@[simp] theorem State.shiftFlags_etag : s.shiftFlags.etag = s.etag := rfl
@[simp] theorem State.shiftFlags_ecnt : s.shiftFlags.ecnt = s.ecnt := rfl
@[simp] theorem State.shiftFlags_rem : s.shiftFlags.rem = s.rem := rfl
@[simp] theorem State.shiftFlags_refLo : s.shiftFlags.refLo = s.refLo := rfl
@[simp] theorem State.shiftFlags_refOff : s.shiftFlags.refOff = s.refOff := rfl
@[simp] theorem State.shiftFlags_refCnt : s.shiftFlags.refCnt = s.refCnt := rfl
@[simp] theorem State.shiftFlags_inPtr : s.shiftFlags.inPtr = s.inPtr := rfl
@[simp] theorem State.shiftFlags_dstate : s.shiftFlags.dstate = s.dstate := rfl
@[simp] theorem State.shiftFlags_hdrN : s.shiftFlags.hdrN = s.hdrN := rfl
@[simp] theorem State.shiftFlags_epos : s.shiftFlags.epos = s.epos := rfl
@[simp] theorem State.shiftFlags_erem : s.shiftFlags.erem = s.erem := rfl
@[simp] theorem State.shiftFlags_tokbuf : s.shiftFlags.tokbuf = s.tokbuf := rfl
@[simp] theorem State.shiftFlags_toklen : s.shiftFlags.toklen = s.toklen := rfl
@[simp] theorem State.shiftFlags_groups : s.shiftFlags.groups = s.groups := rfl
@[simp] theorem State.shiftFlags_candS : s.shiftFlags.candS = s.candS := rfl
@[simp] theorem State.shiftFlags_candM : s.shiftFlags.candM = s.candM := rfl
@[simp] theorem State.shiftFlags_estate : s.shiftFlags.estate = s.estate := rfl
@[simp] theorem State.shiftFlags_mode : s.shiftFlags.mode = s.mode := rfl
@[simp] theorem State.shiftFlags_res : s.shiftFlags.res = s.res := rfl
@[simp] theorem State.shiftFlags_done : s.shiftFlags.done = s.done := rfl
@[simp] theorem State.shiftFlags_faulted : s.shiftFlags.faulted = s.faulted := rfl
@[simp] theorem State.shiftFlags_fcode : s.shiftFlags.fcode = s.fcode := rfl
@[simp] theorem State.shiftFlags_faddr : s.shiftFlags.faddr = s.faddr := rfl
@[simp] theorem State.shiftFlags_fval : s.shiftFlags.fval = s.fval := rfl
@[simp] theorem State.shiftFlags_pending : s.shiftFlags.pending = s.pending := rfl
@[simp] theorem State.shiftFlags_inp : s.shiftFlags.inp = s.inp := rfl
@[simp] theorem State.shiftFlags_out : s.shiftFlags.out = s.out := rfl
@[simp] theorem State.shiftFlags_host : s.shiftFlags.host = s.host := rfl
@[simp] theorem State.shiftFlags_draws : s.shiftFlags.draws = s.draws := rfl
@[simp] theorem State.shiftFlags_params : s.shiftFlags.params = s.params := rfl

end

/-! The fields after the load of a control byte (R162). -/

section

variable (c : Byte) (s : State)

@[simp] theorem State.loadFlags_win : (s.loadFlags c).win = s.win := rfl
@[simp] theorem State.loadFlags_cur : (s.loadFlags c).cur = s.cur := rfl
@[simp] theorem State.loadFlags_dflags : (s.loadFlags c).dflags = Config.sentinel ||| c.setWidth 16 := rfl
@[simp] theorem State.loadFlags_etag : (s.loadFlags c).etag = s.etag := rfl
@[simp] theorem State.loadFlags_ecnt : (s.loadFlags c).ecnt = s.ecnt := rfl
@[simp] theorem State.loadFlags_rem : (s.loadFlags c).rem = s.rem := rfl
@[simp] theorem State.loadFlags_refLo : (s.loadFlags c).refLo = s.refLo := rfl
@[simp] theorem State.loadFlags_refOff : (s.loadFlags c).refOff = s.refOff := rfl
@[simp] theorem State.loadFlags_refCnt : (s.loadFlags c).refCnt = s.refCnt := rfl
@[simp] theorem State.loadFlags_inPtr : (s.loadFlags c).inPtr = s.inPtr := rfl
@[simp] theorem State.loadFlags_dstate : (s.loadFlags c).dstate = s.dstate := rfl
@[simp] theorem State.loadFlags_hdrN : (s.loadFlags c).hdrN = s.hdrN := rfl
@[simp] theorem State.loadFlags_epos : (s.loadFlags c).epos = s.epos := rfl
@[simp] theorem State.loadFlags_erem : (s.loadFlags c).erem = s.erem := rfl
@[simp] theorem State.loadFlags_tokbuf : (s.loadFlags c).tokbuf = s.tokbuf := rfl
@[simp] theorem State.loadFlags_toklen : (s.loadFlags c).toklen = s.toklen := rfl
@[simp] theorem State.loadFlags_groups : (s.loadFlags c).groups = s.groups := rfl
@[simp] theorem State.loadFlags_candS : (s.loadFlags c).candS = s.candS := rfl
@[simp] theorem State.loadFlags_candM : (s.loadFlags c).candM = s.candM := rfl
@[simp] theorem State.loadFlags_estate : (s.loadFlags c).estate = s.estate := rfl
@[simp] theorem State.loadFlags_mode : (s.loadFlags c).mode = s.mode := rfl
@[simp] theorem State.loadFlags_res : (s.loadFlags c).res = s.res := rfl
@[simp] theorem State.loadFlags_done : (s.loadFlags c).done = s.done := rfl
@[simp] theorem State.loadFlags_faulted : (s.loadFlags c).faulted = s.faulted := rfl
@[simp] theorem State.loadFlags_fcode : (s.loadFlags c).fcode = s.fcode := rfl
@[simp] theorem State.loadFlags_faddr : (s.loadFlags c).faddr = s.faddr := rfl
@[simp] theorem State.loadFlags_fval : (s.loadFlags c).fval = s.fval := rfl
@[simp] theorem State.loadFlags_pending : (s.loadFlags c).pending = s.pending := rfl
@[simp] theorem State.loadFlags_inp : (s.loadFlags c).inp = s.inp := rfl
@[simp] theorem State.loadFlags_out : (s.loadFlags c).out = s.out := rfl
@[simp] theorem State.loadFlags_host : (s.loadFlags c).host = s.host := rfl
@[simp] theorem State.loadFlags_draws : (s.loadFlags c).draws = s.draws := rfl
@[simp] theorem State.loadFlags_params : (s.loadFlags c).params = s.params := rfl

end

/-! The fields after the clearing of the decode flags (R160). -/

section

variable (s : State)

@[simp] theorem State.clearFlags_win : s.clearFlags.win = s.win := rfl
@[simp] theorem State.clearFlags_cur : s.clearFlags.cur = s.cur := rfl
@[simp] theorem State.clearFlags_dflags : s.clearFlags.dflags = 0 := rfl
@[simp] theorem State.clearFlags_etag : s.clearFlags.etag = s.etag := rfl
@[simp] theorem State.clearFlags_ecnt : s.clearFlags.ecnt = s.ecnt := rfl
@[simp] theorem State.clearFlags_rem : s.clearFlags.rem = s.rem := rfl
@[simp] theorem State.clearFlags_refLo : s.clearFlags.refLo = s.refLo := rfl
@[simp] theorem State.clearFlags_refOff : s.clearFlags.refOff = s.refOff := rfl
@[simp] theorem State.clearFlags_refCnt : s.clearFlags.refCnt = s.refCnt := rfl
@[simp] theorem State.clearFlags_inPtr : s.clearFlags.inPtr = s.inPtr := rfl
@[simp] theorem State.clearFlags_dstate : s.clearFlags.dstate = s.dstate := rfl
@[simp] theorem State.clearFlags_hdrN : s.clearFlags.hdrN = s.hdrN := rfl
@[simp] theorem State.clearFlags_epos : s.clearFlags.epos = s.epos := rfl
@[simp] theorem State.clearFlags_erem : s.clearFlags.erem = s.erem := rfl
@[simp] theorem State.clearFlags_tokbuf : s.clearFlags.tokbuf = s.tokbuf := rfl
@[simp] theorem State.clearFlags_toklen : s.clearFlags.toklen = s.toklen := rfl
@[simp] theorem State.clearFlags_groups : s.clearFlags.groups = s.groups := rfl
@[simp] theorem State.clearFlags_candS : s.clearFlags.candS = s.candS := rfl
@[simp] theorem State.clearFlags_candM : s.clearFlags.candM = s.candM := rfl
@[simp] theorem State.clearFlags_estate : s.clearFlags.estate = s.estate := rfl
@[simp] theorem State.clearFlags_mode : s.clearFlags.mode = s.mode := rfl
@[simp] theorem State.clearFlags_res : s.clearFlags.res = s.res := rfl
@[simp] theorem State.clearFlags_done : s.clearFlags.done = s.done := rfl
@[simp] theorem State.clearFlags_faulted : s.clearFlags.faulted = s.faulted := rfl
@[simp] theorem State.clearFlags_fcode : s.clearFlags.fcode = s.fcode := rfl
@[simp] theorem State.clearFlags_faddr : s.clearFlags.faddr = s.faddr := rfl
@[simp] theorem State.clearFlags_fval : s.clearFlags.fval = s.fval := rfl
@[simp] theorem State.clearFlags_pending : s.clearFlags.pending = s.pending := rfl
@[simp] theorem State.clearFlags_inp : s.clearFlags.inp = s.inp := rfl
@[simp] theorem State.clearFlags_out : s.clearFlags.out = s.out := rfl
@[simp] theorem State.clearFlags_host : s.clearFlags.host = s.host := rfl
@[simp] theorem State.clearFlags_draws : s.clearFlags.draws = s.draws := rfl
@[simp] theorem State.clearFlags_params : s.clearFlags.params = s.params := rfl

end

/-! The fields after the clearing of the tags (R166). -/

section

variable (s : State)

@[simp] theorem State.clearTags_win : s.clearTags.win = s.win := rfl
@[simp] theorem State.clearTags_cur : s.clearTags.cur = s.cur := rfl
@[simp] theorem State.clearTags_dflags : s.clearTags.dflags = s.dflags := rfl
@[simp] theorem State.clearTags_etag : s.clearTags.etag = 0 := rfl
@[simp] theorem State.clearTags_ecnt : s.clearTags.ecnt = 0 := rfl
@[simp] theorem State.clearTags_rem : s.clearTags.rem = s.rem := rfl
@[simp] theorem State.clearTags_refLo : s.clearTags.refLo = s.refLo := rfl
@[simp] theorem State.clearTags_refOff : s.clearTags.refOff = s.refOff := rfl
@[simp] theorem State.clearTags_refCnt : s.clearTags.refCnt = s.refCnt := rfl
@[simp] theorem State.clearTags_inPtr : s.clearTags.inPtr = s.inPtr := rfl
@[simp] theorem State.clearTags_dstate : s.clearTags.dstate = s.dstate := rfl
@[simp] theorem State.clearTags_hdrN : s.clearTags.hdrN = s.hdrN := rfl
@[simp] theorem State.clearTags_epos : s.clearTags.epos = s.epos := rfl
@[simp] theorem State.clearTags_erem : s.clearTags.erem = s.erem := rfl
@[simp] theorem State.clearTags_tokbuf : s.clearTags.tokbuf = s.tokbuf := rfl
@[simp] theorem State.clearTags_toklen : s.clearTags.toklen = s.toklen := rfl
@[simp] theorem State.clearTags_groups : s.clearTags.groups = s.groups := rfl
@[simp] theorem State.clearTags_candS : s.clearTags.candS = s.candS := rfl
@[simp] theorem State.clearTags_candM : s.clearTags.candM = s.candM := rfl
@[simp] theorem State.clearTags_estate : s.clearTags.estate = s.estate := rfl
@[simp] theorem State.clearTags_mode : s.clearTags.mode = s.mode := rfl
@[simp] theorem State.clearTags_res : s.clearTags.res = s.res := rfl
@[simp] theorem State.clearTags_done : s.clearTags.done = s.done := rfl
@[simp] theorem State.clearTags_faulted : s.clearTags.faulted = s.faulted := rfl
@[simp] theorem State.clearTags_fcode : s.clearTags.fcode = s.fcode := rfl
@[simp] theorem State.clearTags_faddr : s.clearTags.faddr = s.faddr := rfl
@[simp] theorem State.clearTags_fval : s.clearTags.fval = s.fval := rfl
@[simp] theorem State.clearTags_pending : s.clearTags.pending = s.pending := rfl
@[simp] theorem State.clearTags_inp : s.clearTags.inp = s.inp := rfl
@[simp] theorem State.clearTags_out : s.clearTags.out = s.out := rfl
@[simp] theorem State.clearTags_host : s.clearTags.host = s.host := rfl
@[simp] theorem State.clearTags_draws : s.clearTags.draws = s.draws := rfl
@[simp] theorem State.clearTags_params : s.clearTags.params = s.params := rfl

end

/-! The fields after a tag push (R167). -/

section

variable (t : BitVec 1) (s : State)

@[simp] theorem State.pushTag_win : (s.pushTag t).win = s.win := rfl
@[simp] theorem State.pushTag_cur : (s.pushTag t).cur = s.cur := rfl
@[simp] theorem State.pushTag_dflags : (s.pushTag t).dflags = s.dflags := rfl
@[simp] theorem State.pushTag_etag : (s.pushTag t).etag = t ++ s.etag.extractLsb' 1 7 := rfl
@[simp] theorem State.pushTag_ecnt : (s.pushTag t).ecnt = s.ecnt + 1 := rfl
@[simp] theorem State.pushTag_rem : (s.pushTag t).rem = s.rem := rfl
@[simp] theorem State.pushTag_refLo : (s.pushTag t).refLo = s.refLo := rfl
@[simp] theorem State.pushTag_refOff : (s.pushTag t).refOff = s.refOff := rfl
@[simp] theorem State.pushTag_refCnt : (s.pushTag t).refCnt = s.refCnt := rfl
@[simp] theorem State.pushTag_inPtr : (s.pushTag t).inPtr = s.inPtr := rfl
@[simp] theorem State.pushTag_dstate : (s.pushTag t).dstate = s.dstate := rfl
@[simp] theorem State.pushTag_hdrN : (s.pushTag t).hdrN = s.hdrN := rfl
@[simp] theorem State.pushTag_epos : (s.pushTag t).epos = s.epos := rfl
@[simp] theorem State.pushTag_erem : (s.pushTag t).erem = s.erem := rfl
@[simp] theorem State.pushTag_tokbuf : (s.pushTag t).tokbuf = s.tokbuf := rfl
@[simp] theorem State.pushTag_toklen : (s.pushTag t).toklen = s.toklen := rfl
@[simp] theorem State.pushTag_groups : (s.pushTag t).groups = s.groups := rfl
@[simp] theorem State.pushTag_candS : (s.pushTag t).candS = s.candS := rfl
@[simp] theorem State.pushTag_candM : (s.pushTag t).candM = s.candM := rfl
@[simp] theorem State.pushTag_estate : (s.pushTag t).estate = s.estate := rfl
@[simp] theorem State.pushTag_mode : (s.pushTag t).mode = s.mode := rfl
@[simp] theorem State.pushTag_res : (s.pushTag t).res = s.res := rfl
@[simp] theorem State.pushTag_done : (s.pushTag t).done = s.done := rfl
@[simp] theorem State.pushTag_faulted : (s.pushTag t).faulted = s.faulted := rfl
@[simp] theorem State.pushTag_fcode : (s.pushTag t).fcode = s.fcode := rfl
@[simp] theorem State.pushTag_faddr : (s.pushTag t).faddr = s.faddr := rfl
@[simp] theorem State.pushTag_fval : (s.pushTag t).fval = s.fval := rfl
@[simp] theorem State.pushTag_pending : (s.pushTag t).pending = s.pending := rfl
@[simp] theorem State.pushTag_inp : (s.pushTag t).inp = s.inp := rfl
@[simp] theorem State.pushTag_out : (s.pushTag t).out = s.out := rfl
@[simp] theorem State.pushTag_host : (s.pushTag t).host = s.host := rfl
@[simp] theorem State.pushTag_draws : (s.pushTag t).draws = s.draws := rfl
@[simp] theorem State.pushTag_params : (s.pushTag t).params = s.params := rfl

end

/-! The fields after a byte into the token buffer (R32). -/

section

variable (b : Byte) (s : State)

@[simp] theorem State.bufferByte_win : (s.bufferByte b).win = s.win := rfl
@[simp] theorem State.bufferByte_cur : (s.bufferByte b).cur = s.cur := rfl
@[simp] theorem State.bufferByte_dflags : (s.bufferByte b).dflags = s.dflags := rfl
@[simp] theorem State.bufferByte_etag : (s.bufferByte b).etag = s.etag := rfl
@[simp] theorem State.bufferByte_ecnt : (s.bufferByte b).ecnt = s.ecnt := rfl
@[simp] theorem State.bufferByte_rem : (s.bufferByte b).rem = s.rem := rfl
@[simp] theorem State.bufferByte_refLo : (s.bufferByte b).refLo = s.refLo := rfl
@[simp] theorem State.bufferByte_refOff : (s.bufferByte b).refOff = s.refOff := rfl
@[simp] theorem State.bufferByte_refCnt : (s.bufferByte b).refCnt = s.refCnt := rfl
@[simp] theorem State.bufferByte_inPtr : (s.bufferByte b).inPtr = s.inPtr := rfl
@[simp] theorem State.bufferByte_dstate : (s.bufferByte b).dstate = s.dstate := rfl
@[simp] theorem State.bufferByte_hdrN : (s.bufferByte b).hdrN = s.hdrN := rfl
@[simp] theorem State.bufferByte_epos : (s.bufferByte b).epos = s.epos := rfl
@[simp] theorem State.bufferByte_erem : (s.bufferByte b).erem = s.erem := rfl
@[simp] theorem State.bufferByte_tokbuf : (s.bufferByte b).tokbuf = s.tokbuf.setIfInBounds s.toklen.toNat b := rfl
@[simp] theorem State.bufferByte_toklen : (s.bufferByte b).toklen = s.toklen + 1 := rfl
@[simp] theorem State.bufferByte_groups : (s.bufferByte b).groups = s.groups := rfl
@[simp] theorem State.bufferByte_candS : (s.bufferByte b).candS = s.candS := rfl
@[simp] theorem State.bufferByte_candM : (s.bufferByte b).candM = s.candM := rfl
@[simp] theorem State.bufferByte_estate : (s.bufferByte b).estate = s.estate := rfl
@[simp] theorem State.bufferByte_mode : (s.bufferByte b).mode = s.mode := rfl
@[simp] theorem State.bufferByte_res : (s.bufferByte b).res = s.res := rfl
@[simp] theorem State.bufferByte_done : (s.bufferByte b).done = s.done := rfl
@[simp] theorem State.bufferByte_faulted : (s.bufferByte b).faulted = s.faulted := rfl
@[simp] theorem State.bufferByte_fcode : (s.bufferByte b).fcode = s.fcode := rfl
@[simp] theorem State.bufferByte_faddr : (s.bufferByte b).faddr = s.faddr := rfl
@[simp] theorem State.bufferByte_fval : (s.bufferByte b).fval = s.fval := rfl
@[simp] theorem State.bufferByte_pending : (s.bufferByte b).pending = s.pending := rfl
@[simp] theorem State.bufferByte_inp : (s.bufferByte b).inp = s.inp := rfl
@[simp] theorem State.bufferByte_out : (s.bufferByte b).out = s.out := rfl
@[simp] theorem State.bufferByte_host : (s.bufferByte b).host = s.host := rfl
@[simp] theorem State.bufferByte_draws : (s.bufferByte b).draws = s.draws := rfl
@[simp] theorem State.bufferByte_params : (s.bufferByte b).params = s.params := rfl

end

end Sys2Proof.Machine
end

