-- ==== Sys2Proof/Laws/Ops.lean ====
section
/-! SUPPORT. What the shared operations over the window and the streams do, said once: appends, the replay copy, the stream
read, fault entry and the reset event. -/

namespace Sys2Proof.Machine

theorem slot_lt (i : Slot) : i.toNat < Config.winSize := i.isLt

/-- A read of a slot after an append (R62, R63). -/
theorem State.slot_append {s : State} (h : s.win.wf) (v : Byte) (i : Slot) :
    (s.append v).slot i = if i = s.cur then v else s.slot i := by
  simp only [State.slot, State.append_win, Memory.read_write h]
  by_cases hi : i = s.cur
  · simp [hi]
  · simp [hi, mt BitVec.eq_of_toNat_eq hi]

theorem State.append_wf {s : State} (h : s.win.wf) (v : Byte) : (s.append v).win.wf :=
  Memory.wf_write h (slot_lt s.cur) v

@[simp] theorem State.slot_initWindow (s : State) (i : Slot) : s.initWindow.slot i = 0 := rfl

theorem State.initWindow_wf (s : State) : s.initWindow.win.wf := Memory.wf_nil

/-! Appends of several bytes. -/

@[simp] theorem State.appendAll_nil (s : State) : s.appendAll [] = s := rfl

@[simp] theorem State.appendAll_cons (b : Byte) (bytes : List Byte) (s : State) :
    s.appendAll (b :: bytes) = (s.append b).appendAll bytes := rfl

theorem State.appendAll_append (xs ys : List Byte) (s : State) :
    s.appendAll (xs ++ ys) = (s.appendAll xs).appendAll ys := by
  simp [State.appendAll, List.foldl_append]

theorem State.appendAll_wf (bytes : List Byte) {s : State} (h : s.win.wf) : (s.appendAll bytes).win.wf := by
  induction bytes generalizing s with
  | nil => exact h
  | cons b rest ih => exact ih (State.append_wf h b)

/-- Appends advance the cursor by their number (R137). -/
theorem State.appendAll_cur (bytes : List Byte) (s : State) :
    (s.appendAll bytes).cur = s.cur + BitVec.ofNat 12 bytes.length := by
  induction bytes generalizing s with
  | nil => simp
  | cons b rest ih =>
    simp only [State.appendAll_cons, ih, State.append_cur, List.length_cons]
    rw [BitVec.ofNat_add, BitVec.add_assoc, BitVec.add_comm (1 : Slot)]
    rfl

/-- Appends change the window and the cursor only. -/
theorem State.appendAll_frame (bytes : List Byte) (s : State) :
    s.appendAll bytes = { s with win := (s.appendAll bytes).win, cur := (s.appendAll bytes).cur } := by
  induction bytes generalizing s with
  | nil => rfl
  | cons b rest ih => rw [State.appendAll_cons, ih]; rfl

/-- What appends do to the window and the cursor depends on the window and the cursor alone. -/
theorem State.appendAll_congr (bytes : List Byte) {s t : State} (hw : s.win = t.win) (hc : s.cur = t.cur) :
    (s.appendAll bytes).win = (t.appendAll bytes).win ∧ (s.appendAll bytes).cur = (t.appendAll bytes).cur := by
  induction bytes generalizing s t with
  | nil => exact ⟨hw, hc⟩
  | cons b rest ih => exact ih (by simp [hw, hc]) (by simp [hc])

section

variable (bytes : List Byte) (s : State)

@[simp] theorem State.appendAll_dflags : (s.appendAll bytes).dflags = s.dflags := by rw [appendAll_frame]
@[simp] theorem State.appendAll_etag : (s.appendAll bytes).etag = s.etag := by rw [appendAll_frame]
@[simp] theorem State.appendAll_ecnt : (s.appendAll bytes).ecnt = s.ecnt := by rw [appendAll_frame]
@[simp] theorem State.appendAll_rem : (s.appendAll bytes).rem = s.rem := by rw [appendAll_frame]
@[simp] theorem State.appendAll_refLo : (s.appendAll bytes).refLo = s.refLo := by rw [appendAll_frame]
@[simp] theorem State.appendAll_refOff : (s.appendAll bytes).refOff = s.refOff := by rw [appendAll_frame]
@[simp] theorem State.appendAll_refCnt : (s.appendAll bytes).refCnt = s.refCnt := by rw [appendAll_frame]
@[simp] theorem State.appendAll_inPtr : (s.appendAll bytes).inPtr = s.inPtr := by rw [appendAll_frame]
@[simp] theorem State.appendAll_dstate : (s.appendAll bytes).dstate = s.dstate := by rw [appendAll_frame]
@[simp] theorem State.appendAll_hdrN : (s.appendAll bytes).hdrN = s.hdrN := by rw [appendAll_frame]
@[simp] theorem State.appendAll_epos : (s.appendAll bytes).epos = s.epos := by rw [appendAll_frame]
@[simp] theorem State.appendAll_erem : (s.appendAll bytes).erem = s.erem := by rw [appendAll_frame]
@[simp] theorem State.appendAll_tokbuf : (s.appendAll bytes).tokbuf = s.tokbuf := by rw [appendAll_frame]
@[simp] theorem State.appendAll_toklen : (s.appendAll bytes).toklen = s.toklen := by rw [appendAll_frame]
@[simp] theorem State.appendAll_groups : (s.appendAll bytes).groups = s.groups := by rw [appendAll_frame]
@[simp] theorem State.appendAll_candS : (s.appendAll bytes).candS = s.candS := by rw [appendAll_frame]
@[simp] theorem State.appendAll_candM : (s.appendAll bytes).candM = s.candM := by rw [appendAll_frame]
@[simp] theorem State.appendAll_estate : (s.appendAll bytes).estate = s.estate := by rw [appendAll_frame]
@[simp] theorem State.appendAll_mode : (s.appendAll bytes).mode = s.mode := by rw [appendAll_frame]
@[simp] theorem State.appendAll_res : (s.appendAll bytes).res = s.res := by rw [appendAll_frame]
@[simp] theorem State.appendAll_done : (s.appendAll bytes).done = s.done := by rw [appendAll_frame]
@[simp] theorem State.appendAll_faulted : (s.appendAll bytes).faulted = s.faulted := by rw [appendAll_frame]
@[simp] theorem State.appendAll_fcode : (s.appendAll bytes).fcode = s.fcode := by rw [appendAll_frame]
@[simp] theorem State.appendAll_faddr : (s.appendAll bytes).faddr = s.faddr := by rw [appendAll_frame]
@[simp] theorem State.appendAll_fval : (s.appendAll bytes).fval = s.fval := by rw [appendAll_frame]
@[simp] theorem State.appendAll_pending : (s.appendAll bytes).pending = s.pending := by rw [appendAll_frame]
@[simp] theorem State.appendAll_inp : (s.appendAll bytes).inp = s.inp := by rw [appendAll_frame]
@[simp] theorem State.appendAll_out : (s.appendAll bytes).out = s.out := by rw [appendAll_frame]
@[simp] theorem State.appendAll_host : (s.appendAll bytes).host = s.host := by rw [appendAll_frame]
@[simp] theorem State.appendAll_draws : (s.appendAll bytes).draws = s.draws := by rw [appendAll_frame]
@[simp] theorem State.appendAll_params : (s.appendAll bytes).params = s.params := by rw [appendAll_frame]

end

/-- A slot after appends: the last append that reached it, or what it held (R136). The appended byte `j` (of `n`) stands at
`cur + j`. -/
theorem State.slot_appendAll_snoc {s : State} (h : s.win.wf) (bytes : List Byte) (b : Byte) (i : Slot) :
    (s.appendAll (bytes ++ [b])).slot i =
      if i = s.cur + BitVec.ofNat 12 bytes.length then b else (s.appendAll bytes).slot i := by
  rw [State.appendAll_append]
  simp only [State.appendAll_cons, State.appendAll_nil]
  rw [State.slot_append (State.appendAll_wf bytes h), State.appendAll_cur]

/-- A slot after at most 4096 appends: the appended byte that reached it, or what it held (R136). -/
theorem State.slot_appendAll {s : State} (h : s.win.wf) (bytes : List Byte) (hn : bytes.length ≤ Config.winSize)
    (i : Slot) :
    (s.appendAll bytes).slot i =
      if (i - s.cur).toNat < bytes.length then bytes.getD (i - s.cur).toNat 0 else s.slot i := by
  induction bytes using List.reverseRecOn with
  | nil => simp
  | append_singleton xs b ih =>
    rw [List.length_append, List.length_singleton] at hn
    have hx : xs.length < 4096 := by simp only [Config.winSize] at hn; omega
    rw [State.slot_appendAll_snoc h, ih (by omega)]
    have key : i = s.cur + BitVec.ofNat 12 xs.length ↔ (i - s.cur).toNat = xs.length := by
      constructor
      · rintro rfl
        rw [BitVec.add_comm, BitVec.add_sub_cancel, BitVec.toNat_ofNat]
        exact Nat.mod_eq_of_lt hx
      · intro he
        rw [← he, BitVec.ofNat_toNat, BitVec.setWidth_eq, BitVec.add_comm, BitVec.sub_add_cancel]
    by_cases hi : i = s.cur + BitVec.ofNat 12 xs.length
    · have := key.1 hi
      simp only [if_pos hi, List.length_append, List.length_singleton, this, Nat.lt_add_one, if_true]
      simp [List.getD_eq_getElem?_getD]
    · have hne := fun he => hi (key.2 he)
      simp only [if_neg hi, List.length_append, List.length_singleton]
      by_cases hlt : (i - s.cur).toNat < xs.length
      · rw [if_pos hlt, if_pos (Nat.lt_succ_of_lt hlt), List.getD_eq_getElem?_getD, List.getD_eq_getElem?_getD,
          List.getElem?_append_left hlt]
      · rw [if_neg hlt, if_neg (fun h' => hne (Nat.le_antisymm (Nat.le_of_lt_succ h') (Nat.le_of_not_lt hlt)))]

/-! The stream read. -/

/-- The stream read at the end of `IN`: fault entry, and nothing of the rest of the rule (R64, R321). -/
theorem State.inRead_end {s : State} (h : s.inp.length ≤ s.inPtr.toNat) (k : Byte → State → State) :
    s.inRead k = s.raiseFault (.endOfInput s.inPtr) := by
  simp [State.inRead, State.input, List.getElem?_eq_none h]

/-- The stream read of a byte that exists (R64). -/
theorem State.inRead_byte {s : State} {b : Byte} (h : s.inp[s.inPtr.toNat]? = some b) (k : Byte → State → State) :
    s.inRead k = k b s.advanceIn := by
  simp [State.inRead, State.input, h]

/-- The two cases of the stream read. -/
theorem State.inRead_cases (s : State) (k : Byte → State → State) :
    (s.inp.length ≤ s.inPtr.toNat ∧ s.inRead k = s.raiseFault (.endOfInput s.inPtr)) ∨
    (s.inPtr.toNat < s.inp.length ∧ ∃ b, s.inp[s.inPtr.toNat]? = some b ∧ s.inRead k = k b s.advanceIn) := by
  by_cases h : s.inp.length ≤ s.inPtr.toNat
  · exact .inl ⟨h, s.inRead_end h k⟩
  · have h' : s.inPtr.toNat < s.inp.length := by omega
    exact .inr ⟨h', s.inp[s.inPtr.toNat], List.getElem?_eq_getElem h', s.inRead_byte (List.getElem?_eq_getElem h') k⟩

/-! The replay copy. -/

@[simp] theorem State.copyBytes_zero (s : State) : State.copyBytes 0 s = s := rfl

@[simp] theorem State.copyBytes_succ (k : Nat) (s : State) : State.copyBytes (k + 1) s = State.copyBytes k s.copyByte := rfl

/-- One replay byte, field by field (R199). -/
theorem State.copyByte_eq (s : State) :
    s.copyByte =
      { s with
        win := (s.append (s.slot s.refOff)).win
        cur := s.cur + 1
        out := s.out ++ [s.slot s.refOff]
        refOff := s.refOff + 1
        refCnt := s.refCnt - 1
        rem := s.rem - 1
        dstate := if s.refCnt - 1 = 0 then .loop else .copy } := rfl

end Sys2Proof.Machine
end

