-- ==== Sys2Proof/Laws/MatchFinder.lean ====
section
/-! SUPPORT. What the match finder's functions answer: the count, the probe, the simulated window, the candidates, the
selection and the search. -/

namespace Sys2Proof.Machine

/-! The count (R241). -/

theorem countFrom_eq (m : Memory) (b : Byte) (start len : Nat) :
    countFrom m b start len = (List.range' start len).countP (fun i => decide (m.read i = b)) := by
  induction len with
  | zero => rfl
  | succ n ih =>
    rw [countFrom, ih, List.range'_concat, List.countP_append]
    by_cases h : m.read (start + n) = b <;> simp [h, Nat.add_comm]

theorem countRows_eq (m : Memory) (b : Byte) (rows : Nat) :
    countRows m b rows = (List.range' 0 (64 * rows)).countP (fun i => decide (m.read i = b)) := by
  induction rows with
  | zero => rfl
  | succ n ih =>
    rw [countRows, ih, countFrom_eq, show 64 * (n + 1) = 64 * n + 64 by omega, ← List.range'_append_1,
      List.countP_append, Nat.add_comm]
    simp

/-- The count is the number of slots that hold the byte (R241). -/
theorem State.count_eq (s : State) (b : Byte) :
    s.count b = (List.range Config.winSize).countP (fun i => decide (s.win.read i = b)) := by
  rw [State.count, countRows_eq, List.range_eq_range']

theorem State.count_le (s : State) (b : Byte) : s.count b ≤ Config.winSize := by
  rw [State.count_eq]
  exact List.countP_le_length.trans (by simp)

/-- The count is 0 exactly when no slot holds the byte (R241). -/
theorem State.count_eq_zero {s : State} {b : Byte} : s.count b = 0 ↔ ∀ i : Slot, s.slot i ≠ b := by
  rw [State.count_eq, List.countP_eq_zero]
  constructor
  · intro h i hi
    exact h i.toNat (List.mem_range.2 i.isLt) (by simpa [State.slot] using hi)
  · intro h k hk
    have hk' : k < 2 ^ 12 := List.mem_range.1 hk
    have := h (BitVec.ofNat 12 k)
    rw [State.slot, BitVec.toNat_ofNat, Nat.mod_eq_of_lt hk'] at this
    simpa using this

/-! The probe (R243). -/

/-- Everything the probe's loop says: it never goes back, never past the cap or the end of the input, every byte it counts
matched, and it stopped for a reason. -/
theorem State.probeFrom_spec (s : State) (start : Slot) (p fuel m : Nat) :
    m ≤ s.probeFrom start p m fuel ∧
    s.probeFrom start p m fuel ≤ m + fuel ∧
    (∀ k, m ≤ k → k < s.probeFrom start p m fuel →
      p + k < s.inp.length ∧ s.simwin p (start + BitVec.ofNat 12 k) k = s.inputAt (p + k)) ∧
    (s.probeFrom start p m fuel = m + fuel ∨ s.inp.length ≤ p + s.probeFrom start p m fuel ∨
      s.simwin p (start + BitVec.ofNat 12 (s.probeFrom start p m fuel)) (s.probeFrom start p m fuel) ≠
        s.inputAt (p + s.probeFrom start p m fuel)) := by
  induction fuel generalizing m with
  | zero => exact ⟨le_rfl, le_rfl, fun k h1 h2 => absurd h2 (by simp [State.probeFrom]; omega), .inl rfl⟩
  | succ n ih =>
    rw [State.probeFrom]
    by_cases h1 : p + m < s.inp.length
    · rw [if_pos h1]
      by_cases h2 : s.simwin p (start + BitVec.ofNat 12 m) m = s.inputAt (p + m)
      · rw [if_pos h2]
        obtain ⟨a, b, c, d⟩ := ih (m + 1)
        refine ⟨by omega, by omega, fun k hk hk' => ?_, ?_⟩
        · rcases Nat.lt_or_eq_of_le hk with hk | rfl
          · exact c k hk hk'
          · exact ⟨h1, h2⟩
        · rcases d with d | d
          · exact .inl (by omega)
          · exact .inr d
      · rw [if_neg h2]
        exact ⟨le_rfl, by omega, fun k h h' => absurd h' (by omega), .inr (.inr h2)⟩
    · rw [if_neg h1]
      exact ⟨le_rfl, by omega, fun k h h' => absurd h' (by omega), .inr (.inl (by omega))⟩

/-- The probe never exceeds the cap (R252). -/
theorem State.probe_le (s : State) (start : Slot) (p : Nat) : s.probe start p ≤ s.params.maxMatch := by
  simpa [State.probe] using (s.probeFrom_spec start p s.params.maxMatch 0).2.1

/-- Every byte the probe counts exists and equals the simulated window (R243). -/
theorem State.probe_matches (s : State) (start : Slot) (p : Nat) {k : Nat} (h : k < s.probe start p) :
    p + k < s.inp.length ∧ s.simwin p (start + BitVec.ofNat 12 k) k = s.inputAt (p + k) :=
  (s.probeFrom_spec start p s.params.maxMatch 0).2.2.1 k (Nat.zero_le k) h

/-- The probe stops at the cap, at the end of the input or at a mismatch (R243). -/
theorem State.probe_stops (s : State) (start : Slot) (p : Nat) :
    s.probe start p = s.params.maxMatch ∨ s.inp.length ≤ p + s.probe start p ∨
      s.simwin p (start + BitVec.ofNat 12 (s.probe start p)) (s.probe start p) ≠ s.inputAt (p + s.probe start p) := by
  simpa [State.probe] using (s.probeFrom_spec start p s.params.maxMatch 0).2.2.2

/-- A probe never covers bytes past the end of the input (R252). -/
theorem State.probe_in_input (s : State) (start : Slot) (p : Nat) :
    s.probe start p = 0 ∨ p + s.probe start p ≤ s.inp.length := by
  by_cases h : s.probe start p = 0
  · exact .inl h
  · have := (s.probe_matches start p (k := s.probe start p - 1) (by omega)).1
    exact .inr (by omega)

/-- The simulated window is the window after the appends of the matched input bytes (R243). -/
theorem State.simwin_eq {s : State} (h : s.win.wf) {p k : Nat} (hp : p + k ≤ s.inp.length) (hk : k ≤ Config.winSize)
    (j : Slot) : s.simwin p j k = (s.appendAll ((s.inp.drop p).take k)).slot j := by
  have hlen : ((s.inp.drop p).take k).length = k := by simp; omega
  rw [State.slot_appendAll h _ (by omega), hlen, State.simwin]
  split
  · rename_i ht
    rw [State.inputAt, List.getD_eq_getElem?_getD, List.getD_eq_getElem?_getD, List.getElem?_take, if_pos ht,
      List.getElem?_drop]
  · rfl

/-! The selection (R253 to R255). -/

theorem firstBest_mem {α : Type} (better : α → α → Bool) (best : α) (l : List α) :
    firstBest better best l ∈ best :: l := by
  induction l generalizing best with
  | nil => simp [firstBest]
  | cons x rest ih =>
    rw [firstBest]
    split
    · exact List.mem_cons_of_mem _ (ih x)
    · rcases List.mem_cons.1 (ih best) with h | h
      · rw [h]; simp
      · simp [h]

/-- For a strict order, no element is better than the first best one. -/
theorem firstBest_least {α : Type} (better : α → α → Bool) (irrefl : ∀ a, better a a = false)
    (asymm : ∀ a b, better a b = true → better b a = false)
    (trans : ∀ a b c, better a b = false → better b c = false → better a c = false) (best : α) (l : List α) :
    ∀ x ∈ best :: l, better x (firstBest better best l) = false := by
  induction l generalizing best with
  | nil =>
    intro x hx
    rw [List.mem_singleton.1 hx]
    exact irrefl best
  | cons y rest ih =>
    intro x hx
    rw [List.mem_cons, List.mem_cons] at hx
    rw [firstBest]
    split
    · rename_i hy
      rcases hx with rfl | rfl | hx
      · exact trans _ _ _ (asymm _ _ hy) (ih y y (by simp))
      · exact ih _ _ (by simp)
      · exact ih _ _ (by simp [hx])
    · rename_i hy
      rcases hx with rfl | rfl | hx
      · exact ih _ _ (by simp)
      · exact trans _ _ _ (by simpa using hy) (ih best best (by simp))
      · exact ih _ _ (by simp [hx])

theorem rankSums_length (C : List Candidate) : (rankSums C).length = C.length := by simp [rankSums]

theorem rankSums_getElem? (C : List Candidate) (j : Nat) :
    (rankSums C)[j]? = C[j]?.map fun c => (c, lengthRank C j c + j) := by
  simp [rankSums, List.getElem?_mapIdx]

/-- A policy answers nothing exactly for the empty list. -/
theorem select_nil (policy : SelectPolicy) : select policy [] = none := by
  cases policy <;> simp [select, selectRankSum, rankSums, selectLongest, selectNearest, selectOther]

/-- A policy answers a member of the list (R253). -/
theorem select_mem {policy : SelectPolicy} {C : List Candidate} {c : Candidate} (h : select policy C = some c) : c ∈ C := by
  cases policy with
  | rankSum =>
    simp only [select, selectRankSum] at h
    split at h
    · simp at h
    · rename_i x rest hr
      obtain rfl := by simpa using h
      have hm := firstBest_mem (fun a b => decide (a.2 < b.2)) x rest
      rw [← hr] at hm
      obtain ⟨j, hj⟩ := List.mem_iff_getElem?.1 hm
      rw [rankSums_getElem?] at hj
      obtain ⟨c, hc, he⟩ := Option.map_eq_some_iff.1 hj
      rw [← he]
      exact List.mem_of_getElem? hc
  | longest =>
    cases C with
    | nil => simp [select, selectLongest] at h
    | cons x rest =>
      obtain rfl := by simpa [select, selectLongest] using h
      exact firstBest_mem _ _ _
  | nearest =>
    cases C with
    | nil => simp [select, selectNearest] at h
    | cons x rest =>
      obtain rfl := by simpa [select, selectNearest] using h
      exact firstBest_mem _ _ _
  | other k => exact List.mem_of_getElem? h

/-- A policy answers for every list that is not empty (R253). -/
theorem select_isSome (policy : SelectPolicy) {C : List Candidate} (h : C ≠ []) : (select policy C).isSome = true := by
  have hpos : 0 < C.length := List.length_pos_iff.2 h
  cases policy with
  | rankSum =>
    simp only [select, selectRankSum]
    split
    · rename_i hr
      have := rankSums_length C
      rw [hr] at this
      simp at this
      omega
    · rfl
  | longest => cases C <;> simp_all [select, selectLongest]
  | nearest => cases C <;> simp_all [select, selectNearest]
  | other k =>
    simp only [select, selectOther, Option.isSome_iff_exists]
    exact ⟨_, List.getElem?_eq_getElem (Nat.mod_lt _ hpos)⟩

/-! Candidates and search (R246, R247). -/

/-- What a candidate is. -/
theorem State.mem_cands {s : State} {p : Nat} {c : Candidate} :
    c ∈ s.cands p ↔ ∃ d ∈ scanDistances s.params.scan,
      c = ⟨d, s.slotAtDistance d, s.probe (s.slotAtDistance d) p⟩ ∧
      s.slot (s.slotAtDistance d) = s.inputAt p ∧ Config.minMatch ≤ s.probe (s.slotAtDistance d) p := by
  simp only [State.cands, List.mem_filterMap, State.candidateAt]
  constructor
  · rintro ⟨d, hd, h⟩
    split at h
    · split at h
      · exact ⟨d, hd, by simpa using h.symm, ‹_›, ‹_›⟩
      · simp at h
    · simp at h
  · rintro ⟨d, hd, rfl, h1, h2⟩
    exact ⟨d, hd, by simp [h1, h2]⟩

/-- A candidate's count is between 3 and the cap, inside the input, and is its slot's probe (R240, R252). -/
theorem State.cands_bounds {s : State} {p : Nat} {c : Candidate} (h : c ∈ s.cands p) :
    c.m = s.probe c.s p ∧ Config.minMatch ≤ c.m ∧ c.m ≤ s.params.maxMatch ∧ p + c.m ≤ s.inp.length := by
  obtain ⟨d, -, rfl, -, h2⟩ := State.mem_cands.1 h
  refine ⟨rfl, h2, s.probe_le _ _, ?_⟩
  rcases s.probe_in_input (s.slotAtDistance d) p with h0 | h0
  · simp only [Config.minMatch] at h2; omega
  · exact h0

/-- A search answers a candidate of the list (R247). -/
theorem State.find_mem {s : State} {p : Nat} {c : Candidate} (h : s.find p = some c) : p < s.inp.length ∧ c ∈ s.cands p := by
  simp only [State.find] at h
  split at h
  · split at h
    · simp at h
    · exact ⟨‹_›, select_mem h⟩
  · simp at h

/-- The count only gates the scan: where it is 0 there is no candidate (R241). -/
theorem State.cands_eq_nil_of_count {s : State} {p : Nat} (h : s.count (s.inputAt p) = 0) : s.cands p = [] := by
  rw [List.eq_nil_iff_forall_not_mem]
  intro c hc
  obtain ⟨d, -, -, h1, -⟩ := State.mem_cands.1 hc
  exact State.count_eq_zero.1 h _ h1

/-- The search without the count step (R241, R247). -/
theorem State.find_eq (s : State) (p : Nat) :
    s.find p = if p < s.inp.length then select s.params.select (s.cands p) else none := by
  simp only [State.find]
  split
  · split
    · rw [State.cands_eq_nil_of_count ‹_›, select_nil]
    · rfl
  · rfl

/-- A search finds nothing exactly when there is no input byte or no candidate (R247). -/
theorem State.find_eq_none {s : State} {p : Nat} : s.find p = none ↔ s.inp.length ≤ p ∨ s.cands p = [] := by
  rw [State.find_eq]
  split
  · by_cases hC : s.cands p = []
    · simp [hC, select_nil]
    · have := select_isSome s.params.select hC
      constructor
      · intro h; rw [h] at this; simp at this
      · rintro (h | h)
        · omega
        · exact absurd h hC
  · simp; omega

end Sys2Proof.Machine
end

