-- ==== Sys2Proof/Laws/Exec.lean ====
section
/-! SUPPORT. The rules of the state machines and the START commands, each branch as one record of the fields it writes. -/

namespace Sys2Proof.Machine

variable {s : State}

/-- A busy decoder takes the block step (R341). -/
theorem blockStep_decoder (h : s.dstate.busy = true) : blockStep s = .next s.decoderStep := by simp [blockStep, h]

/-- A busy encoder takes it when the decoder is not busy (R341). -/
theorem blockStep_encoder (h : s.dstate.busy = false) (h' : s.estate.busy = true) : blockStep s = encoderStep s := by
  simp [blockStep, h, h']

theorem State.input_eq_none {j : Nat} : s.input j = none ↔ s.inp.length ≤ j := List.getElem?_eq_none_iff

theorem State.input_eq_some {j : Nat} {b : Byte} : s.input j = some b ↔ ∃ h : j < s.inp.length, s.inp[j] = b :=
  List.getElem?_eq_some_iff

/-! The decoder. -/

/-- The sentinel over a control byte, as two bytes (R162). -/
theorem sentinel_or (c : Byte) : Config.sentinel ||| c.setWidth 16 = 0xFF#8 ++ c := by
  revert c
  decide +kernel

theorem State.controlLoad_eq (c : Byte) (s : State) :
    s.controlLoad c = { s with dflags := 0xFF#8 ++ c, dstate := .tag } := by
  rw [← sentinel_or]
  rfl

theorem State.loopHead_done (h : s.rem = 0) : s.loopHead = { s with dstate := .done, done := true } := if_pos h

theorem State.loopHead_control (h : s.rem ≠ 0) (h' : (s.dflags >>> 1).getLsbD 8 = false) :
    s.loopHead = { s with dflags := s.dflags >>> 1, dstate := .ctrl } := by
  have hn : s.shiftFlags.needControl = true := by
    rw [State.needControl, State.shiftFlags_dflags, h']
    rfl
  rw [State.loopHead, if_neg h]
  exact if_pos hn

theorem State.loopHead_tag (h : s.rem ≠ 0) (h' : (s.dflags >>> 1).getLsbD 8 = true) :
    s.loopHead = { s with dflags := s.dflags >>> 1, dstate := .tag } := by
  have hn : ¬ s.shiftFlags.needControl = true := by
    rw [State.needControl, State.shiftFlags_dflags, h']
    decide
  rw [State.loopHead, if_neg h]
  exact if_neg hn

theorem State.tagDispatch_literal (h : s.dflags.getLsbD 0 = true) : s.tagDispatch = { s with dstate := .lit } := if_pos h

theorem State.tagDispatch_backref (h : s.dflags.getLsbD 0 = false) : s.tagDispatch = { s with dstate := .ref0 } :=
  if_neg (by rw [State.tagBit, h]; decide)

/-- The replay count is the nibble plus 3, without wrapping (R96). -/
theorem replayCount_toNat (n : BitVec 4) : (replayCount n).toNat = n.toNat + 3 := by
  revert n
  decide

theorem replayCount_setWidth (n : BitVec 4) : (replayCount n).setWidth 16 = n.setWidth 16 + 3 := by
  revert n
  decide

/-- The nibble of a candidate gives its matched count back as the replay count (R96, R287). -/
theorem replayCount_matchNibble {m : BitVec 5} (h : 3 ≤ m.toNat) (h' : m.toNat ≤ 18) : replayCount (matchNibble m) = m := by
  revert m
  decide

theorem State.refByte1_copy {hi : Byte} (h : (brefNibble hi).toNat + 3 ≤ s.rem.toNat) :
    s.refByte1 hi =
      { s with refOff := brefOffset s.refLo hi, refCnt := replayCount (brefNibble hi), dstate := .copy } := by
  rw [State.refByte1]
  refine if_neg ?_
  rw [replayCount_toNat]
  exact Nat.not_lt.2 h

theorem State.refByte1_corrupt {hi : Byte} (h : s.rem.toNat < (brefNibble hi).toNat + 3) :
    s.refByte1 hi =
      { s with refOff := brefOffset s.refLo hi }.raiseFault (.corruptStream s.inPtr (replayCount (brefNibble hi))) := by
  rw [State.refByte1]
  refine if_pos ?_
  rw [replayCount_toNat]
  exact h

/-- A literal byte, field by field (R196). -/
theorem State.literalByte_eq (b : Byte) (s : State) :
    s.literalByte b =
      { s with win := (s.append b).win, cur := s.cur + 1, out := s.out ++ [b], rem := s.rem - 1, dstate := .loop } := rfl

/-- DEC.START, field by field (R190). -/
theorem execDecStart_eq (s : State) :
    execDecStart s = .next
      { s with
        win := [], cur := Config.initCursor, dflags := 0, rem := 0, refLo := 0, refOff := 0, refCnt := 0, inPtr := 0
        dstate := .hdr0, estate := .idle, mode := 0, done := false, faulted := false, fcode := 0, faddr := 0, fval := 0 } :=
  rfl

/-! The encoder. -/

/-- ENC.START of an input that is too long, field by field (R280). -/
theorem execEncStart_long (h : 65535 < s.inp.length) :
    execEncStart s = .next
      { s with
        mode := 1, dstate := .idle, estate := .fault, done := false, faulted := true, fcode := 3
        faddr := BitVec.ofNat 32 s.inp.length, fval := 0 } := by
  rw [execEncStart]
  exact if_pos h

/-- ENC.START, field by field (R280). -/
theorem execEncStart_eq (h : s.inp.length ≤ 65535) :
    execEncStart s = .next
      { s with
        win := [], cur := Config.initCursor, etag := 0, ecnt := 0, hdrN := BitVec.ofNat 16 s.inp.length, epos := 0
        erem := BitVec.ofNat 16 s.inp.length, toklen := 0, groups := 0, candS := 0, candM := 0, estate := .hdr0
        dstate := .idle, mode := 1, done := false, faulted := false, fcode := 0, faddr := 0, fval := 0 } := by
  rw [execEncStart]
  exact if_neg (Nat.not_lt.2 h)

theorem State.bufferRoom_iff {k : Nat} : s.bufferRoom k = true ↔ s.toklen.toNat + k ≤ 16 := by
  simp [State.bufferRoom, Config.tokbufSize]

theorem State.flushGroup_eq (s : State) :
    s.flushGroup =
      { s with
        etag := 0, ecnt := 0, toklen := 0, groups := s.groups + 1
        out := s.out ++ s.controlByte :: s.tokbuf.toList.take s.toklen.toNat } := by
  simp [State.flushGroup, State.clearTags, State.emit, State.emitAll]

theorem encFlush_eq (h : s.toklen.toNat ≤ 16) :
    encFlush s = .next
      { s with
        etag := 0, ecnt := 0, toklen := 0, groups := s.groups + 1
        out := s.out ++ s.controlByte :: s.tokbuf.toList.take s.toklen.toNat
        estate := .search } := by
  rw [encFlush, if_pos (State.bufferRoom_iff.2 h), State.flushGroup_eq]

theorem encFinal_empty (h : s.ecnt = 0) : encFinal s = .next { s with estate := .done, done := true } := if_pos h

theorem encFinal_eq (h : s.ecnt ≠ 0) (h' : s.toklen.toNat ≤ 16) :
    encFinal s = .next
      { s with
        etag := 0, ecnt := 0, toklen := 0, groups := s.groups + 1
        out := s.out ++ s.controlByte :: s.tokbuf.toList.take s.toklen.toNat
        estate := .done
        done := true } := by
  rw [encFinal, if_neg h, if_pos (State.bufferRoom_iff.2 h'), State.flushGroup_eq]

theorem encSearch_none (h : s.searchResult = none) : encSearch s = .next { s with estate := .lit } := by
  rw [encSearch, h]

theorem encSearch_some {c : Candidate} (h : s.searchResult = some c) :
    encSearch s = .next { s with candS := c.s, candM := BitVec.ofNat 5 c.m, estate := .ref } := by
  rw [encSearch, h]

/-- What the search answers (R285, R247). -/
theorem State.searchResult_eq (s : State) :
    s.searchResult =
      if s.groups ≠ 0 ∧ s.epos.toNat < s.inp.length then select s.params.select (s.cands s.epos.toNat) else none := by
  have hg : Config.warmupGroups ≤ s.groups.toNat ↔ s.groups ≠ 0 := by
    rw [ne_eq, ← BitVec.toNat_inj]
    exact Nat.one_le_iff_ne_zero
  unfold State.searchResult
  simp only [hg]
  by_cases h : s.groups ≠ 0
  · rw [if_pos h, State.find_eq]
    simp only [h, ne_eq, not_false_eq_true, true_and]
  · rw [if_neg h, if_neg fun h' => h h'.1]

/-- A literal token, field by field (R286). -/
theorem encLit_eq {b : Byte} (h : s.input s.epos.toNat = some b) (h' : s.toklen.toNat < 16) :
    encLit s = .next
      { s with
        win := (s.append b).win, cur := s.cur + 1, etag := 1#1 ++ s.etag.extractLsb' 1 7, ecnt := s.ecnt + 1
        tokbuf := s.tokbuf.setIfInBounds s.toklen.toNat b, toklen := s.toklen + 1, epos := s.epos + 1
        erem := s.erem - 1, estate := .loop } := by
  rw [encLit, h]
  exact if_pos (State.bufferRoom_iff.2 h')

/-- The matched bytes, when all of them exist (R287). -/
theorem State.matchedBytes_eq (h : s.epos.toNat + s.candM.toNat ≤ s.inp.length) :
    s.matchedBytes = some ((s.inp.drop s.epos.toNat).take s.candM.toNat) := by
  refine if_pos ?_
  rw [List.length_take, List.length_drop]
  omega

/-- A BackRef token, field by field (R287). -/
theorem encRef_eq (h : s.epos.toNat + s.candM.toNat ≤ s.inp.length) (h' : s.toklen.toNat + 2 ≤ 16) :
    encRef s = .next
      { s with
        win := (s.appendAll ((s.inp.drop s.epos.toNat).take s.candM.toNat)).win
        cur := (s.appendAll ((s.inp.drop s.epos.toNat).take s.candM.toNat)).cur
        etag := 0#1 ++ s.etag.extractLsb' 1 7, ecnt := s.ecnt + 1
        tokbuf := (s.tokbuf.setIfInBounds s.toklen.toNat (brefByte0 s.candS)).setIfInBounds (s.toklen + 1).toNat
          (brefByte1 s.candS (matchNibble s.candM))
        toklen := s.toklen + 1 + 1, epos := s.epos + s.candM.setWidth 32, erem := s.erem - s.candM.setWidth 16
        estate := .loop } := by
  rw [encRef, State.matchedBytes_eq h]
  dsimp only
  rw [if_pos (State.bufferRoom_iff.2 h'), State.appendAll_frame]
  refine congrArg Host.Outcome.next ?_
  obtain ⟨hw, hc⟩ := State.appendAll_congr ((s.inp.drop s.epos.toNat).take s.candM.toNat)
    (s := ((s.pushTag 0).bufferByte (brefByte0 s.candS)).bufferByte (brefByte1 s.candS (matchNibble s.candM)))
    (t := s) rfl rfl
  rw [hw, hc]
  rfl

/-! The token buffer. -/

/-- A byte written at the end of the held part extends it (R32). -/
theorem take_setIfInBounds (v : Vector Byte 16) {n : Nat} (b : Byte) (h : n < 16) :
    (v.setIfInBounds n b).toList.take (n + 1) = v.toList.take n ++ [b] := by
  have hl : n < v.toList.length := by simpa using h
  rw [Vector.toList_setIfInBounds, List.take_add_one, List.take_set_of_le (Nat.le_refl n),
    List.getElem?_set_self hl]
  rfl

/-- The part before it stays. -/
theorem take_setIfInBounds_of_le (v : Vector Byte 16) {k n : Nat} (b : Byte) (h : k ≤ n) :
    (v.setIfInBounds n b).toList.take k = v.toList.take k := by
  rw [Vector.toList_setIfInBounds, List.take_set_of_le h]

end Sys2Proof.Machine
end

