-- ==== Sys2Proof/Laws/Step.lean ====
section
/-! SUPPORT. What one step can do: the host's next command is offered, then one of the possible moves is taken. -/

namespace Sys2Proof.Machine

/-- The offer changes the pending command and the host's list only. -/
theorem State.offer_frame (s : State) : s.offer = { s with pending := s.offer.pending, host := s.offer.host } := by
  unfold State.offer
  split <;> rfl

/-- With a command pending the host presents nothing more (R341). -/
theorem State.offer_of_pending {s : State} {w : CmdWord} (h : s.pending = some w) : s.offer = s := by
  unfold State.offer
  split
  · simp_all
  · rfl

/-- With no command pending the host's next command becomes the pending one (R341). -/
theorem State.offer_of_command {s : State} {w : CmdWord} {rest : List HostEvent} (h : s.pending = none)
    (hh : s.host = .command w :: rest) : s.offer = { s with pending := some w, host := rest } := by
  simp [State.offer, h, hh]

/-- With an empty list the host presents nothing. -/
theorem State.offer_of_nil {s : State} (hh : s.host = []) : s.offer = s := by
  unfold State.offer
  split
  · simp_all
  · rfl

/-- What a turn is: nothing where no move is possible; else one of the possible moves, with the draws counted. -/
theorem takeTurn_cases (s : State) :
    (s.turns = [] ∧ takeTurn s = .next s) ∨
    (∃ t ∈ s.turns, ∃ d, takeTurn s = runTurn t { s with draws := d }) := by
  unfold takeTurn
  split
  · exact .inl ⟨‹_›, rfl⟩
  · rename_i t h
    exact .inr ⟨t, by simp [h], s.draws, rfl⟩
  · rename_i t u rest h
    have hlt : Config.schedulerDraw s.draws % (rest.length + 2) < (t :: u :: rest).length := by
      simpa using Nat.mod_lt _ (Nat.succ_pos _)
    refine .inr ⟨_, ?_, s.draws + 1, rfl⟩
    rw [h, List.getD_eq_getElem?_getD, List.getElem?_eq_getElem hlt]
    exact List.getElem_mem hlt

/-- A single possible move is taken without a draw. -/
theorem takeTurn_single {s : State} {t : Turn} (h : s.turns = [t]) : takeTurn s = runTurn t s := by
  simp [takeTurn, h]

/-- When each move can be made (R341, R360). -/
theorem State.mem_turns {s : State} {t : Turn} :
    t ∈ s.turns ↔ match t with
      | .reset => s.host.head? = some .reset
      | .present bytes => s.host.head? = some (.present bytes) ∧ s.pending = none
      | .proceed => s.host.head? = some .awaitIdle ∧ s.pending = none ∧ s.busy = false
      | .accept w => s.pending = some w ∧ (s.busy = true → acceptedWhileBusy w = true)
      | .block => s.busy = true := by
  simp only [State.turns, List.mem_append]
  have hE : ∀ t, t ∈ s.eventTurns ↔ match t with
      | .reset => s.host.head? = some .reset
      | .present bytes => s.host.head? = some (.present bytes) ∧ s.pending = none
      | .proceed => s.host.head? = some .awaitIdle ∧ s.pending = none ∧ s.busy = false
      | _ => False := by
    intro t
    unfold State.eventTurns
    cases hh : s.host with
    | nil => cases t <;> simp
    | cons e rest =>
      cases e <;> cases t <;> cases hp : s.pending <;> cases hb : s.busy <;> simp [eq_comm]
  have hA : ∀ t, t ∈ s.acceptTurns ↔ ∃ w, t = .accept w ∧ s.pending = some w ∧
      (s.busy = true → acceptedWhileBusy w = true) := by
    intro t
    unfold State.acceptTurns
    cases hp : s.pending with
    | none => simp
    | some w => cases hb : s.busy <;> cases ha : acceptedWhileBusy w <;> simp_all
  have hB : ∀ t, t ∈ s.blockTurns ↔ t = .block ∧ s.busy = true := by
    intro t
    unfold State.blockTurns
    cases hb : s.busy <;> simp
  rw [hE, hA, hB]
  cases t <;> simp

/-- In a quiet state only the block can move. -/
theorem step_quiet {s : State} (hp : s.pending = none) (hh : s.host = []) :
    step s = if s.busy then blockStep s else .next s := by
  have hturns : s.turns = if s.busy then [.block] else [] := by
    simp [State.turns, State.eventTurns, State.acceptTurns, State.blockTurns, hp, hh]
  rw [step, State.offer_of_nil hh]
  cases hb : s.busy
  · simp [takeTurn, hturns, hb]
  · rw [takeTurn_single (by rw [hturns, hb]; rfl)]
    rfl

/-- A step is the identity, or one possible move on the state with the offer made and the draws counted. -/
theorem step_cases (s : State) :
    (s.offer.turns = [] ∧ step s = .next s.offer) ∨
    (∃ t ∈ s.offer.turns, ∃ d, step s = runTurn t { s.offer with draws := d }) := takeTurn_cases s.offer

end Sys2Proof.Machine
end

