-- ==== Sys2Proof/Laws/Frame.lean ====
section
/-! SUPPORT. What a command, a block step and a move leave alone: the host's side, the parameters, and all of the window but what
is appended. -/

namespace Sys2Proof.Machine

/-- What every command and block step keeps: the host's own fields, the parameters, and every byte emitted so far. -/
structure KeepsHost (s t : State) : Prop where
  pending : t.pending = s.pending
  host : t.host = s.host
  draws : t.draws = s.draws
  inp : t.inp = s.inp
  params : t.params = s.params
  out : s.out <+: t.out

/-- What every command and block step does to the window: the initial fill, or some appends at the cursor (R63). -/
def WindowGrows (s t : State) : Prop :=
  t.win = [] ∧ t.cur = Config.initCursor ∨
    ∃ bytes : List Byte, bytes.length ≤ 31 ∧ t.win = (s.appendAll bytes).win ∧ t.cur = (s.appendAll bytes).cur

theorem KeepsHost.refl (s : State) : KeepsHost s s := ⟨rfl, rfl, rfl, rfl, rfl, List.prefix_refl _⟩

theorem WindowGrows.same {s t : State} (hw : t.win = s.win) (hc : t.cur = s.cur) : WindowGrows s t :=
  .inr ⟨[], by simp, hw, hc⟩

theorem WindowGrows.one {s t : State} (b : Byte) (hw : t.win = (s.append b).win) (hc : t.cur = s.cur + 1) :
    WindowGrows s t := .inr ⟨[b], by simp, hw, hc⟩

/-- A command ends in a next state (R341, R330). -/
theorem exec_command (i : Instr) (s : State)
    (h : (∀ n, i ≠ .hdr n) ∧ (∀ v, i ≠ .ctrl v) ∧ (∀ b, i ≠ .lit b) ∧ ∀ off n, i ≠ .bref off n) :
    ∃ t, exec i s = .next t ∧ KeepsHost s t ∧ WindowGrows s t := by
  have hset : ∀ v, KeepsHost s (s.setRes v) ∧ WindowGrows s (s.setRes v) := fun v =>
    ⟨⟨rfl, rfl, rfl, rfl, rfl, List.prefix_refl _⟩, .same rfl rfl⟩
  cases i with
  | nop => exact ⟨s, rfl, .refl s, .same rfl rfl⟩
  | swbInit => exact ⟨_, rfl, ⟨rfl, rfl, rfl, rfl, rfl, List.prefix_refl _⟩, .inl ⟨rfl, rfl⟩⟩
  | swbAppend b => exact ⟨_, rfl, ⟨rfl, rfl, rfl, rfl, rfl, List.prefix_refl _⟩, .one b rfl rfl⟩
  | swbGet slot => exact ⟨_, rfl, hset _⟩
  | swbCursor => exact ⟨_, rfl, hset _⟩
  | swbReplay slot => exact ⟨_, rfl, ⟨rfl, rfl, rfl, rfl, rfl, List.prefix_refl _⟩, .one (s.slot slot) rfl rfl⟩
  | cfcDClear => exact ⟨_, rfl, ⟨rfl, rfl, rfl, rfl, rfl, List.prefix_refl _⟩, .same rfl rfl⟩
  | cfcDShift => exact ⟨_, rfl, ⟨rfl, rfl, rfl, rfl, rfl, List.prefix_refl _⟩, .same rfl rfl⟩
  | cfcDLoad c => exact ⟨_, rfl, ⟨rfl, rfl, rfl, rfl, rfl, List.prefix_refl _⟩, .same rfl rfl⟩
  | cfcDTag => exact ⟨_, rfl, hset _⟩
  | cfcEClear => exact ⟨_, rfl, ⟨rfl, rfl, rfl, rfl, rfl, List.prefix_refl _⟩, .same rfl rfl⟩
  | cfcEPush t ignored =>
    by_cases he : s.ecnt = 8
    · exact ⟨_, if_pos he, ⟨rfl, rfl, rfl, rfl, rfl, List.prefix_refl _⟩, .same rfl rfl⟩
    · exact ⟨_, if_neg he, ⟨rfl, rfl, rfl, rfl, rfl, List.prefix_refl _⟩, .same rfl rfl⟩
  | cfcEFlush => exact ⟨_, rfl, ⟨rfl, rfl, rfl, rfl, rfl, List.prefix_refl _⟩, .same rfl rfl⟩
  | decStart => exact ⟨_, rfl, ⟨rfl, rfl, rfl, rfl, rfl, List.prefix_refl _⟩, .inl ⟨rfl, rfl⟩⟩
  | encStart =>
    by_cases hl : s.inp.length ≤ 65535
    · exact ⟨_, execEncStart_eq hl, ⟨rfl, rfl, rfl, rfl, rfl, List.prefix_refl _⟩, .inl ⟨rfl, rfl⟩⟩
    · exact ⟨_, execEncStart_long (Nat.lt_of_not_le hl), ⟨rfl, rfl, rfl, rfl, rfl, List.prefix_refl _⟩, .same rfl rfl⟩
  | mfCount b => exact ⟨_, rfl, hset _⟩
  | mfProbe slot => exact ⟨_, rfl, hset _⟩
  | mfFind => exact ⟨_, rfl, hset _⟩
  | mfSetpos p => exact ⟨_, rfl, ⟨rfl, rfl, rfl, rfl, rfl, List.prefix_refl _⟩, .same rfl rfl⟩
  | csrRead n ignored =>
    cases hc : s.csr n with
    | some v => exact ⟨_, by rw [exec, execCsrRead, hc], hset v⟩
    | none =>
      exact ⟨s.raiseFault _, by rw [exec, execCsrRead, hc], ⟨rfl, rfl, rfl, rfl, rfl, List.prefix_refl _⟩, .same rfl rfl⟩
  | hdr n => exact absurd rfl (h.1 n)
  | ctrl v => exact absurd rfl (h.2.1 v)
  | lit b => exact absurd rfl (h.2.2.1 b)
  | bref off n => exact absurd rfl (h.2.2.2 off n)

/-- The acceptance of a word ends in a next state (R341). -/
theorem acceptCommand_next (w : CmdWord) (s : State) :
    ∃ t, acceptCommand w s = .next t ∧ KeepsHost s t ∧ WindowGrows s t := by
  unfold acceptCommand
  cases hd : decodeCommand w with
  | ok i => exact exec_command i s (decodeCommand_ne_token hd)
  | error e => exact ⟨_, rfl, ⟨rfl, rfl, rfl, rfl, rfl, List.prefix_refl _⟩, .same rfl rfl⟩

/-- A command accepted while busy writes `RES` at most (R341). -/
theorem acceptCommand_busy {w : CmdWord} (h : acceptedWhileBusy w = true) (s : State) :
    ∃ v, acceptCommand w s = .next (s.setRes v) := by
  unfold acceptedWhileBusy at h
  unfold acceptCommand
  split at h
  · rename_i hd
    exact ⟨s.res, by rw [hd]; rfl⟩
  · rename_i n x hd
    have hn : n.toNat ≤ 10 := by simpa [csrListed] using h
    have hv : ∃ v, s.csr n = some v := by
      revert hn
      unfold State.csr
      generalize n.toNat = k
      intro hn
      have hk : k = 0 ∨ k = 1 ∨ k = 2 ∨ k = 3 ∨ k = 4 ∨ k = 5 ∨ k = 6 ∨ k = 7 ∨ k = 8 ∨ k = 9 ∨ k = 10 := by omega
      rcases hk with rfl | rfl | rfl | rfl | rfl | rfl | rfl | rfl | rfl | rfl | rfl <;> exact ⟨_, rfl⟩
    obtain ⟨v, hv⟩ := hv
    exact ⟨v, by rw [hd]; simp only [exec, execCsrRead, hv]⟩
  · cases h

/-- One block step of the decoder. -/
theorem decoderStep_frame (s : State) : KeepsHost s s.decoderStep ∧ WindowGrows s s.decoderStep := by
  have hread : ∀ k : Byte → State → State,
      (∀ b, KeepsHost s (k b s.advanceIn) ∧ WindowGrows s (k b s.advanceIn)) →
      KeepsHost s (s.inRead k) ∧ WindowGrows s (s.inRead k) := by
    intro k hk
    rcases s.inRead_cases k with ⟨-, he⟩ | ⟨-, b, -, he⟩
    · rw [he]
      exact ⟨⟨rfl, rfl, rfl, rfl, rfl, List.prefix_refl _⟩, .same rfl rfl⟩
    · rw [he]
      exact hk b
  unfold State.decoderStep
  split
  · exact hread _ fun b => ⟨⟨rfl, rfl, rfl, rfl, rfl, List.prefix_refl _⟩, .same rfl rfl⟩
  · exact hread _ fun b => ⟨⟨rfl, rfl, rfl, rfl, rfl, List.prefix_refl _⟩, .same rfl rfl⟩
  · by_cases hr : s.rem = 0
    · rw [State.loopHead_done hr]
      exact ⟨⟨rfl, rfl, rfl, rfl, rfl, List.prefix_refl _⟩, .same rfl rfl⟩
    · cases hb : (s.dflags >>> 1).getLsbD 8
      · rw [State.loopHead_control hr hb]
        exact ⟨⟨rfl, rfl, rfl, rfl, rfl, List.prefix_refl _⟩, .same rfl rfl⟩
      · rw [State.loopHead_tag hr hb]
        exact ⟨⟨rfl, rfl, rfl, rfl, rfl, List.prefix_refl _⟩, .same rfl rfl⟩
  · exact hread _ fun b => ⟨⟨rfl, rfl, rfl, rfl, rfl, List.prefix_refl _⟩, .same rfl rfl⟩
  · cases hb : s.dflags.getLsbD 0
    · rw [State.tagDispatch_backref hb]
      exact ⟨⟨rfl, rfl, rfl, rfl, rfl, List.prefix_refl _⟩, .same rfl rfl⟩
    · rw [State.tagDispatch_literal hb]
      exact ⟨⟨rfl, rfl, rfl, rfl, rfl, List.prefix_refl _⟩, .same rfl rfl⟩
  · exact hread _ fun b => ⟨⟨rfl, rfl, rfl, rfl, rfl, ⟨[b], rfl⟩⟩, .one b rfl rfl⟩
  · exact hread _ fun b => ⟨⟨rfl, rfl, rfl, rfl, rfl, List.prefix_refl _⟩, .same rfl rfl⟩
  · refine hread _ fun b => ?_
    by_cases hc : (brefNibble b).toNat + 3 ≤ s.advanceIn.rem.toNat
    · rw [State.refByte1_copy hc]
      exact ⟨⟨rfl, rfl, rfl, rfl, rfl, List.prefix_refl _⟩, .same rfl rfl⟩
    · rw [State.refByte1_corrupt (Nat.lt_of_not_le hc)]
      exact ⟨⟨rfl, rfl, rfl, rfl, rfl, List.prefix_refl _⟩, .same rfl rfl⟩
  · exact ⟨⟨rfl, rfl, rfl, rfl, rfl, ⟨[s.slot s.refOff], rfl⟩⟩, .one (s.slot s.refOff) rfl rfl⟩
  · exact ⟨.refl s, .same rfl rfl⟩
  · exact ⟨.refl s, .same rfl rfl⟩
  · exact ⟨.refl s, .same rfl rfl⟩

/-- One block step of the encoder, where it does not stop. -/
theorem encoderStep_frame {s t : State} (h : encoderStep s = .next t) : KeepsHost s t ∧ WindowGrows s t := by
  unfold encoderStep at h
  split at h
  · cases h
    exact ⟨⟨rfl, rfl, rfl, rfl, rfl, ⟨_, rfl⟩⟩, .same rfl rfl⟩
  · cases h
    exact ⟨⟨rfl, rfl, rfl, rfl, rfl, ⟨_, rfl⟩⟩, .same rfl rfl⟩
  · cases h
    exact ⟨⟨rfl, rfl, rfl, rfl, rfl, List.prefix_refl _⟩, .same rfl rfl⟩
  · unfold encFlush at h
    split at h
    · rw [State.flushGroup_eq] at h
      cases h
      exact ⟨⟨rfl, rfl, rfl, rfl, rfl, ⟨_, rfl⟩⟩, .same rfl rfl⟩
    · cases h
  · unfold encSearch at h
    split at h <;> cases h <;> exact ⟨⟨rfl, rfl, rfl, rfl, rfl, List.prefix_refl _⟩, .same rfl rfl⟩
  · unfold encLit at h
    split at h
    · cases h
    · split at h
      · cases h
        exact ⟨⟨rfl, rfl, rfl, rfl, rfl, List.prefix_refl _⟩, .one _ rfl rfl⟩
      · cases h
  · unfold encRef at h
    split at h
    · cases h
    · rename_i bytes hm
      split at h
      · rw [State.appendAll_frame] at h
        cases h
        refine ⟨⟨rfl, rfl, rfl, rfl, rfl, List.prefix_refl _⟩, .inr ⟨bytes, ?_, ?_⟩⟩
        · have hb : bytes.length = s.candM.toNat := by
            unfold State.matchedBytes at hm
            dsimp only at hm
            split at hm
            · cases hm
              assumption
            · cases hm
          have := s.candM.isLt
          omega
        · exact State.appendAll_congr bytes rfl rfl
      · cases h
  · unfold encFinal at h
    split at h
    · cases h
      exact ⟨⟨rfl, rfl, rfl, rfl, rfl, List.prefix_refl _⟩, .same rfl rfl⟩
    · split at h
      · rw [State.flushGroup_eq] at h
        cases h
        exact ⟨⟨rfl, rfl, rfl, rfl, rfl, ⟨_, rfl⟩⟩, .same rfl rfl⟩
      · cases h
  · cases h
    exact ⟨.refl s, .same rfl rfl⟩
  · cases h
    exact ⟨.refl s, .same rfl rfl⟩
  · cases h
    exact ⟨.refl s, .same rfl rfl⟩

/-- One block step, where it does not stop. -/
theorem blockStep_frame {s t : State} (h : blockStep s = .next t) : KeepsHost s t ∧ WindowGrows s t := by
  unfold blockStep at h
  split at h
  · cases h
    exact decoderStep_frame s
  · split at h
    · exact encoderStep_frame h
    · cases h
      exact ⟨.refl s, .same rfl rfl⟩

theorem State.offer_busy (s : State) : s.offer.busy = s.busy := by rw [State.offer_frame]; rfl

/-- Everything a step that does not stop can be: nothing can move, or the block steps, a word is accepted, or the host's next
event lands (R341, R360, R38, R363); `d` is the count of draws. -/
theorem step_next {s t : State} (h : step s = .next t) :
    s.offer.turns = [] ∧ t = s.offer ∨
    ∃ d,
      (s.busy = true ∧ blockStep { s.offer with draws := d } = .next t) ∨
      (∃ w, s.offer.pending = some w ∧ (s.busy = true → acceptedWhileBusy w = true) ∧
        acceptCommand w { s.offer with draws := d, pending := none } = .next t) ∨
      (s.offer.host.head? = some .reset ∧ t = State.resetEvent { s.offer with draws := d, host := s.offer.host.tail }) ∨
      (∃ bytes, s.offer.host.head? = some (.present bytes) ∧ s.busy = false ∧
        t = { s.offer with draws := d, inp := bytes, host := s.offer.host.tail }) ∨
      (s.offer.host.head? = some .awaitIdle ∧ t = { s.offer with draws := d, host := s.offer.host.tail }) := by
  rcases step_cases s with ⟨h1, h2⟩ | ⟨u, hu, d, h2⟩
  · rw [h2] at h
    cases h
    exact .inl ⟨h1, rfl⟩
  · rw [h2] at h
    refine .inr ⟨d, ?_⟩
    rw [State.mem_turns] at hu
    cases u with
    | block => exact .inl ⟨by rw [← State.offer_busy]; exact hu, h⟩
    | accept w => exact .inr (.inl ⟨w, hu.1, fun hb => hu.2 (by rw [State.offer_busy]; exact hb), h⟩)
    | reset =>
      cases h
      exact .inr (.inr (.inl ⟨hu, rfl⟩))
    | present bytes =>
      refine .inr (.inr (.inr (.inl ⟨bytes, hu.1, ?_⟩)))
      cases hb : s.busy
      · have hn : ¬ State.busy { s.offer with draws := d } = true := by
          rw [show State.busy { s.offer with draws := d } = s.offer.busy from rfl, State.offer_busy, hb]
          decide
        rw [runTurn, if_neg hn] at h
        cases h
        exact ⟨rfl, rfl⟩
      · have hy : State.busy { s.offer with draws := d } = true := (State.offer_busy s).trans hb
        rw [runTurn, if_pos hy] at h
        cases h
    | proceed =>
      cases h
      exact .inr (.inr (.inr (.inr ⟨hu.1, rfl⟩)))

end Sys2Proof.Machine
end

