-- ==== Sys2Proof/Laws/PerInstr.lean ====
section
/-! SUPPORT. Per instruction: the encoding agrees with the instruction's row of `spec/opcode_table.json` (R110). -/

namespace Sys2Proof.Laws

/-- A row of `spec/opcode_table.json`: `width_bits`, `mask` and `match`; a stream token has no fixed bits (R97). -/
structure TableRow.Row where
  width : Nat
  mask : Nat
  fixed : Nat
  deriving DecidableEq, Repr

/-- The row of each instruction. -/
def TableRow.row : Instr → TableRow.Row
  | .nop => ⟨24, 0xFF0000, 0x000000⟩
  | .swbInit => ⟨24, 0xFF0000, 0x010000⟩
  | .swbAppend _ => ⟨24, 0xFF0000, 0x020000⟩
  | .swbGet _ => ⟨24, 0xFF0000, 0x030000⟩
  | .swbCursor => ⟨24, 0xFF0000, 0x040000⟩
  | .swbReplay _ => ⟨24, 0xFF0000, 0x050000⟩
  | .cfcDClear => ⟨24, 0xFF0000, 0x110000⟩
  | .cfcDShift => ⟨24, 0xFF0000, 0x120000⟩
  | .cfcDLoad _ => ⟨24, 0xFF0000, 0x130000⟩
  | .cfcDTag => ⟨24, 0xFF0000, 0x140000⟩
  | .cfcEClear => ⟨24, 0xFF0000, 0x150000⟩
  | .cfcEPush _ _ => ⟨24, 0xFF0000, 0x160000⟩
  | .cfcEFlush => ⟨24, 0xFF0000, 0x170000⟩
  | .decStart => ⟨24, 0xFF0000, 0x210000⟩
  | .encStart => ⟨24, 0xFF0000, 0x310000⟩
  | .mfCount _ => ⟨24, 0xFF0000, 0x410000⟩
  | .mfProbe _ => ⟨24, 0xFF0000, 0x420000⟩
  | .mfFind => ⟨24, 0xFF0000, 0x430000⟩
  | .mfSetpos _ => ⟨24, 0xFF0000, 0x440000⟩
  | .csrRead _ _ => ⟨24, 0xFF0000, 0x510000⟩
  | .hdr _ => ⟨16, 0, 0⟩
  | .ctrl _ => ⟨8, 0, 0⟩
  | .lit _ => ⟨8, 0, 0⟩
  | .bref _ _ => ⟨16, 0, 0⟩

/-- The encoding has the row's width and, under the row's mask, the row's fixed bits. -/
def TableRow.Statement (i : Instr) : Prop :=
  match encode i with
  | .command w => (TableRow.row i).width = 24 ∧ w.toNat &&& (TableRow.row i).mask = (TableRow.row i).fixed
  | .token _ bytes => (TableRow.row i).width = 8 * bytes.length ∧ (TableRow.row i).mask = 0 ∧ (TableRow.row i).fixed = 0

/-- The upper eight bits of a word are its unit and its op. -/
theorem TableRow.word_fixed (u op : BitVec 4) (opnd : BitVec 16) :
    (cmdWord u op opnd).toNat &&& 0xFF0000 = u.toNat * 2 ^ 20 + op.toNat * 2 ^ 16 := by
  have hm : (0xFF0000 : Nat) = (2 ^ 8 - 1) <<< 16 := rfl
  have hw : (cmdWord u op opnd).toNat = (u ++ op).toNat <<< 16 ||| opnd.toNat := BitVec.toNat_append _ _
  have hu : (u ++ op).toNat = u.toNat * 2 ^ 4 + op.toNat := by
    have := op.isLt
    rw [BitVec.toNat_append, Nat.shiftLeft_eq, ← Nat.shiftLeft_eq, ← Nat.shiftLeft_add_eq_or_of_lt this, Nat.shiftLeft_eq]
  have hlt : (u ++ op).toNat < 2 ^ 8 := (u ++ op).isLt
  have ho := opnd.isLt
  rw [hw, hm, Nat.and_or_distrib_right, ← Nat.shiftLeft_and_distrib, Nat.and_two_pow_sub_one_eq_mod,
    Nat.mod_eq_of_lt hlt]
  have hz : opnd.toNat &&& (2 ^ 8 - 1) <<< 16 = 0 := by
    apply Nat.eq_of_testBit_eq
    intro j
    rw [Nat.testBit_and, Nat.testBit_shiftLeft, Nat.zero_testBit]
    by_cases hj : j ≥ 16
    · rw [Nat.testBit_lt_two_pow (Nat.lt_of_lt_of_le ho (Nat.pow_le_pow_right (by decide) hj)), Bool.false_and]
    · simp [hj]
  rw [hz, Nat.or_zero, Nat.shiftLeft_eq, hu, Nat.add_mul, Nat.mul_assoc, ← Nat.pow_add]

theorem TableRow.nop : TableRow.Statement .nop := ⟨rfl, TableRow.word_fixed _ _ _⟩
theorem TableRow.swbInit : TableRow.Statement .swbInit := ⟨rfl, TableRow.word_fixed _ _ _⟩
theorem TableRow.swbAppend (b : Byte) : TableRow.Statement (.swbAppend b) := ⟨rfl, TableRow.word_fixed _ _ _⟩
theorem TableRow.swbGet (slot : Slot) : TableRow.Statement (.swbGet slot) := ⟨rfl, TableRow.word_fixed _ _ _⟩
theorem TableRow.swbCursor : TableRow.Statement .swbCursor := ⟨rfl, TableRow.word_fixed _ _ _⟩
theorem TableRow.swbReplay (slot : Slot) : TableRow.Statement (.swbReplay slot) := ⟨rfl, TableRow.word_fixed _ _ _⟩
theorem TableRow.cfcDClear : TableRow.Statement .cfcDClear := ⟨rfl, TableRow.word_fixed _ _ _⟩
theorem TableRow.cfcDShift : TableRow.Statement .cfcDShift := ⟨rfl, TableRow.word_fixed _ _ _⟩
theorem TableRow.cfcDLoad (c : Byte) : TableRow.Statement (.cfcDLoad c) := ⟨rfl, TableRow.word_fixed _ _ _⟩
theorem TableRow.cfcDTag : TableRow.Statement .cfcDTag := ⟨rfl, TableRow.word_fixed _ _ _⟩
theorem TableRow.cfcEClear : TableRow.Statement .cfcEClear := ⟨rfl, TableRow.word_fixed _ _ _⟩
theorem TableRow.cfcEPush (t : BitVec 1) (ignored : BitVec 15) : TableRow.Statement (.cfcEPush t ignored) := ⟨rfl, TableRow.word_fixed _ _ _⟩
theorem TableRow.cfcEFlush : TableRow.Statement .cfcEFlush := ⟨rfl, TableRow.word_fixed _ _ _⟩
theorem TableRow.decStart : TableRow.Statement .decStart := ⟨rfl, TableRow.word_fixed _ _ _⟩
theorem TableRow.encStart : TableRow.Statement .encStart := ⟨rfl, TableRow.word_fixed _ _ _⟩
theorem TableRow.mfCount (b : Byte) : TableRow.Statement (.mfCount b) := ⟨rfl, TableRow.word_fixed _ _ _⟩
theorem TableRow.mfProbe (slot : Slot) : TableRow.Statement (.mfProbe slot) := ⟨rfl, TableRow.word_fixed _ _ _⟩
theorem TableRow.mfFind : TableRow.Statement .mfFind := ⟨rfl, TableRow.word_fixed _ _ _⟩
theorem TableRow.mfSetpos (p : BitVec 16) : TableRow.Statement (.mfSetpos p) := ⟨rfl, TableRow.word_fixed _ _ _⟩
theorem TableRow.csrRead (n : BitVec 4) (ignored : BitVec 12) : TableRow.Statement (.csrRead n ignored) := ⟨rfl, TableRow.word_fixed _ _ _⟩
theorem TableRow.hdr (n : BitVec 16) : TableRow.Statement (.hdr n) := ⟨rfl, rfl, rfl⟩
theorem TableRow.ctrl (tags : Byte) : TableRow.Statement (.ctrl tags) := ⟨rfl, rfl, rfl⟩
theorem TableRow.lit (b : Byte) : TableRow.Statement (.lit b) := ⟨rfl, rfl, rfl⟩
theorem TableRow.bref (off : Slot) (n : BitVec 4) : TableRow.Statement (.bref off n) := ⟨rfl, rfl, rfl⟩

end Sys2Proof.Laws
end

