-- ==== Sys2Proof/Tests/Slice0.lean ====
section
/-! SUPPORT. Tests whose expected values are the vectors of `spec/95_test_vectors.md` or are worked out from the cited rule by
hand, and for every statement with hypotheses a state that meets them. -/

namespace Sys2Proof.Machine

/-- One field of the state after an answer. -/
def after {α : Type} (a : Answer) (f : State → α) : Option α :=
  match a with
  | .next t => some (f t)
  | .fault _ | .refused _ => none

/-- After reset, with the given bytes appended. -/
def appended (bytes : List Byte) : State := State.reset.appendAll bytes

/-- The window "ABCDEFGH" and the input "ABCDEFGHABCDEFGH" with `epos` = 8 (vector MF-4), scanning two distances only. -/
def mf4 : State :=
  { appended [0x41, 0x42, 0x43, 0x44, 0x45, 0x46, 0x47, 0x48] with
    inp := [0x41, 0x42, 0x43, 0x44, 0x45, 0x46, 0x47, 0x48, 0x41, 0x42, 0x43, 0x44, 0x45, 0x46, 0x47, 0x48]
    epos := 8
    params := ⟨17, .listed [7, 8], .rankSum⟩ }

/-- The decoder in a state of its own, with the input and what is owed. -/
def decoding (d : DState) (inp : List Byte) (rem : BitVec 16) : State :=
  { State.reset with dstate := d, inp := inp, rem := rem }

/-- The encoder in a state of its own, with the input. -/
def encoding (e : EState) (inp : List Byte) : State := { State.reset with estate := e, inp := inp, mode := 1 }

/-! Well-formed terms (R104): the one check there is refuses its ill-formed terms. -/

theorem test_wellFormed_refuses_reserved_csr : Instr.wellFormed (.csrRead 11 0) = false ∧ Instr.wellFormed (.csrRead 15 0) = false := by decide
theorem test_wellFormed_accepts_last_csr : Instr.wellFormed (.csrRead 10 0) = true := by decide

/-! Decoding: a word or bytes of each row, written out from R101 to R103 and R91 to R96. -/

theorem test_decode_nop : decodeTableWord 24 0x00FFFF = some .nop := by decide
theorem test_decode_swbInit : decodeTableWord 24 0x010000 = some .swbInit := by decide
theorem test_decode_swbAppend : decodeTableWord 24 0x02FF41 = some (.swbAppend 0x41) := by decide
theorem test_decode_swbGet : decodeTableWord 24 0x03F123 = some (.swbGet 0x123) := by decide
theorem test_decode_swbCursor : decodeTableWord 24 0x040000 = some .swbCursor := by decide
theorem test_decode_swbReplay : decodeTableWord 24 0x050FEE = some (.swbReplay 0xFEE) := by decide
theorem test_decode_cfcDClear : decodeTableWord 24 0x110000 = some .cfcDClear := by decide
theorem test_decode_cfcDShift : decodeTableWord 24 0x120000 = some .cfcDShift := by decide
theorem test_decode_cfcDLoad : decodeTableWord 24 0x1300A5 = some (.cfcDLoad 0xA5) := by decide
theorem test_decode_cfcDTag : decodeTableWord 24 0x140000 = some .cfcDTag := by decide
theorem test_decode_cfcEClear : decodeTableWord 24 0x150000 = some .cfcEClear := by decide
theorem test_decode_cfcEPush : decodeTableWord 24 0x16FFFE = some (.cfcEPush 0 0x7FFF) := by decide
theorem test_decode_cfcEFlush : decodeTableWord 24 0x170000 = some .cfcEFlush := by decide
theorem test_decode_decStart : decodeTableWord 24 0x2100FF = some .decStart := by decide
theorem test_decode_encStart : decodeTableWord 24 0x310000 = some .encStart := by decide
theorem test_decode_mfCount : decodeTableWord 24 0x410041 = some (.mfCount 0x41) := by decide
theorem test_decode_mfProbe : decodeTableWord 24 0x420FF6 = some (.mfProbe 0xFF6) := by decide
theorem test_decode_mfFind : decodeTableWord 24 0x430000 = some .mfFind := by decide
theorem test_decode_mfSetpos : decodeTableWord 24 0x440008 = some (.mfSetpos 8) := by decide
theorem test_decode_csrRead : decodeTableWord 24 0x5100F3 = some (.csrRead 3 0x00F) := by decide
theorem test_decode_hdr : decode (.token .header [0x01, 0x23]) = .ok (.hdr 0x0123) := by decide
theorem test_decode_ctrl : decode (.token .control [0xEB]) = .ok (.ctrl 0xEB) := by decide
theorem test_decode_lit : decodeTableWord 8 0x5A = some (.lit 0x5A) := by decide
theorem test_decode_bref : decodeTableWord 16 0xF6EE = some (.bref 0xFEE 6) := by decide
theorem test_decode_bref_offset : decode (.token .backref [0x34, 0x12]) = .ok (.bref 0x134 2) := by decide
theorem test_decode_reserved : [0x060000, 0x0F1234, 0x100000, 0x180000, 0x200000, 0x320000, 0x450000, 0x500000, 0x600000,
    0xFFFFFF].all (fun w => (decodeTableWord 24 w).isNone) = true := by decide
theorem test_decode_short_token : decode (.token .backref [0xEE]) = .error (.tokenCutShort .backref) := by decide

/-! Each instruction's effect. -/

/-- SWB-11. -/
theorem test_nop : after (exec .nop (appended [0x41])) (·.cur) = some 0xFEF := by decide
/-- SWB-12. -/
theorem test_swbInit : after (exec .swbInit (appended [0x41])) (fun t => (t.cur, t.slot 0xFEE)) = some (0xFEE, 0) := by decide
/-- SWB-4. -/
theorem test_swbAppend :
    after (exec (.swbAppend 0x41) State.reset) (fun t => (t.slot 0xFEE, t.cur)) = some (0x41, 0xFEF) := by decide
/-- SWB-8: the write wrap. -/
theorem test_swbAppend_wraps : after (exec (.swbAppend 0x99) { State.reset with cur := 0xFFF })
    (fun t => (t.slot 0xFFF, t.cur)) = some (0x99, 0x000) := by decide
/-- SWB-5. -/
theorem test_swbGet : after (exec (.swbGet 0xFEE) (appended [0x41])) (·.res) = some 0x00000041 := by decide
/-- SWB-1. -/
theorem test_swbCursor : after (exec .swbCursor State.reset) (·.res) = some 0x00000FEE := by decide
/-- SWB-7. -/
theorem test_swbReplay : after (exec (.swbReplay 0xFEE) (appended [0x5A]))
    (fun t => (t.slot 0xFEF, t.cur, t.res)) = some (0x5A, 0xFF0, 0x0000005A) := by decide
/-- SWB-10: read before write at the cursor. -/
theorem test_swbReplay_at_cursor : after (exec (.swbReplay 0x123) { State.reset with cur := 0x123, win := [(0x123, 0x77)] })
    (fun t => (t.slot 0x123, t.cur, t.res)) = some (0x77, 0x124, 0x00000077) := by decide
/-- CFC-1. -/
theorem test_cfcDClear : after (exec .cfcDClear { State.reset with dflags := 0xFFA5 }) (·.dflags) = some 0x0000 := by decide
/-- CFC-5. -/
theorem test_cfcDShift : after (exec .cfcDShift { State.reset with dflags := 0xFFA5 })
    (fun t => (t.dflags, t.res)) = some (0x7FD2, 0x00007FD2) := by decide
/-- CFC-2. -/
theorem test_cfcDShift_need : after (exec .cfcDShift State.reset) (·.res) = some 0x00010000 := by decide
/-- CFC-3. -/
theorem test_cfcDLoad : after (exec (.cfcDLoad 0xA5) State.reset) (·.dflags) = some 0xFFA5 := by decide
/-- CFC-6. -/
theorem test_cfcDTag : after (exec .cfcDTag { State.reset with dflags := 0x7FD2, res := 1 }) (·.res) = some 0 := by decide
/-- R166. -/
theorem test_cfcEClear : after (exec .cfcEClear { State.reset with etag := 0xA0, ecnt := 3 })
    (fun t => (t.etag, t.ecnt)) = some (0, 0) := by decide
/-- CFC-9, its third push. -/
theorem test_cfcEPush : after (exec (.cfcEPush 1 0) { State.reset with etag := 0x40, ecnt := 2 })
    (fun t => (t.etag, t.ecnt)) = some (0xA0, 3) := by decide
/-- CFC-14. -/
theorem test_cfcEPush_full : after (exec (.cfcEPush 1 0) { State.reset with etag := 0xFF, ecnt := 8 })
    (fun t => (t.status, t.faddr, t.etag, t.ecnt)) = some (0x0044, 0x00160001, 0xFF, 8) := by decide
/-- CFC-10. -/
theorem test_cfcEFlush : after (exec .cfcEFlush { State.reset with etag := 0xA0, ecnt := 3 })
    (fun t => (t.res, t.etag, t.ecnt)) = some (0x00000005, 0, 0) := by decide
/-- R190, CSR-5. -/
theorem test_decStart : after (exec .decStart { appended [0x41] with faulted := true, fcode := 2, rem := 3 })
    (fun t => (t.status, t.cur, t.slot 0xFEE, t.rem)) = some (0x0001, 0xFEE, 0, 0) := by decide
/-- R280, CSR-6. -/
theorem test_encStart : after (exec .encStart { State.reset with inp := [0x41] })
    (fun t => (t.status, t.hdrN, t.erem, t.estate)) = some (0x0009, 1, 1, .hdr0) := by decide
/-- MF-3. -/
theorem test_mfCount : after (exec (.mfCount 0x00) (appended [0x41])) (·.res) = some 0x00000FFF := by decide +kernel
/-- MF-5. -/
theorem test_mfProbe : after (exec (.mfProbe 0xFEE) mf4) (·.res) = some 0x00000008 := by decide
/-- MF-14, with the cap at 3. -/
theorem test_mfProbe_cap : after (exec (.mfProbe 0x000) { State.reset with inp := [0, 0, 0, 0, 0], params := ⟨3, .nearestFirst, .rankSum⟩ })
    (·.res) = some 0x00000003 := by decide
/-- MF-7. -/
theorem test_mfFind : after (exec .mfFind mf4) (·.res) = some 0x80080FEE := by decide +kernel
/-- MF-12. -/
theorem test_mfFind_end : after (exec .mfFind { mf4 with epos := 16, res := 1 }) (·.res) = some 0 := by decide
/-- MF-21. -/
theorem test_mfSetpos : after (exec (.mfSetpos 8) State.reset) (·.epos) = some 8 := by decide
/-- CSR-2. -/
theorem test_csrRead : after (exec (.csrRead 3 0) State.reset) (·.res) = some 0x00000FEE := by decide
/-- CSR-4. -/
theorem test_csrRead_reserved : after (exec (.csrRead 11 0) State.reset)
    (fun t => (t.status, t.faddr)) = some (0x0044, 0x0051000B) := by decide
/-- R191, R192. -/
theorem test_hdr : after (exec (.hdr 0x0123) State.reset) (fun t => (t.rem, t.inPtr, t.dstate)) = some (0x0123, 2, .loop) := by decide
/-- R194. -/
theorem test_ctrl : after (exec (.ctrl 0x01) State.reset) (fun t => (t.dflags, t.inPtr, t.dstate)) = some (0xFF01, 1, .tag) := by decide
/-- R196. -/
theorem test_lit : after (exec (.lit 0x41) (decoding .lit [] 1))
    (fun t => (t.slot 0xFEE, t.cur, t.out, t.rem)) = some (0x41, 0xFEF, [0x41], 0) := by decide
/-- R199, DEC-1: the overlapping copy. -/
theorem test_bref : after (exec (.bref 0xFEE 6) { appended [0x5A] with rem := 9 })
    (fun t => (t.out, t.cur, t.rem, t.dstate)) = some (List.replicate 9 0x5A, 0xFF8, 0, .loop) := by decide
/-- R198, DEC-4. -/
theorem test_bref_corrupt : after (exec (.bref 0xFEE 1) { appended [0x61] with rem := 3, inPtr := 4 })
    (fun t => (t.status, t.faddr, t.fval, t.cur, t.out)) = some (0x0024, 6, 4, 0xFEF, []) := by decide

/-! Rules of the encoder and of the selection. -/

/-- R254's example: rank sums (0, 3, 3). -/
theorem test_rankSum : select .rankSum [⟨1, 0, 3⟩, ⟨5, 1, 10⟩, ⟨9, 2, 4⟩] = some ⟨1, 0, 3⟩ := by decide
/-- MF-20: rank sums (3, 1, 3, 5). -/
theorem test_rankSum_mf20 :
    select .rankSum [⟨5, 0xFF1, 4⟩, ⟨6, 0xFF0, 3⟩, ⟨7, 0xFEF, 3⟩, ⟨8, 0xFEE, 3⟩] = some ⟨6, 0xFF0, 3⟩ := by decide
/-- MF-18 under LONGEST (R255). -/
theorem test_longest : select .longest [⟨4, 0xFF2, 3⟩, ⟨8, 0xFEE, 4⟩] = some ⟨8, 0xFEE, 4⟩ := by decide
/-- R286's example. -/
theorem test_encLit : after (blockStep (encoding .lit [0x41]))
    (fun t => (t.tokbuf.toList.take 1, t.slot 0xFEE, t.cur, t.etag, t.ecnt)) = some ([0x41], 0x41, 0xFEF, 0x80, 1) := by decide
/-- R287's example: the token bytes EE F5 (S10). -/
theorem test_encRef : after (blockStep { encoding .ref (List.replicate 8 0x41) with candS := 0xFEE, candM := 8, erem := 8 })
    (fun t => (t.tokbuf.toList.take 2, t.cur, t.epos, t.ecnt)) = some ([0xEE, 0xF5], 0xFF6, 8, 1) := by decide
/-- R288's example. -/
theorem test_encFinal : after (blockStep { encoding .final [] with etag := 0x80, ecnt := 1, toklen := 1, tokbuf := State.reset.tokbuf.set 0 0x49 })
    (fun t => (t.out, t.status)) = some ([0x01, 0x49], 0x000A) := by decide
/-- Program P2's listing (R107, R108) stands for its 16 bytes. -/
theorem test_listing_p2 :
    assemble (expand [.hdrStar, .item (.lit 0x41), .item (.lit 0x42), .refd 2 16, .item (.lit 0x43), .refd 3 3,
      .lits [0x44, 0x45, 0x46], .lits [0x47, 0x48]]) =
      [0x00, 0x1B, 0xEB, 0x41, 0x42, 0xEE, 0xFD, 0x43, 0xFE, 0xF0, 0x44, 0x45, 0x46, 0x03, 0x47, 0x48] := by decide

/-! The host's way in (log 3). -/

theorem test_withFetchWord_command : after (step (State.reset.withFetchWord 24 0x020041)) (·.slot 0xFEE) = some 0x41 := by decide
theorem test_withFetchWord_token : after (step (State.reset.withFetchWord 8 0x5A)) (·.out) = some [0x5A] := by decide
theorem test_withFetchWord_backref : after (step (State.reset.withFetchWord 16 0xF6EE)) (·.refLo) = some 0xEE := by decide

/-! Witnesses: for each statement with hypotheses, a state that meets them, at the ends of the ranges its clauses name. -/

theorem witness_DecodeReturnsEncodedInstruction : encode (.bref 0xFEE 15) = .token .backref [0xEE, 0xFF] := by decide
theorem witness_TokenBytesReadOneWay : decodeToken .header [0x00, 0x0A, 0x01] = .ok (.hdr 0x000A, [0x01]) := by decide
theorem witness_OpcodeMapIsTotal :
    let rows := [(0, 0), (0, 1), (0, 2), (0, 3), (0, 4), (0, 5), (1, 1), (1, 2), (1, 3), (1, 4), (1, 5), (1, 6), (1, 7), (2, 1),
      (3, 1), (4, 1), (4, 2), (4, 3), (4, 4), (5, 1)]
    ((0#4).toNat, (0#4).toNat) ∈ rows ∧ ((5#4).toNat, (1#4).toNat) ∈ rows ∧
    (((0#4).toNat, (6#4).toNat) ∉ rows ∧ (0#4).toNat ≤ 5) ∧ (((5#4).toNat, (2#4).toNat) ∉ rows ∧ (5#4).toNat ≤ 5) ∧
    6 ≤ (6#4).toNat ∧ 6 ≤ (15#4).toNat := by decide
theorem witness_IgnoredOperandBitsDoNothing :
    (0xFFFF#16 &&& 0x0000#16) = (0x0000#16 &&& 0x0000#16) ∧ (0xF123#16 &&& 0x0FFF#16) = (0x0123#16 &&& 0x0FFF#16) ∧
    (0xFFFB#16 &&& 0x000F#16) = (0x000B#16 &&& 0x000F#16) := by decide
theorem witness_StepAcceptsThePendingCommand :
    let s := { State.reset with pending := some 0x020041#24 }
    let t := { State.reset with host := [.command 0x600000#24] }
    (s.busy = false ∧ s.offer.pending = some 0x020041#24 ∧ s.offer.host.head? ≠ some .reset ∧
      decodeCommand 0x020041#24 = .ok (.swbAppend 0x41)) ∧
    (t.busy = false ∧ t.pending = none ∧ t.host = [.command 0x600000#24] ∧ t.offer.pending = some 0x600000#24 ∧
      t.offer.host.head? ≠ some .reset ∧ decodeCommand 0x600000#24 = .error (.reservedUnit 6)) ∧
    (let u := { State.reset with host := [.awaitIdle] }
     u.busy = false ∧ u.pending = none ∧ u.host = [.awaitIdle]) := by decide
theorem witness_TokenStepRunsTheToken :
    (decoding .ctrl [0x01] 1).quiet ∧ (decoding .ctrl [0x01] 1).dstate = .ctrl ∧
    decodeToken .control ((decoding .ctrl [0x01] 1).inp.drop 0) = .ok (.ctrl 0x01, []) ∧
    (decoding .lit [0x41] 1).quiet ∧ (decoding .lit [0x41] 1).dstate = .lit ∧
    decodeToken .literal ((decoding .lit [0x41] 1).inp.drop 0) = .ok (.lit 0x41, []) :=
  ⟨⟨rfl, rfl⟩, rfl, rfl, ⟨rfl, rfl⟩, rfl, rfl⟩
theorem witness_HeaderAndBackRefRunByBlockSteps :
    (decoding .hdr0 [0x00, 0x0A] 0).quiet ∧ decodeToken .header ((decoding .hdr0 [0x00, 0x0A] 0).inp.drop 0) = .ok (.hdr 0x000A, []) ∧
    (decoding .ref0 [0xEE, 0xF6] 9).quiet ∧
    decodeToken .backref ((decoding .ref0 [0xEE, 0xF6] 9).inp.drop 0) = .ok (.bref 0xFEE 6, []) ∧
    ¬ (decoding .ref0 [0xEE, 0xF6] 9).rem.toNat < 9 ∧ (decoding .ref0 [0xEE, 0xF6] 8).rem.toNat < 9 :=
  ⟨⟨rfl, rfl⟩, by decide, ⟨rfl, rfl⟩, by decide, by decide, by decide⟩
theorem witness_BusyBlockHoldsCommands :
    let s := { decoding .loop [] 1 with pending := some 0x51000B#24 }
    let t := { decoding .loop [] 1 with pending := some 0x51000A#24 }
    (s.busy = true ∧ s.pending = some 0x51000B#24 ∧ s.host.head? ≠ some .reset ∧ acceptedWhileBusy 0x51000B#24 = false) ∧
    (t.busy = true ∧ t.pending = some 0x51000A#24 ∧ t.host.head? ≠ some .reset ∧ acceptedWhileBusy 0x51000A#24 = true) := by decide

/-- A legal state with a running decode and two commands that are accepted while busy. -/
def busyLegal : State :=
  { decoding .hdr0 [0x00, 0x00] 0 with pending := some 0x510000#24, host := [.command 0x000000#24] }

theorem busyLegal_legal : busyLegal.Legal where
  window := by decide
  params := by decide
  ecnt := by decide
  etag := by decide
  toklen := by decide
  refCnt := by decide
  candM := by decide
  sentinel := by decide
  oneBusy := by decide
  busyClear := by decide
  doneClear := by decide
  record := by decide
  code := by decide
  decoder := fun _ =>
    { mode := by decide, position := by decide, owes := by decide, active := by decide, replay := by decide }
  encoder := fun h => absurd h (by decide)

theorem witness_DrawsNeverChangeAnOperation :
    busyLegal.Legal ∧ acceptedWhileBusy 0x510000#24 = true ∧ busyLegal.pending = some 0x510000#24 ∧
    busyLegal.host = [.command 0x000000#24] ∧ acceptedWhileBusy 0x000000#24 = true :=
  ⟨busyLegal_legal, by decide, rfl, rfl, by decide⟩
theorem witness_IdleBlockKeepsItsState :
    State.reset.busy = false ∧ State.reset.pending = none ∧ State.reset.host = [] := by decide
theorem witness_ResetRestoresEveryRegister :
    let s := { decoding .loop [] 1 with host := [.reset], out := [0x41] }
    s.host = [.reset] ∧ after (runTurn .reset s) (fun t => (t.dstate, t.out)) = some (.idle, [0x41]) ∧
    (let u := { State.reset with host := [.reset] }; u.busy = false ∧ u.pending = none) := by decide
theorem witness_InputChangeWhileBusyGetsNoResult :
    let s := { State.reset with host := [.present [0x41]] }
    let t := { decoding .loop [] 1 with host := [.present [0x41]] }
    (s.pending = none ∧ s.busy = false) ∧ (t.pending = none ∧ t.busy = true ∧ t.host = [.present [0x41]]) := by decide
theorem witness_WindowHoldsTheLastAppends :
    0 < 4096 ∧ 4095 < 4096 ∧ after (execAll [.swbInit, .swbAppend 0x41] State.reset)
      (fun t => (t.cur, t.slot (t.cur - 1 - 0), t.slot (t.cur - 1 - 4095))) = some (0xFEF, 0x41, 0x00) := by decide
theorem witness_HeaderControlAndLiteralTokens : (appended [0x41, 0x00, 0x42]).win.wf := by decide
theorem witness_SwbAppendWritesAtTheCursor : State.reset.win.wf ∧ (0xFEF : Slot) ≠ State.reset.cur := by decide
theorem witness_SwbReplayCopiesOneByte :
    (appended [0x5A]).win.wf ∧ (0xFEE : Slot) ≠ (appended [0x5A]).cur ∧ (0xFEF : Slot) = (appended [0x5A]).cur := by decide
theorem witness_ReloadComesAfterEightShifts : 1 ≤ 1 ∧ 1 ≤ 8 ∧ 1 ≤ 8 ∧ 8 ≤ 8 := by decide
theorem witness_CfcEncodeCommands :
    (State.reset.ecnt.toNat ≤ 8 ∧ State.reset.ecnt.toNat < 8) ∧
    (let s := { State.reset with ecnt := 8 }; s.ecnt.toNat ≤ 8 ∧ s.ecnt.toNat = 8) := by decide
theorem witness_TagsComeBackInTokenOrder : (List.replicate 8 (1#1)).length ≤ 8 ∧ 7 < (List.replicate 8 (1#1)).length := by decide
theorem witness_SimulatedWindowIsTheGrownWindow :
    mf4.win.wf ∧ 8 ≤ 4096 ∧ 8 + 8 ≤ mf4.inp.length ∧ 4096 ≤ 4096 ∧
    0 + 4096 ≤ (List.replicate 4096 (0x00 : Byte)).length := by
  exact ⟨by decide, by decide, by decide, by decide, Nat.le_of_eq List.length_replicate.symm⟩
theorem witness_MfProbeReturnsTheMatchedCount : mf4.win.wf ∧ mf4.params.legal = true := by decide
theorem witness_CandidatesAreTheLongEnoughMatches : mf4.params.legal = true ∧ mf4.cands 8 = [⟨8, 0xFEE, 8⟩] := by decide
theorem witness_MfFindReturnsTheSelected :
    (mf4.params.legal = true ∧ mf4.epos.toNat < mf4.inp.length ∧ mf4.cands mf4.epos.toNat ≠ []) ∧
    (let s := { mf4 with epos := 16 }; s.params.legal = true ∧ s.inp.length ≤ s.epos.toNat) ∧
    (let s := { mf4 with inp := [0x41], epos := 0 }; s.params.legal = true ∧ s.cands s.epos.toNat = []) := by decide
theorem witness_SelectionAnswersAMember :
    let C : List Candidate := [⟨4, 0xFF2, 3⟩, ⟨8, 0xFEE, 4⟩]
    C ≠ [] ∧ select .longest C = some ⟨8, 0xFEE, 4⟩ ∧ select .nearest C = some ⟨4, 0xFF2, 3⟩ := by decide
theorem witness_RankSumPicksTheLeastRank :
    let C : List Candidate := [⟨1, 0, 3⟩, ⟨5, 1, 10⟩, ⟨9, 2, 4⟩]
    let order := [0, 2, 1]
    C ≠ [] ∧ order.Perm (List.range C.length) ∧
    order.Pairwise (fun a b => (C.map Candidate.m).getD a 0 < (C.map Candidate.m).getD b 0 ∨
      (C.map Candidate.m).getD a 0 = (C.map Candidate.m).getD b 0 ∧ a < b) := by decide
theorem witness_CsrReadReturnsEachRegister : (0#4).toNat = 0 ∧ (10#4).toNat = 10 ∧ 11 ≤ (11#4).toNat ∧ 11 ≤ (15#4).toNat := by decide
theorem witness_ReservedCommandsOnlyFault :
    ((cmdUnit 0x060000#24).toNat, (cmdOp 0x060000#24).toNat) ∉
      [(0, 0), (0, 1), (0, 2), (0, 3), (0, 4), (0, 5), (1, 1), (1, 2), (1, 3), (1, 4), (1, 5), (1, 6), (1, 7), (2, 1),
      (3, 1), (4, 1), (4, 2), (4, 3), (4, 4), (5, 1)] ∧
    (cmdUnit 0x160001#24 = 1 ∧ cmdOp 0x160001#24 = 6 ∧ { State.reset with ecnt := 8 }.ecnt = 8#4) ∧
    (cmdUnit 0x51000B#24 = 5 ∧ cmdOp 0x51000B#24 = 1 ∧ 11 ≤ ((cmdOpnd 0x51000B#24).extractLsb' 0 4).toNat) := by decide
theorem witness_EndOfInputFaultsTheReader :
    (let s := decoding .ref1 [] 3
     s.dstate ∈ [DState.hdr0, .hdr1, .ctrl, .lit, .ref0, .ref1] ∧ s.inp.length ≤ s.inPtr.toNat) ∧
    (let s := decoding .hdr0 [0x00] 0
     s.dstate ∈ [DState.hdr0, .hdr1, .ctrl, .lit, .ref0, .ref1] ∧ s.inPtr.toNat < s.inp.length) ∧
    (let s := encoding .hdr0 []
     s.dstate.busy = false ∧ after (blockStep s) (·.out) = some [0x00]) := by decide
theorem witness_CorruptStreamIsPrecise :
    let s := decoding .ref1 [0xF1] 3
    s.dstate = .ref1 ∧ s.input s.inPtr.toNat = some 0xF1 ∧ s.rem.toNat < ((0xF1 : Byte).extractLsb' 0 4).toNat + 3 := by decide
theorem witness_FaultRecordStandsUntilStart :
    let s := { State.reset with faulted := true, fcode := 2, faddr := 6, fval := 4, dstate := .fault, pending := some 0x510001#24 }
    s.busy = false ∧ s.faulted = true ∧ after (step s) (·.res) = some 6 := by decide
theorem witness_DecoderReadsTheHeader :
    let s := decoding .hdr0 [0x01] 0
    let t := decoding .hdr1 [] 0x0100
    (s.dstate = .hdr0 ∧ s.input s.inPtr.toNat = some 0x01) ∧ (t.dstate = .hdr1 ∧ t.input t.inPtr.toNat = none) ∧
    (decoding .hdr0 [] 0).input 0 = none ∧ (decoding .hdr1 [0x23] 0).input 0 = some 0x23 := by decide
theorem witness_DecoderLoopAndTagDispatch :
    ((decoding .loop [] 0).dstate = .loop ∧ (decoding .loop [] 0).rem = 0) ∧
    ((decoding .loop [] 1).dstate = .loop ∧ (decoding .loop [] 1).rem ≠ 0) ∧ (decoding .tag [] 1).dstate = .tag := by decide
theorem witness_DecoderControlAndLiteralSteps :
    (let s := decoding .ctrl [0x01] 1; s.win.wf ∧ s.dstate = .ctrl ∧ s.input s.inPtr.toNat = some 0x01) ∧
    (let s := decoding .lit [0x41] 1; s.win.wf ∧ s.dstate = .lit ∧ s.input s.inPtr.toNat = some 0x41) ∧
    (decoding .ctrl [] 1).input 0 = none ∧ (decoding .lit [] 1).input 0 = none := by decide
theorem witness_DecoderBackRefSteps :
    (let s := decoding .ref0 [0xEE] 3; s.dstate = .ref0 ∧ s.input s.inPtr.toNat = some 0xEE) ∧
    (let s := decoding .ref1 [0xF0] 3
     s.dstate = .ref1 ∧ s.input s.inPtr.toNat = some 0xF0 ∧ ((0xF0 : Byte).extractLsb' 0 4).toNat + 3 ≤ s.rem.toNat) ∧
    (let s := decoding .ref1 [0xF0] 2
     s.dstate = .ref1 ∧ s.input s.inPtr.toNat = some 0xF0 ∧ s.rem.toNat < ((0xF0 : Byte).extractLsb' 0 4).toNat + 3) ∧
    (decoding .ref0 [] 3).input 0 = none ∧ (decoding .ref1 [] 3).input 0 = none := by decide
theorem witness_CopyStepReplaysOneByte :
    let s := { appended [0x5A] with dstate := .copy, refOff := 0xFEE, refCnt := 1, rem := 1 }
    s.win.wf ∧ s.dstate = .copy ∧ s.refCnt = 1 := by decide
theorem witness_BackRefTokenReplaysHistory :
    (appended [0x5A]).win.wf ∧
    (let s := { appended [0x5A] with rem := 18 }; (15#4).toNat + 3 ≤ s.rem.toNat) ∧
    (let s := { appended [0x5A] with rem := 17 }; s.rem.toNat < (15#4).toNat + 3) := by decide
theorem witness_DecodeEndsAndDeliversN : { State.reset with inp := [0x00, 0x01, 0x01, 0x41] }.quiet := ⟨rfl, rfl⟩
theorem witness_EncStartBeginsAnEncode :
    65535 < { State.reset with inp := List.replicate 65536 0x00 }.inp.length ∧
    { State.reset with inp := List.replicate 65535 0x00 }.inp.length ≤ 65535 :=
  ⟨Nat.lt_of_lt_of_eq (by decide) List.length_replicate.symm, Nat.le_of_eq List.length_replicate⟩
theorem witness_EncoderHeaderAndLoop :
    (encoding .hdr0 []).dstate.busy = false ∧ (encoding .hdr0 []).estate = .hdr0 ∧ (encoding .hdr1 []).estate = .hdr1 ∧
    (encoding .loop []).estate = .loop := by decide
theorem witness_EncoderFlushAndFinal :
    (let s := { encoding .flush [] with ecnt := 8, toklen := 16 }
     s.dstate.busy = false ∧ s.ecnt.toNat ≤ 8 ∧ s.toklen.toNat ≤ 16 ∧ s.estate = .flush) ∧
    ((encoding .final []).estate = .final ∧ (encoding .final []).ecnt = 0) ∧
    (let s := { encoding .final [] with ecnt := 1, toklen := 1 }; s.estate = .final ∧ s.ecnt ≠ 0) := by decide
theorem witness_EncoderSearchLatchesTheSelected :
    (let s := { mf4 with estate := .search, groups := 1 }
     s.dstate.busy = false ∧ s.estate = .search ∧ s.groups ≠ 0 ∧ s.epos.toNat < s.inp.length ∧ s.cands s.epos.toNat ≠ []) ∧
    (let s := { mf4 with estate := .search }; s.groups = 0) := by decide
theorem witness_EncoderBuffersALiteral :
    let s := { encoding .lit [0x41] with toklen := 15 }
    s.win.wf ∧ s.dstate.busy = false ∧ s.estate = .lit ∧ s.input s.epos.toNat = some 0x41 ∧ s.toklen.toNat < 16 := by decide
theorem witness_EncoderBuffersABackRef :
    let s := { encoding .ref [0x41, 0x41, 0x41] with candM := 3, toklen := 14 }
    s.win.wf ∧ s.dstate.busy = false ∧ s.estate = .ref ∧ s.epos.toNat + s.candM.toNat ≤ s.inp.length ∧
      s.toklen.toNat + 2 ≤ 16 := by decide
theorem witness_EncodeEndsInDone :
    let s := { State.reset with inp := List.replicate 65535 0x00 }
    s.quiet ∧ s.params.legal = true ∧ s.inp.length ≤ 65535 :=
  ⟨⟨rfl, rfl⟩, by decide, Nat.le_of_eq List.length_replicate⟩
theorem witness_EncoderOutputIsAGroupedStream :
    let s := { State.reset with inp := List.replicate 8 0x41 }
    s.quiet ∧ s.params.legal = true ∧ s.inp.length ≤ 65535 ∧ s.inp.length ≤ 8 := ⟨⟨rfl, rfl⟩, by decide, by decide, by decide⟩
theorem witness_DecodingAnEncodeYieldsTheInput :
    let s := { State.reset with inp := List.replicate 9 0x41, params := ⟨18, .listed [1, 4096], .other 0⟩ }
    s.quiet ∧ s.params.legal = true ∧ s.inp.length ≤ 65535 := ⟨⟨rfl, rfl⟩, by decide, by decide⟩
theorem witness_LegalStatesNeverFault : busyLegal.Legal := busyLegal_legal
theorem witness_EveryStepKeepsLegal :
    let s := { busyLegal with pending := none, host := [] }
    busyLegal.Legal ∧ after (step s) (·.dstate) = some .hdr1 := ⟨busyLegal_legal, by decide⟩
theorem witness_WindowIsWrittenByAppendsOnly :
    let s := { State.reset with pending := some 0x020041#24 }
    s.win.wf ∧ after (step s) (·.cur) = some 0xFEF := by decide
theorem witness_OutputGrowsAndInputStays :
    after (step { decoding .lit [0x41] 1 with out := [0x40] }) (·.out) = some [0x40, 0x41] := by decide

end Sys2Proof.Machine
end

/-! SUPPORT. The parts of a legal state: the registers in their ranges, STATUS, and the running machine; then that every
rule, command and step keeps a state legal. -/

namespace Sys2Proof.Machine

/-- The clauses of `State.Legal` that every state meets whatever machine runs: each register in its range. -/
structure State.RegistersLegal (s : State) : Prop where
  window : s.win.wf
  params : s.params.legal = true
  ecnt : s.ecnt.toNat ≤ 8
  etag : s.etag <<< s.ecnt.toNat = 0
  toklen : s.toklen.toNat ≤ 16
  refCnt : s.refCnt.toNat ≤ 18
  candM : s.candM.toNat ≤ 18
  sentinel : sentinelShape s.dflags

/-- STATUS and the fault record as R40 to R42 allow them in an idle block. -/
structure State.StatusLegal (s : State) : Prop where
  doneClear : s.done = true → s.faulted = false
  record : s.faulted = false → s.fcode = 0 ∧ s.faddr = 0 ∧ s.fval = 0
  code : s.faulted = true → 1 ≤ s.fcode.toNat ∧ s.fcode.toNat ≤ 4

/-- STATUS and the fault record of a busy block: nothing is done and nothing has faulted (R332). -/
structure State.StatusClear (s : State) : Prop where
  done : s.done = false
  faulted : s.faulted = false
  record : s.fcode = 0 ∧ s.faddr = 0 ∧ s.fval = 0

/-- A legal state whose decoder runs. -/
structure State.DecoderRuns (s : State) : Prop where
  registers : s.RegistersLegal
  status : s.StatusClear
  otherIdle : s.estate.busy = false
  decoder : s.DecoderLegal

/-- A legal state whose encoder runs. -/
structure State.EncoderRuns (s : State) : Prop where
  registers : s.RegistersLegal
  status : s.StatusClear
  otherIdle : s.dstate.busy = false
  encoder : s.EncoderLegal

variable {s : State}

/-- Cleared flags hold no sentinel (R160). -/
theorem sentinelShape_zero : sentinelShape 0 := by decide

theorem State.busy_eq_false : s.busy = false ↔ s.dstate.busy = false ∧ s.estate.busy = false := Bool.or_eq_false_iff

theorem State.busy_eq_true : s.busy = true ↔ s.dstate.busy = true ∨ s.estate.busy = true := Bool.or_eq_true_iff

theorem State.Legal.registers (h : s.Legal) : s.RegistersLegal := { h with }

theorem State.Legal.status (h : s.Legal) : s.StatusLegal := { h with }

theorem State.Legal.statusClear (h : s.Legal) (hb : s.busy = true) : s.StatusClear :=
  have ⟨hdone, hfaulted⟩ := h.busyClear hb
  ⟨hdone, hfaulted, h.record hfaulted⟩

theorem State.Legal.decoderRuns (h : s.Legal) (hd : s.dstate.busy = true) : s.DecoderRuns where
  registers := h.registers
  status := h.statusClear (State.busy_eq_true.2 (.inl hd))
  otherIdle := by simpa [hd] using h.oneBusy
  decoder := h.decoder hd

theorem State.Legal.encoderRuns (h : s.Legal) (he : s.estate.busy = true) : s.EncoderRuns where
  registers := h.registers
  status := h.statusClear (State.busy_eq_true.2 (.inr he))
  otherIdle := by simpa [he] using h.oneBusy
  encoder := h.encoder he

theorem State.StatusClear.legal (h : s.StatusClear) : s.StatusLegal where
  doneClear _ := h.faulted
  record _ := h.record
  code hf := absurd h.faulted (by simp [hf])

/-- An idle block is legal by its registers and STATUS alone. -/
theorem State.legal_of_idle (hb : s.busy = false) (hr : s.RegistersLegal) (hs : s.StatusLegal) : s.Legal :=
  have ⟨hd, he⟩ := State.busy_eq_false.1 hb
  { hr, hs with
    oneBusy := by simp [hd]
    busyClear := by simp [hb]
    decoder := by simp [hd]
    encoder := by simp [he] }

theorem State.DecoderRuns.legal (h : s.DecoderRuns) : s.Legal :=
  { h.registers, h.status.legal with
    oneBusy := by simp [h.otherIdle]
    busyClear := fun _ => ⟨h.status.done, h.status.faulted⟩
    decoder := fun _ => h.decoder
    encoder := by simp [h.otherIdle] }

theorem State.EncoderRuns.legal (h : s.EncoderRuns) : s.Legal :=
  { h.registers, h.status.legal with
    oneBusy := by simp [h.otherIdle]
    busyClear := fun _ => ⟨h.status.done, h.status.faulted⟩
    decoder := by simp [h.otherIdle]
    encoder := fun _ => h.encoder }

/-- `RES`, what the host presents and the draws take no part in legality. -/
theorem State.Legal.setOuter (h : s.Legal) (res : Word) (pending : Option CmdWord) (host : List HostEvent) (draws : Nat) :
    State.Legal { s with res, pending, host, draws } :=
  { h with
    decoder := fun hd => { h.decoder hd with }
    encoder := fun he => { h.encoder he with } }

/-- The offer of a command keeps a state legal. -/
theorem State.Legal.offer (h : s.Legal) : s.offer.Legal := by
  rw [State.offer_frame]
  exact h.setOuter _ _ _ _

/-! Fault entry (R330). -/

/-- FCODE of a fault is one of the four codes (R320). -/
theorem FaultCause.code_range (f : FaultCause) : 1 ≤ f.code.toNat ∧ f.code.toNat ≤ 4 := by
  cases f <;> simp [FaultCause.code]

/-- Every fault's record is one that STATUS allows: DONE is 0 and FCODE is a code (R330). -/
theorem State.raiseFault_statusLegal (f : FaultCause) (s : State) : (s.raiseFault f).StatusLegal where
  doneClear := nofun
  record := nofun
  code _ := f.code_range

theorem State.RegistersLegal.raiseFault (h : s.RegistersLegal) (f : FaultCause) : (s.raiseFault f).RegistersLegal :=
  { h with }

/-- A fault that leaves no machine running ends in a legal state. -/
theorem State.RegistersLegal.legal_raiseFault (h : s.RegistersLegal) {f : FaultCause}
    (hb : (s.raiseFault f).busy = false) : (s.raiseFault f).Legal :=
  State.legal_of_idle hb (h.raiseFault f) (s.raiseFault_statusLegal f)

/-! Changes of single registers. -/

/-- An append at the cursor (R63). -/
theorem State.RegistersLegal.append (h : s.RegistersLegal) (b : Byte) : (s.append b).RegistersLegal :=
  { h with window := State.append_wf h.window b }

/-- A tag pushed where fewer than eight are held (R167). -/
theorem State.RegistersLegal.pushTag (h : s.RegistersLegal) (hn : s.ecnt.toNat < 8) (t : BitVec 1) :
    (s.pushTag t).RegistersLegal :=
  { h with
    ecnt := by
      rw [State.pushTag_ecnt]
      bv_omega
    etag := etag_push s.etag s.ecnt t hn h.etag }

/-! The reset event (R360). -/

/-- The state after reset is what a reset makes of it. -/
theorem State.reset_eq_resetEvent : State.reset = State.reset.resetEvent := rfl

/-- Reset asks nothing of the state it finds but legal parameters, which it keeps. -/
theorem State.resetEvent_legal (h : s.params.legal = true) : s.resetEvent.Legal :=
  State.legal_of_idle rfl
    { window := Memory.wf_nil, params := h, ecnt := Nat.zero_le _, etag := rfl, toklen := Nat.zero_le _
      refCnt := Nat.zero_le _, candM := Nat.zero_le _, sentinel := sentinelShape_zero }
    { doneClear := nofun, record := fun _ => ⟨rfl, rfl, rfl⟩, code := nofun }

/-! The decoder's conditions, by the state it is in. -/

/-- Up to the test of D_LOOP the decoder has no condition but its mode and its position. -/
theorem State.decoderLegal_of_untested (hs : s.dstate = .hdr0 ∨ s.dstate = .hdr1 ∨ s.dstate = .loop) (hm : s.mode = 0)
    (hp : s.inPtr.toNat ≤ s.inp.length) : s.DecoderLegal := by
  refine ⟨hm, hp, ?_, ?_, ?_⟩ <;> rcases hs with hs | hs | hs <;> simp [hs]

/-- From D_TAG to D_REF1 a byte is owed and a control byte is active. -/
theorem State.decoderLegal_of_token (hs : s.dstate = .tag ∨ s.dstate = .lit ∨ s.dstate = .ref0 ∨ s.dstate = .ref1)
    (hm : s.mode = 0) (hp : s.inPtr.toNat ≤ s.inp.length) (hr : s.rem ≠ 0) (ha : s.dflags.getLsbD 8 = true) :
    s.DecoderLegal := by
  refine ⟨hm, hp, fun _ => hr, fun _ => ha, ?_⟩
  rcases hs with hs | hs | hs | hs <;> simp [hs]

/-! The decoder's rules: each keeps the decoder running, or ends the decode in a legal state. -/

/-- A read of a byte that exists keeps the decoder's conditions (R64). -/
theorem State.DecoderRuns.advanceIn (h : s.DecoderRuns) (hp : s.inPtr.toNat < s.inp.length) : s.advanceIn.DecoderRuns where
  registers := { h.registers with }
  status := { h.status with }
  otherIdle := h.otherIdle
  decoder := { h.decoder with
    position := by
      rw [State.advanceIn_inPtr, BitVec.toNat_add]
      exact (Nat.mod_le _ _).trans hp }

/-- A reading state's rule: END_OF_INPUT ends the decode, else the rest of the rule decides (R64, R321). -/
theorem State.DecoderRuns.inRead_legal (h : s.DecoderRuns) {rest : Byte → State → State}
    (hrest : ∀ b, s.advanceIn.DecoderRuns → (rest b s.advanceIn).Legal) : (s.inRead rest).Legal := by
  rcases s.inRead_cases rest with ⟨-, he⟩ | ⟨hp, b, -, he⟩
  · rw [he]
    exact h.registers.legal_raiseFault (State.busy_eq_false.2 ⟨rfl, h.otherIdle⟩)
  · rw [he]
    exact hrest b (h.advanceIn hp)

theorem State.DecoderRuns.headerHigh (h : s.DecoderRuns) (b : Byte) : (s.headerHigh b).DecoderRuns where
  registers := { h.registers with }
  status := { h.status with }
  otherIdle := h.otherIdle
  decoder := State.decoderLegal_of_untested (.inr (.inl rfl)) h.decoder.mode h.decoder.position

theorem State.DecoderRuns.headerLow (h : s.DecoderRuns) (b : Byte) : (s.headerLow b).DecoderRuns where
  registers := { h.registers with }
  status := { h.status with }
  otherIdle := h.otherIdle
  decoder := State.decoderLegal_of_untested (.inr (.inr rfl)) h.decoder.mode h.decoder.position

/-- D_LOOP ends the decode when nothing is owed, and keeps it running otherwise (R193). -/
theorem State.DecoderRuns.loopHead_legal (h : s.DecoderRuns) : s.loopHead.Legal := by
  have hshift : State.RegistersLegal { s with dflags := s.dflags >>> 1 } :=
    { h.registers with sentinel := sentinelShape_shift h.registers.sentinel }
  by_cases hr : s.rem = 0
  · rw [State.loopHead_done hr]
    exact State.legal_of_idle (State.busy_eq_false.2 ⟨rfl, h.otherIdle⟩) { h.registers with }
      { h.status.legal with doneClear := fun _ => h.status.faulted }
  · cases ha : (s.dflags >>> 1).getLsbD 8 with
    | false =>
      rw [State.loopHead_control hr ha]
      exact State.DecoderRuns.legal
        { registers := { hshift with }
          status := { h.status with }
          otherIdle := h.otherIdle
          decoder := { h.decoder with owes := fun _ => hr, active := by simp, replay := nofun } }
    | true =>
      rw [State.loopHead_tag hr ha]
      exact State.DecoderRuns.legal
        { registers := { hshift with }
          status := { h.status with }
          otherIdle := h.otherIdle
          decoder := State.decoderLegal_of_token (.inl rfl) h.decoder.mode h.decoder.position hr ha }

/-- D_CTRL loads a control byte, which is then active (R194, R162). -/
theorem State.DecoderRuns.controlLoad (h : s.DecoderRuns) (hs : s.dstate = .ctrl) (c : Byte) :
    (s.controlLoad c).DecoderRuns where
  registers := { h.registers with sentinel := sentinelShape_load c }
  status := { h.status with }
  otherIdle := h.otherIdle
  decoder := State.decoderLegal_of_token (.inl rfl) h.decoder.mode h.decoder.position (h.decoder.owes (.inl hs))
    (load_active c)

theorem State.DecoderRuns.tagDispatch (h : s.DecoderRuns) (hs : s.dstate = .tag) : s.tagDispatch.DecoderRuns := by
  have hr := h.decoder.owes (.inr (.inl hs))
  have ha := h.decoder.active (.inl hs)
  cases hb : s.dflags.getLsbD 0 with
  | true =>
    rw [State.tagDispatch_literal hb]
    exact ⟨{ h.registers with }, { h.status with }, h.otherIdle,
      State.decoderLegal_of_token (.inr (.inl rfl)) h.decoder.mode h.decoder.position hr ha⟩
  | false =>
    rw [State.tagDispatch_backref hb]
    exact ⟨{ h.registers with }, { h.status with }, h.otherIdle,
      State.decoderLegal_of_token (.inr (.inr (.inl rfl))) h.decoder.mode h.decoder.position hr ha⟩

theorem State.DecoderRuns.literalByte (h : s.DecoderRuns) (b : Byte) : (s.literalByte b).DecoderRuns where
  registers := { h.registers with window := State.append_wf h.registers.window b }
  status := { h.status with }
  otherIdle := h.otherIdle
  decoder := State.decoderLegal_of_untested (.inr (.inr rfl)) h.decoder.mode h.decoder.position

theorem State.DecoderRuns.refByte0 (h : s.DecoderRuns) (hs : s.dstate = .ref0) (b : Byte) :
    (s.refByte0 b).DecoderRuns where
  registers := { h.registers with }
  status := { h.status with }
  otherIdle := h.otherIdle
  decoder := State.decoderLegal_of_token (.inr (.inr (.inr rfl))) h.decoder.mode h.decoder.position
    (h.decoder.owes (.inr (.inr (.inr (.inl hs))))) (h.decoder.active (.inr (.inr (.inl hs))))

/-- D_REF1 enters the copy with a replay of 3 to 18 bytes that are all owed, or raises CORRUPT_STREAM (R198). -/
theorem State.DecoderRuns.refByte1_legal (h : s.DecoderRuns) (hs : s.dstate = .ref1) (hi : Byte) :
    (s.refByte1 hi).Legal := by
  have hc := replayCount_toNat (brefNibble hi)
  have hn := (brefNibble hi).isLt
  rcases Nat.lt_or_ge s.rem.toNat ((brefNibble hi).toNat + 3) with hr | hr
  · rw [State.refByte1_corrupt hr]
    have hr : State.RegistersLegal { s with refOff := brefOffset s.refLo hi } := { h.registers with }
    exact hr.legal_raiseFault (State.busy_eq_false.2 ⟨rfl, h.otherIdle⟩)
  · rw [State.refByte1_copy hr]
    exact State.DecoderRuns.legal
      { registers := { h.registers with refCnt := by dsimp only; omega }
        status := { h.status with }
        otherIdle := h.otherIdle
        decoder := { h.decoder with
          owes := by simp
          active := fun _ => h.decoder.active (.inr (.inr (.inr (.inl hs))))
          replay := fun _ => by dsimp only; omega } }

/-- D_COPY owes one byte less and has one byte less to replay (R199). -/
theorem State.DecoderRuns.copyByte (h : s.DecoderRuns) (hs : s.dstate = .copy) : s.copyByte.DecoderRuns := by
  obtain ⟨hpos, hle⟩ := h.decoder.replay hs
  have hcnt : (s.refCnt - 1).toNat = s.refCnt.toNat - 1 := BitVec.toNat_sub_of_le hpos
  have hrem : (s.rem - 1).toNat = s.rem.toNat - 1 := BitVec.toNat_sub_of_le (hpos.trans hle)
  have h18 := h.registers.refCnt
  rw [State.copyByte_eq]
  refine ⟨{ h.registers with window := State.append_wf h.registers.window _, refCnt := ?_ }, { h.status with },
    h.otherIdle, ?_⟩
  · dsimp only
    omega
  · by_cases h0 : s.refCnt - 1 = 0
    · rw [if_pos h0]
      exact State.decoderLegal_of_untested (.inr (.inr rfl)) h.decoder.mode h.decoder.position
    · have hne : (s.refCnt - 1).toNat ≠ 0 := fun he => h0 (BitVec.eq_of_toNat_eq he)
      rw [if_neg h0]
      exact { h.decoder with
        owes := by simp
        active := fun _ => h.decoder.active (.inr (.inr (.inr (.inr hs))))
        replay := fun _ => by dsimp only; omega }

/-- A block step of the decoder ends in a legal state (R191 to R199). -/
theorem State.DecoderRuns.decoderStep_legal (h : s.DecoderRuns) : s.decoderStep.Legal := by
  cases hs : s.dstate with
  | hdr0 => simpa only [State.decoderStep, hs] using h.inRead_legal fun b h' => (h'.headerHigh b).legal
  | hdr1 => simpa only [State.decoderStep, hs] using h.inRead_legal fun b h' => (h'.headerLow b).legal
  | loop => simpa only [State.decoderStep, hs] using h.loopHead_legal
  | ctrl => simpa only [State.decoderStep, hs] using h.inRead_legal fun b h' => (h'.controlLoad hs b).legal
  | tag => simpa only [State.decoderStep, hs] using (h.tagDispatch hs).legal
  | lit => simpa only [State.decoderStep, hs] using h.inRead_legal fun b h' => (h'.literalByte b).legal
  | ref0 => simpa only [State.decoderStep, hs] using h.inRead_legal fun b h' => (h'.refByte0 hs b).legal
  | ref1 => simpa only [State.decoderStep, hs] using h.inRead_legal fun b h' => h'.refByte1_legal hs b
  | copy => simpa only [State.decoderStep, hs] using (h.copyByte hs).legal
  | idle | done | fault => simpa only [State.decoderStep, hs] using h.legal

/-! The encoder's conditions: those of every state, and those its state is entered with. -/

/-- What holds in every state of a running encoder. -/
structure State.EncoderCounts (s : State) : Prop where
  mode : s.mode = 1
  length : s.inp.length ≤ Config.nMax
  header : s.hdrN.toNat = s.inp.length
  position : s.epos.toNat + s.erem.toNat = s.inp.length
  buffer : s.toklen.toNat ≤ 2 * s.ecnt.toNat
  grouped : 8 * s.groups.toNat + s.ecnt.toNat ≤ s.epos.toNat

/-- What holds on entry to the encoder's state (R281 to R288). -/
def State.EncoderEntry (s : State) : Prop :=
  match s.estate with
  | .hdr0 | .hdr1 => s.epos = 0
  | .flush => s.ecnt = 8 ∧ s.erem ≠ 0
  | .search | .lit => s.ecnt.toNat < 8 ∧ s.erem ≠ 0
  | .ref => s.ecnt.toNat < 8 ∧ 3 ≤ s.candM.toNat ∧ s.candM.toNat ≤ s.erem.toNat ∧ s.candM.toNat ≤ s.params.maxMatch
  | .final => s.erem = 0
  | .idle | .loop | .done | .fault => True

theorem State.EncoderLegal.counts (h : s.EncoderLegal) : s.EncoderCounts := { h with }

theorem State.EncoderCounts.legal (h : s.EncoderCounts) (he : s.EncoderEntry) : s.EncoderLegal := by
  unfold State.EncoderEntry at he
  exact { h with
    start := by rintro (hs | hs) <;> simpa only [hs] using he
    full := fun hs => by simpa only [hs] using he
    open_ := by rintro (hs | hs) <;> simpa only [hs] using he
    matched := fun hs => by simpa only [hs] using he
    last := fun hs => by simpa only [hs] using he }

/-- The cap of a legal parameter set is at most 18 (I5). -/
theorem Params.maxMatch_le {p : Params} (h : p.legal = true) : p.maxMatch ≤ 18 := by
  simp only [Params.legal, Bool.and_eq_true, decide_eq_true_eq] at h
  exact h.1.2

/-! The encoder's rules: none of them stops, and each keeps the encoder running or ends the encode in a legal state. -/

theorem State.EncoderRuns.encHdr0 (h : s.EncoderRuns) (hs : s.estate = .hdr0) :
    ∃ t, encHdr0 s = .next t ∧ t.EncoderRuns :=
  ⟨_, rfl, { h.registers with }, { h.status with }, h.otherIdle,
    State.EncoderCounts.legal { h.encoder.counts with } (h.encoder.start (.inl hs))⟩

theorem State.EncoderRuns.encHdr1 (h : s.EncoderRuns) : ∃ t, encHdr1 s = .next t ∧ t.EncoderRuns :=
  ⟨_, rfl, { h.registers with }, { h.status with }, h.otherIdle,
    State.EncoderCounts.legal { h.encoder.counts with } trivial⟩

/-- E_LOOP enters the state whose conditions it tested (R283). -/
theorem State.EncoderRuns.encLoop (h : s.EncoderRuns) : ∃ t, encLoop s = .next t ∧ t.EncoderRuns := by
  refine ⟨_, rfl, { h.registers with }, { h.status with }, h.otherIdle,
    State.EncoderCounts.legal { h.encoder.counts with } ?_⟩
  by_cases hr : s.erem = 0
  · rw [if_pos hr]
    exact hr
  · by_cases hc : s.ecnt = 8
    · rw [if_neg hr, if_pos hc]
      exact ⟨hc, hr⟩
    · rw [if_neg hr, if_neg hc]
      have hne : s.ecnt.toNat ≠ 8 := fun he => hc (BitVec.eq_of_toNat_eq he)
      exact ⟨Nat.lt_of_le_of_ne h.registers.ecnt hne, hr⟩

/-- E_FLUSH counts one more group of eight tags (R284, R33). -/
theorem State.EncoderRuns.encFlush (h : s.EncoderRuns) (hs : s.estate = .flush) :
    ∃ t, encFlush s = .next t ∧ t.EncoderRuns := by
  obtain ⟨hfull, hr⟩ := h.encoder.full hs
  have hcnt : s.ecnt.toNat = 8 := congrArg BitVec.toNat hfull
  have hgroups : (s.groups + 1).toNat ≤ s.groups.toNat + 1 := by
    rw [BitVec.toNat_add]
    exact Nat.mod_le _ _
  have hold := h.encoder.grouped
  refine ⟨_, encFlush_eq h.registers.toklen,
    { h.registers with ecnt := Nat.zero_le _, etag := rfl, toklen := Nat.zero_le _ }, { h.status with }, h.otherIdle,
    State.EncoderCounts.legal { h.encoder.counts with buffer := Nat.zero_le _, grouped := ?_ }
      ⟨(by decide : (0#4).toNat < 8), hr⟩⟩
  change 8 * (s.groups + 1).toNat + 0 ≤ s.epos.toNat
  omega

/-- What E_SEARCH finds is a candidate within the cap and within the input that is left (R252, R287). -/
theorem State.searchResult_bounds {c : Candidate} (h : s.searchResult = some c) :
    3 ≤ c.m ∧ c.m ≤ s.params.maxMatch ∧ s.epos.toNat + c.m ≤ s.inp.length := by
  unfold State.searchResult at h
  split at h
  · exact (State.cands_bounds (State.find_mem h).2).2
  · cases h

/-- E_SEARCH latches the candidate it found, and keeps the room for one more tag (R285). -/
theorem State.EncoderRuns.encSearch (h : s.EncoderRuns) (hs : s.estate = .search) :
    ∃ t, encSearch s = .next t ∧ t.EncoderRuns := by
  have hopen := h.encoder.open_ (.inl hs)
  cases hf : s.searchResult with
  | none =>
    exact ⟨_, encSearch_none hf, { h.registers with }, { h.status with }, h.otherIdle,
      State.EncoderCounts.legal { h.encoder.counts with } hopen⟩
  | some c =>
    obtain ⟨h3, hcap, hin⟩ := State.searchResult_bounds hf
    have h18 := Params.maxMatch_le h.registers.params
    have hpos := h.encoder.position
    have hm : (BitVec.ofNat 5 c.m).toNat = c.m := by
      rw [BitVec.toNat_ofNat]
      omega
    refine ⟨_, encSearch_some hf, { h.registers with candM := ?_ }, { h.status with }, h.otherIdle,
      State.EncoderCounts.legal { h.encoder.counts with } ⟨hopen.1, ?_⟩⟩
    · dsimp only
      omega
    · dsimp only
      omega

/-- E_LIT buffers one byte under one tag and covers one input byte (R286). -/
theorem State.EncoderRuns.encLit (h : s.EncoderRuns) (hs : s.estate = .lit) :
    ∃ t, encLit s = .next t ∧ t.EncoderRuns := by
  obtain ⟨hopen, hleft⟩ := h.encoder.open_ (.inr hs)
  have hleft : 1 ≤ s.erem.toNat := Nat.one_le_iff_ne_zero.2 fun he => hleft (BitVec.eq_of_toNat_eq he)
  have hlen : s.inp.length ≤ 65535 := h.encoder.length
  have hpos := h.encoder.position
  have hbuf := h.encoder.buffer
  have hgrp := h.encoder.grouped
  have hin : s.epos.toNat < s.inp.length := by omega
  have hecnt : (s.ecnt + 1).toNat = s.ecnt.toNat + 1 := by bv_omega
  have htok : (s.toklen + 1).toNat = s.toklen.toNat + 1 := by bv_omega
  have hepos : (s.epos + 1).toNat = s.epos.toNat + 1 := by bv_omega
  have herem : (s.erem - 1).toNat = s.erem.toNat - 1 := BitVec.toNat_sub_of_le hleft
  refine ⟨_, encLit_eq (State.input_eq_some.2 ⟨hin, rfl⟩) (by omega),
    { h.registers.pushTag hopen 1 with
      window := State.append_wf h.registers.window _
      toklen := ?_ }, { h.status with }, h.otherIdle,
    State.EncoderCounts.legal { h.encoder.counts with position := ?_, buffer := ?_, grouped := ?_ } trivial⟩
  all_goals dsimp only; omega

/-- E_REF buffers two bytes under one tag and covers the matched input bytes (R287). -/
theorem State.EncoderRuns.encRef (h : s.EncoderRuns) (hs : s.estate = .ref) :
    ∃ t, encRef s = .next t ∧ t.EncoderRuns := by
  obtain ⟨hopen, h3, hleft, -⟩ := h.encoder.matched hs
  have hlen : s.inp.length ≤ 65535 := h.encoder.length
  have hpos := h.encoder.position
  have hbuf := h.encoder.buffer
  have hgrp := h.encoder.grouped
  have h18 := h.registers.candM
  have h32 : (s.candM.setWidth 32).toNat = s.candM.toNat := BitVec.toNat_setWidth_of_le (by decide)
  have h16 : (s.candM.setWidth 16).toNat = s.candM.toNat := BitVec.toNat_setWidth_of_le (by decide)
  have hecnt : (s.ecnt + 1).toNat = s.ecnt.toNat + 1 := by bv_omega
  have htok : (s.toklen + 1 + 1).toNat = s.toklen.toNat + 2 := by bv_omega
  have hepos : (s.epos + s.candM.setWidth 32).toNat = s.epos.toNat + s.candM.toNat := by
    rw [BitVec.toNat_add_of_lt (by omega), h32]
  have herem : (s.erem - s.candM.setWidth 16).toNat = s.erem.toNat - s.candM.toNat := by
    rw [BitVec.toNat_sub_of_le (BitVec.le_def.2 (h16.trans_le hleft)), h16]
  refine ⟨_, encRef_eq (by omega) (by omega),
    { h.registers.pushTag hopen 0 with
      window := State.appendAll_wf _ h.registers.window
      toklen := ?_ }, { h.status with }, h.otherIdle,
    State.EncoderCounts.legal { h.encoder.counts with position := ?_, buffer := ?_, grouped := ?_ } trivial⟩
  all_goals dsimp only; omega

/-- E_FINAL ends the encode, with a last group flushed or without (R288). -/
theorem State.EncoderRuns.encFinal_legal (h : s.EncoderRuns) : ∃ t, encFinal s = .next t ∧ t.Legal := by
  have hidle : ∀ t : State, t.dstate = s.dstate → t.estate = .done → t.busy = false := fun t hd he =>
    State.busy_eq_false.2 ⟨hd ▸ h.otherIdle, he ▸ rfl⟩
  by_cases hc : s.ecnt = 0
  · exact ⟨_, encFinal_empty hc, State.legal_of_idle (hidle _ rfl rfl) { h.registers with }
      { h.status.legal with doneClear := fun _ => h.status.faulted }⟩
  · exact ⟨_, encFinal_eq hc h.registers.toklen, State.legal_of_idle (hidle _ rfl rfl)
      { h.registers with ecnt := Nat.zero_le _, etag := rfl, toklen := Nat.zero_le _ }
      { h.status.legal with doneClear := fun _ => h.status.faulted }⟩

/-- A block step of the encoder stops in no legal state, and ends in a legal one (R281 to R288). -/
theorem State.EncoderRuns.encoderStep_legal (h : s.EncoderRuns) : ∃ t, encoderStep s = .next t ∧ t.Legal := by
  have hruns : ∀ {a : Answer}, (∃ t, a = .next t ∧ t.EncoderRuns) → ∃ t, a = .next t ∧ t.Legal :=
    fun ⟨t, ht, hl⟩ => ⟨t, ht, hl.legal⟩
  cases hs : s.estate with
  | hdr0 => simpa only [encoderStep, hs] using hruns (h.encHdr0 hs)
  | hdr1 => simpa only [encoderStep, hs] using hruns h.encHdr1
  | loop => simpa only [encoderStep, hs] using hruns h.encLoop
  | flush => simpa only [encoderStep, hs] using hruns (h.encFlush hs)
  | search => simpa only [encoderStep, hs] using hruns (h.encSearch hs)
  | lit => simpa only [encoderStep, hs] using hruns (h.encLit hs)
  | ref => simpa only [encoderStep, hs] using hruns (h.encRef hs)
  | final => simpa only [encoderStep, hs] using h.encFinal_legal
  | idle | done | fault => exact ⟨s, by simp only [encoderStep, hs], h.legal⟩

/-- A block step stops in no legal state, and ends in a legal one (R341). -/
theorem State.Legal.blockStep (h : s.Legal) : ∃ t, blockStep s = .next t ∧ t.Legal := by
  cases hd : s.dstate.busy with
  | true => exact ⟨_, blockStep_decoder hd, (h.decoderRuns hd).decoderStep_legal⟩
  | false =>
    cases he : s.estate.busy with
    | true => simpa only [blockStep_encoder hd he] using (h.encoderRuns he).encoderStep_legal
    | false => exact ⟨s, by simp [Machine.blockStep, hd, he], h⟩

/-! The commands in an idle block. -/

/-- DEC.START starts a decoder (R190). -/
theorem State.RegistersLegal.execDecStart (h : s.RegistersLegal) : ∃ t, execDecStart s = .next t ∧ t.DecoderRuns :=
  ⟨_, execDecStart_eq s,
    { h with window := Memory.wf_nil, refCnt := Nat.zero_le _, sentinel := sentinelShape_zero },
    ⟨rfl, rfl, rfl, rfl, rfl⟩, rfl, State.decoderLegal_of_untested (.inl rfl) rfl (Nat.zero_le _)⟩

/-- ENC.START starts an encoder, or faults with both machines stopped (R280). -/
theorem State.RegistersLegal.execEncStart_legal (h : s.RegistersLegal) : ∃ t, execEncStart s = .next t ∧ t.Legal := by
  rcases Nat.lt_or_ge 65535 s.inp.length with hl | hl
  · exact ⟨_, execEncStart_long hl, State.legal_of_idle rfl { h with }
      { doneClear := nofun, record := nofun, code := fun _ => FaultCause.code_range (.inputTooLong 0) }⟩
  · have hlen : (BitVec.ofNat 16 s.inp.length).toNat = s.inp.length := by
      rw [BitVec.toNat_ofNat]
      omega
    exact ⟨_, execEncStart_eq hl, State.EncoderRuns.legal
      { registers := { h with
          window := Memory.wf_nil, ecnt := Nat.zero_le _, etag := rfl, toklen := Nat.zero_le _, candM := Nat.zero_le _ }
        status := ⟨rfl, rfl, rfl, rfl, rfl⟩
        otherIdle := rfl
        encoder := State.EncoderCounts.legal
          { mode := rfl, length := hl, header := hlen, position := (Nat.zero_add _).trans hlen, buffer := Nat.zero_le _
            grouped := Nat.zero_le _ } rfl }⟩

/-- A command in an idle block ends in a legal state (R130 to R294). -/
theorem State.Legal.exec_command (h : s.Legal) (hb : s.busy = false) (i : Instr)
    (hi : (∀ n, i ≠ .hdr n) ∧ (∀ v, i ≠ .ctrl v) ∧ (∀ b, i ≠ .lit b) ∧ ∀ off n, i ≠ .bref off n) :
    ∃ t, exec i s = .next t ∧ t.Legal := by
  obtain ⟨hhdr, hctrl, hlit, hbref⟩ := hi
  have hr := h.registers
  have hst := h.status
  have hset : ∀ v, (s.setRes v).Legal := fun v => h.setOuter v s.pending s.host s.draws
  have hill : ∀ w, (s.raiseFault (.illegalCmd w)).Legal := fun w => hr.legal_raiseFault hb
  cases i with
  | nop => exact ⟨_, rfl, h⟩
  | swbInit => exact ⟨_, rfl, State.legal_of_idle hb { hr with window := Memory.wf_nil } { hst with }⟩
  | swbAppend b => exact ⟨_, rfl, State.legal_of_idle hb (hr.append b) { hst with }⟩
  | swbGet slot => exact ⟨_, rfl, hset _⟩
  | swbCursor => exact ⟨_, rfl, hset _⟩
  | swbReplay slot => exact ⟨_, rfl, State.legal_of_idle hb { hr.append (s.slot slot) with } { hst with }⟩
  | cfcDClear => exact ⟨_, rfl, State.legal_of_idle hb { hr with sentinel := sentinelShape_zero } { hst with }⟩
  | cfcDShift => exact ⟨_, rfl, State.legal_of_idle hb { hr with sentinel := sentinelShape_shift hr.sentinel } { hst with }⟩
  | cfcDLoad c => exact ⟨_, rfl, State.legal_of_idle hb { hr with sentinel := sentinelShape_load c } { hst with }⟩
  | cfcDTag => exact ⟨_, rfl, hset _⟩
  | cfcEClear => exact ⟨_, rfl, State.legal_of_idle hb { hr with ecnt := Nat.zero_le _, etag := rfl } { hst with }⟩
  | cfcEPush t ignored =>
    by_cases he : s.ecnt = 8
    · exact ⟨_, if_pos he, hill _⟩
    · have hne : s.ecnt.toNat ≠ 8 := fun h8 => he (BitVec.eq_of_toNat_eq h8)
      exact ⟨_, if_neg he, State.legal_of_idle hb (hr.pushTag (Nat.lt_of_le_of_ne hr.ecnt hne) t) { hst with }⟩
  | cfcEFlush => exact ⟨_, rfl, State.legal_of_idle hb { hr with ecnt := Nat.zero_le _, etag := rfl } { hst with }⟩
  | decStart =>
    obtain ⟨t, ht, hruns⟩ := hr.execDecStart
    exact ⟨t, ht, hruns.legal⟩
  | encStart => exact hr.execEncStart_legal
  | mfCount b => exact ⟨_, rfl, hset _⟩
  | mfProbe slot => exact ⟨_, rfl, hset _⟩
  | mfFind => exact ⟨_, rfl, hset _⟩
  | mfSetpos p => exact ⟨_, rfl, State.legal_of_idle hb { hr with } { hst with }⟩
  | csrRead n ignored =>
    cases hc : s.csr n with
    | some v => exact ⟨_, by rw [exec, execCsrRead, hc], hset v⟩
    | none => exact ⟨_, by rw [exec, execCsrRead, hc], hill _⟩
  | hdr n => exact absurd rfl (hhdr n)
  | ctrl v => exact absurd rfl (hctrl v)
  | lit b => exact absurd rfl (hlit b)
  | bref off n => exact absurd rfl (hbref off n)

/-- The acceptance of a word the busy hold lets through ends in a legal state (R341). -/
theorem State.Legal.acceptCommand (h : s.Legal) {w : CmdWord} (hw : s.busy = true → acceptedWhileBusy w = true) :
    ∃ t, acceptCommand w s = .next t ∧ t.Legal := by
  cases hb : s.busy with
  | true =>
    obtain ⟨v, hv⟩ := acceptCommand_busy (hw hb) s
    exact ⟨_, hv, h.setOuter v s.pending s.host s.draws⟩
  | false =>
    unfold Machine.acceptCommand
    cases hd : decodeCommand w with
    | ok i => exact h.exec_command hb i (decodeCommand_ne_token hd)
    | error e => exact ⟨_, rfl, h.registers.legal_raiseFault hb⟩

/-- Whatever move a step takes, it ends in a legal state (R341). -/
theorem State.Legal.step {t : State} (h : s.Legal) (ht : step s = .next t) : t.Legal := by
  have hoffer := h.offer
  rcases step_next ht with ⟨-, rfl⟩ | ⟨d, ⟨-, hblock⟩ | ⟨w, -, hw, hacc⟩ | ⟨-, rfl⟩ | ⟨bytes, -, hb, rfl⟩ | ⟨-, rfl⟩⟩
  · exact hoffer
  · obtain ⟨u, hu, hl⟩ := (hoffer.setOuter s.offer.res s.offer.pending s.offer.host d).blockStep
    cases hu.symm.trans hblock
    exact hl
  · obtain ⟨u, hu, hl⟩ := (hoffer.setOuter s.offer.res none s.offer.host d).acceptCommand (w := w)
      fun hb => hw ((State.offer_busy s).symm.trans hb)
    cases hu.symm.trans hacc
    exact hl
  · exact State.resetEvent_legal hoffer.params
  · exact State.legal_of_idle ((State.offer_busy s).trans hb) { hoffer.registers with } { hoffer.status with }
  · exact hoffer.setOuter s.offer.res s.offer.pending s.offer.host.tail d

/-! The CSR map (R43) and the STATUS word (R40). -/

theorem decodeCommand_csrRead (n : BitVec 4) (ignored : BitVec 12) :
    decodeCommand (cmdWord 0x5#4 0x1#4 (ignored ++ n)) = .ok (.csrRead n ignored) := decode_csrRead ignored n

theorem acceptedWhileBusy_csrRead (n : BitVec 4) (ignored : BitVec 12) :
    acceptedWhileBusy (cmdWord 0x5#4 0x1#4 (ignored ++ n)) = decide (n.toNat ≤ 10) := by
  rw [acceptedWhileBusy, decodeCommand_csrRead]
  rfl

theorem exec_csrRead_some {n : BitVec 4} {v : Word} (hv : s.csr n = some v) (ignored : BitVec 12) :
    exec (.csrRead n ignored) s = .next (s.setRes v) := by
  rw [exec, execCsrRead, hv]

theorem exec_csrRead_none {n : BitVec 4} (hn : s.csr n = none) (ignored : BitVec 12) :
    exec (.csrRead n ignored) s = .next (s.raiseFault (.illegalCmd (csrReadWord n ignored))) := by
  rw [exec, execCsrRead, hn]

/-- The CSRs 11 to 15 are reserved (R43). -/
theorem State.csr_reserved {n : BitVec 4} (hn : 11 ≤ n.toNat) : s.csr n = none := by
  unfold State.csr
  split
  case h_12 => rfl
  all_goals omega

theorem DState.busy_iff (d : DState) : d.busy = true ↔
    d ∈ [DState.hdr0, .hdr1, .loop, .ctrl, .tag, .lit, .ref0, .ref1, .copy] := by
  cases d <;> decide

theorem EState.busy_iff (e : EState) : e.busy = true ↔
    e ∈ [EState.hdr0, .hdr1, .loop, .flush, .search, .lit, .ref, .final] := by
  cases e <;> decide

/-! The reset of a machine that the host presents it to (R360). -/

theorem State.resetEvent_status (s : State) : s.resetEvent.status = 0x0000#16 := by
  change State.reset.status = 0x0000#16
  decide

/-- A reset at the head of the host's list is not a command to offer. -/
theorem State.offer_of_reset {rest : List HostEvent} (hh : s.host = .reset :: rest) : s.offer = s := by
  unfold State.offer
  split
  · simp_all
  · rfl

/-- In an idle block with no command presented a reset is the only move. -/
theorem step_reset {rest : List HostEvent} (hb : s.busy = false) (hp : s.pending = none)
    (hh : s.host = .reset :: rest) : Machine.step s = runTurn .reset s := by
  rw [Machine.step, State.offer_of_reset hh]
  exact takeTurn_single (by simp [State.turns, State.eventTurns, State.acceptTurns, State.blockTurns, hb, hp, hh])

end Sys2Proof.Machine

section

open Sys2Proof Sys2Proof.Machine

/-- Settles O57: whatever move the step takes. -/
theorem everyStepKeepsLegal : Obligations.EveryStepKeepsLegal := by
  unfold Obligations.EveryStepKeepsLegal
  intro s t h ht
  exact h.step ht

/-- Settles O12: both states are what the reset event makes of some state. -/
theorem resetRestoresEveryRegister : Obligations.ResetRestoresEveryRegister := by
  unfold Obligations.ResetRestoresEveryRegister
  refine ⟨fun s r rest hr => ?_, fun s rest hh => ⟨?_, fun hb hp => step_reset hb hp hh, _, rfl, rfl, rfl, rfl, ?_⟩⟩
  · obtain ⟨u, rfl⟩ : ∃ u : State, r = u.resetEvent := by
      rcases hr with rfl | ⟨-, hr⟩
      · exact ⟨_, State.reset_eq_resetEvent⟩
      · cases hr
        exact ⟨_, rfl⟩
    exact ⟨fun i => rfl, rfl, rfl, rfl, rfl, rfl, rfl, rfl, rfl, rfl, rfl, rfl, rfl, rfl, rfl, rfl, rfl, rfl, rfl, rfl, rfl,
      State.resetEvent_status u, rfl, rfl, rfl⟩
  · rw [State.offer_of_reset hh, State.mem_turns]
    exact congrArg List.head? hh
  · exact congrArg List.tail hh

/-- Settles O31: the rows of the CSR map, and the numbers it has no row for. -/
theorem csrReadReturnsEachRegister : Obligations.CsrReadReturnsEachRegister := by
  unfold Obligations.CsrReadReturnsEachRegister
  refine fun s x n => ⟨decodeCommand_csrRead n x, acceptedWhileBusy_csrRead n x, fun row hrow hn => ?_, fun hn => ?_⟩
  · have hcsr : s.csr n = some row.2 := by
      unfold State.csr
      rw [hn]
      simp only [List.mem_cons, List.not_mem_nil, or_false] at hrow
      rcases hrow with rfl | rfl | rfl | rfl | rfl | rfl | rfl | rfl | rfl | rfl | rfl <;> rfl
    exact exec_csrRead_some hcsr x
  · exact exec_csrRead_none (State.csr_reserved hn) x

/-- Settles O32: BUSY by the states of the two machines, the other bits for every value of the five fields. -/
theorem statusWordShowsItsBits : Obligations.StatusWordShowsItsBits := by
  unfold Obligations.StatusWordShowsItsBits
  intro s
  rw [← DState.busy_iff, ← EState.busy_iff, ← State.busy_eq_true]
  unfold State.status
  generalize s.fcode = c, s.mode = m, s.faulted = f, s.done = d, s.busy = b
  revert c m f d b
  decide

/-- Settles O56: the state after reset is the result of a reset. -/
theorem resetStateIsLegal : Obligations.ResetStateIsLegal := by
  unfold Obligations.ResetStateIsLegal
  have hlegal : State.reset.Legal := by
    rw [State.reset_eq_resetEvent]
    exact State.resetEvent_legal (by decide)
  exact ⟨hlegal, rfl, hlegal.window⟩

end

/-! SUPPORT. The frame of a whole step: it moves the host's side of the state, and then does what a command or a block step
can do to the streams, the parameters and the window. -/

namespace Sys2Proof.Machine

variable {s t : State}

/-- What a step does to the window is told by the window and the cursor it starts from. -/
theorem WindowGrows.congr {u : State} (h : WindowGrows u t) (hw : u.win = s.win) (hc : u.cur = s.cur) : WindowGrows s t := by
  rcases h with hfill | ⟨bytes, hlen, hwin, hcur⟩
  · exact .inl hfill
  · obtain ⟨hw', hc'⟩ := State.appendAll_congr bytes hw hc
    exact .inr ⟨bytes, hlen, hwin.trans hw', hcur.trans hc'⟩

/-- The fill and the appends keep the canonical form (R62). -/
theorem WindowGrows.wf (h : WindowGrows s t) (hs : s.win.wf) : t.win.wf := by
  rcases h with ⟨hwin, -⟩ | ⟨bytes, -, hwin, -⟩
  · exact hwin ▸ Memory.wf_nil
  · exact hwin ▸ State.appendAll_wf bytes hs

/-- The slots and the cursor after the fill or the appends (R131, R137). -/
theorem WindowGrows.slots (h : WindowGrows s t) :
    (∀ i, t.slot i = 0x00#8) ∧ t.cur = Config.initCursor ∨
      ∃ bytes : List Byte, bytes.length ≤ 31 ∧ (∀ i, t.slot i = (s.appendAll bytes).slot i) ∧
        t.cur = s.cur + BitVec.ofNat 12 bytes.length := by
  rcases h with ⟨hwin, hcur⟩ | ⟨bytes, hlen, hwin, hcur⟩
  · exact .inl ⟨fun i => by rw [State.slot, hwin, Memory.read_nil], hcur⟩
  · exact .inr ⟨bytes, hlen, fun i => by rw [State.slot, hwin, State.slot], hcur.trans (s.appendAll_cur bytes)⟩

/-- A reset fills the window, discards the held command, and leaves the host's own fields and the parameters (R360). -/
theorem State.resetEvent_frame (s : State) :
    KeepsHost { s with pending := none } s.resetEvent ∧ WindowGrows { s with pending := none } s.resetEvent :=
  ⟨⟨rfl, rfl, rfl, rfl, rfl, List.prefix_refl _⟩, .inl ⟨rfl, rfl⟩⟩

/-- Every step, whatever its move: the host's side may move, IN among it only by the event of an idle block's host; all the
rest is what a command or a block step does (R341, R38). -/
theorem step_frame (h : step s = .next t) :
    ∃ (pending : Option CmdWord) (host : List HostEvent) (draws : Nat) (inp : List Byte),
      (inp = s.inp ∨ s.busy = false ∧ s.offer.host.head? = some (.present inp)) ∧
      KeepsHost { s with pending, host, draws, inp } t ∧ WindowGrows { s with pending, host, draws, inp } t := by
  have hmove := step_next h
  obtain ⟨p, l, hoffer⟩ : ∃ p l, s.offer = { s with pending := p, host := l } := ⟨_, _, s.offer_frame⟩
  rw [hoffer] at hmove ⊢
  rcases hmove with ⟨-, rfl⟩ | ⟨d, ⟨-, hblock⟩ | ⟨w, -, -, hacc⟩ | ⟨-, rfl⟩ | ⟨bytes, hhead, hidle, rfl⟩ | ⟨-, rfl⟩⟩
  · exact ⟨p, l, s.draws, s.inp, .inl rfl, .refl _, .same rfl rfl⟩
  · exact ⟨p, l, d, s.inp, .inl rfl, blockStep_frame hblock⟩
  · obtain ⟨u, hu, hframe⟩ := acceptCommand_next w { s with pending := none, host := l, draws := d }
    cases hu.symm.trans hacc
    exact ⟨none, l, d, s.inp, .inl rfl, hframe⟩
  · exact ⟨none, l.tail, d, s.inp, .inl rfl, State.resetEvent_frame { s with pending := p, host := l.tail, draws := d }⟩
  · exact ⟨p, l.tail, d, bytes, .inr ⟨hidle, hhead⟩, .refl _, .same rfl rfl⟩
  · exact ⟨p, l.tail, d, s.inp, .inl rfl, .refl _, .same rfl rfl⟩

end Sys2Proof.Machine

section

open Sys2Proof Sys2Proof.Machine

/-- Settles O59: a step's frame lets the window only be filled or appended to. -/
theorem windowIsWrittenByAppendsOnly : Obligations.WindowIsWrittenByAppendsOnly := by
  unfold Obligations.WindowIsWrittenByAppendsOnly
  intro s t hwf hstep
  obtain ⟨_, _, _, _, -, -, hgrows⟩ := step_frame hstep
  have hgrows : WindowGrows s t := hgrows.congr rfl rfl
  exact ⟨hgrows.wf hwf, hgrows.slots⟩

/-- Settles O60: a step's frame keeps all of the host's side but what the host itself moves. -/
theorem outputGrowsAndInputStays : Obligations.OutputGrowsAndInputStays := by
  unfold Obligations.OutputGrowsAndInputStays
  intro s t hstep
  obtain ⟨_, _, _, inp, hinp, hkeeps, -⟩ := step_frame hstep
  have heq : t.inp = inp := hkeeps.inp
  exact ⟨hkeeps.out, hkeeps.params, heq ▸ hinp⟩

end

/-! SUPPORT. The encodings: a row of the opcode map by the operand bits it reads, the tokens' bytes, and the whole map. -/

namespace Sys2Proof

/-! A row of the opcode map that reads the low `k` operand bits as `f` (R103). -/

section

variable {k : Nat} {u op : BitVec 4} {f : BitVec k → Instr}

/-- A row reads back the operand that the encoder writes (R103, R109). -/
theorem decodeCommand_opndOf (hf : ∀ z, decodeFields u op z = .ok (f (z.extractLsb' 0 k))) (hk : k ≤ 16) (v : BitVec k) :
    decodeCommand (cmdWord u op (opndOf v)) = .ok (f v) := by
  rw [decodeCommand_cmdWord, hf, opndOf_extract hk]

/-- Operands that agree under a mask agree in the low bits it covers. -/
theorem extract_eq_of_mask {x y m : BitVec 16} (hm : ∀ i < k, m.getLsbD i = true) (h : x &&& m = y &&& m) :
    x.extractLsb' 0 k = y.extractLsb' 0 k := by
  ext i hi
  have hbit : (x &&& m).getLsbD i = (y &&& m).getLsbD i := by rw [h]
  simpa [hm i hi] using hbit

end

/-! The tokens (R91 to R97). -/

/-- A token's bytes read as the token, whatever follows them. -/
theorem decodeToken_encode {i : Instr} {kind : TokenKind} {own : List Byte} (h : encode i = .token kind own)
    (rest : List Byte) : decodeToken kind (own ++ rest) = .ok (i, rest) := by
  cases i with
  | hdr n =>
    cases h
    exact congrArg (fun v => Except.ok (Instr.hdr v, rest)) (header_bytes n)
  | ctrl tags => cases h; rfl
  | lit b => cases h; rfl
  | bref off n =>
    cases h
    exact congrArg₂ (fun v w => Except.ok (Instr.bref v w, rest)) (brefOffset_bytes off n) (brefNibble_byte1 off n)
  | _ => cases h

theorem decode_token {kind : TokenKind} {bytes : List Byte} {i : Instr} (h : decodeToken kind bytes = .ok (i, [])) :
    decode (.token kind bytes) = .ok i := by
  rw [decode, h]

/-- A sequence of exactly a token's bytes reads as the token. -/
theorem decode_encode_token {i : Instr} {kind : TokenKind} {own : List Byte} (h : encode i = .token kind own) :
    decode (encode i) = .ok i := by
  have hread := decodeToken_encode h []
  rw [List.append_nil] at hread
  rw [h, decode_token hread]

/-- What a token reads as is encoded as the bytes read. -/
theorem encode_of_decodeToken {kind : TokenKind} {bytes rest : List Byte} {i : Instr}
    (h : decodeToken kind bytes = .ok (i, rest)) : ∃ own, encode i = .token kind own ∧ bytes = own ++ rest := by
  unfold decodeToken at h
  split at h
  · rename_i hi lo tail
    cases h
    exact ⟨[hi, lo], by rw [encode, extract_high, extract_low], rfl⟩
  · rename_i c tail
    cases h
    exact ⟨[c], rfl, rfl⟩
  · rename_i b tail
    cases h
    exact ⟨[b], rfl, rfl⟩
  · rename_i b0 b1 tail
    cases h
    exact ⟨[b0, b1], by rw [encode, brefByte0_offset, brefByte1_offset], rfl⟩
  · cases h

/-- Every instruction reads back from its encoding. -/
theorem decode_encode (i : Instr) : decode (encode i) = .ok i := by
  cases i with
  | nop => exact decode_nop 0
  | swbInit => exact decode_swbInit 0
  | swbAppend b => exact decodeCommand_opndOf (fun _ => rfl) (by decide) b
  | swbGet slot => exact decodeCommand_opndOf (fun _ => rfl) (by decide) slot
  | swbCursor => exact decode_swbCursor 0
  | swbReplay slot => exact decodeCommand_opndOf (fun _ => rfl) (by decide) slot
  | cfcDClear => exact decode_cfcDClear 0
  | cfcDShift => exact decode_cfcDShift 0
  | cfcDLoad c => exact decodeCommand_opndOf (fun _ => rfl) (by decide) c
  | cfcDTag => exact decode_cfcDTag 0
  | cfcEClear => exact decode_cfcEClear 0
  | cfcEPush t ignored => exact decode_cfcEPush ignored t
  | cfcEFlush => exact decode_cfcEFlush 0
  | decStart => exact decode_decStart 0
  | encStart => exact decode_encStart 0
  | mfCount b => exact decodeCommand_opndOf (fun _ => rfl) (by decide) b
  | mfProbe slot => exact decodeCommand_opndOf (fun _ => rfl) (by decide) slot
  | mfFind => exact decode_mfFind 0
  | mfSetpos p => exact decode_mfSetpos p
  | csrRead n ignored => exact decode_csrRead ignored n
  | hdr n => exact decode_encode_token rfl
  | ctrl tags => exact decode_encode_token rfl
  | lit b => exact decode_encode_token rfl
  | bref off n => exact decode_encode_token rfl

/-! The opcode map as a whole (R103, R104). -/

/-- The `(unit, op)` pairs of R103. -/
def listedPairs : List (Nat × Nat) :=
  [(0, 0), (0, 1), (0, 2), (0, 3), (0, 4), (0, 5), (1, 1), (1, 2), (1, 3), (1, 4), (1, 5), (1, 6),
    (1, 7), (2, 1), (3, 1), (4, 1), (4, 2), (4, 3), (4, 4), (5, 1)]

theorem unit_le_of_listed {p : Nat × Nat} (h : p ∈ listedPairs) : p.1 ≤ 5 := by
  revert p
  decide

/-- The two outcomes of the opcode map: a listed pair decodes, any other pair is named by the space it lies in. -/
theorem decodeFields_cases (u op : BitVec 4) (opnd : BitVec 16) :
    ((u.toNat, op.toNat) ∈ listedPairs ∧ ∃ i, decodeFields u op opnd = .ok i) ∨
    ((u.toNat, op.toNat) ∉ listedPairs ∧
      decodeFields u op opnd = if u.toNat ≤ 5 then .error (.reservedOp u op) else .error (.reservedUnit u)) := by
  unfold decodeFields
  split
  case h_21 => exact .inr ⟨by simp_all [listedPairs], rfl⟩
  all_goals
    rename_i hu ho
    exact .inl ⟨by rw [hu, ho]; decide, _, rfl⟩

/-- A listed pair decodes (R103). -/
theorem decodeFields_listed {u op : BitVec 4} (h : (u.toNat, op.toNat) ∈ listedPairs) (opnd : BitVec 16) :
    ∃ i, decodeFields u op opnd = .ok i := by
  rcases decodeFields_cases u op opnd with ⟨-, hok⟩ | ⟨hn, -⟩
  · exact hok
  · exact absurd h hn

/-- A pair that is not listed is rejected under the name of its reserved space (R104). -/
theorem decodeFields_unlisted {u op : BitVec 4} (h : (u.toNat, op.toNat) ∉ listedPairs) (opnd : BitVec 16) :
    decodeFields u op opnd = if u.toNat ≤ 5 then .error (.reservedOp u op) else .error (.reservedUnit u) := by
  rcases decodeFields_cases u op opnd with ⟨hl, -⟩ | ⟨-, herr⟩
  · exact absurd hl h
  · exact herr

end Sys2Proof

namespace Sys2Proof.Machine

/-! Words with the same effect (R105). -/

/-- Two words do the same, but that a rejected one is recorded as it stands (R41). -/
def SameEffect (w v : CmdWord) (s : State) : Prop :=
  ∃ t, acceptCommand w s = .next t ∧
    (acceptCommand v s = .next t ∨
      t.fcode = 4#4 ∧ t.faddr = w.setWidth 32 ∧ acceptCommand v s = .next { t with faddr := v.setWidth 32 })

variable {u op : BitVec 4} {x y : BitVec 16} {s : State}

theorem acceptCommand_of_decode {w : CmdWord} {i : Instr} (h : decodeCommand w = .ok i) (s : State) :
    acceptCommand w s = exec i s := by
  rw [acceptCommand, h]

/-- Words that decode to one instruction do the same. -/
theorem sameEffect_of_fields {i : Instr} (hx : decodeFields u op x = .ok i) (hy : decodeFields u op y = .ok i) (s : State) :
    SameEffect (cmdWord u op x) (cmdWord u op y) s := by
  rw [← decodeCommand_cmdWord] at hx hy
  obtain ⟨t, ht, -, -⟩ := acceptCommand_next (cmdWord u op x) s
  refine ⟨t, ht, .inl ?_⟩
  rw [acceptCommand_of_decode hy, ← acceptCommand_of_decode hx, ht]

/-- Words that are both rejected do the same but for `FADDR`. -/
theorem sameEffect_of_rejected {w v : CmdWord} (hw : acceptCommand w s = .next (s.raiseFault (.illegalCmd w)))
    (hv : acceptCommand v s = .next (s.raiseFault (.illegalCmd v))) : SameEffect w v s :=
  ⟨_, hw, .inr ⟨rfl, rfl, hv⟩⟩

/-- A row whose instruction is told by the low `k` operand bits ignores the others. -/
theorem sameEffect_of_operand {k : Nat} {f : BitVec k → Instr} {m : BitVec 16}
    (hf : ∀ z, decodeFields u op z = .ok (f (z.extractLsb' 0 k))) (hm : ∀ i < k, m.getLsbD i = true)
    (h : x &&& m = y &&& m) (s : State) : SameEffect (cmdWord u op x) (cmdWord u op y) s :=
  sameEffect_of_fields (hf x) (by rw [hf, extract_eq_of_mask hm h]) s

theorem acceptCommand_cfcEPush (x : BitVec 16) (s : State) :
    acceptCommand (cmdWord 1#4 6#4 x) s =
      if s.ecnt = 8 then .next (s.raiseFault (.illegalCmd (cmdWord 1#4 6#4 x)))
      else .next (s.pushTag (x.extractLsb' 0 1)) := by
  have hword : ePushWord (x.extractLsb' 0 1) (x.extractLsb' 1 15) = cmdWord 1#4 6#4 x :=
    congrArg (cmdWord 1#4 6#4) (append_extract (m := 15) (k := 1) x)
  rw [acceptCommand_of_decode ((decodeCommand_cmdWord 1#4 6#4 x).trans rfl), exec, execCfcEPush, hword]

/-- `CFC.E_PUSH` by its tag: both words are rejected, or both push it (R167). -/
theorem sameEffect_cfcEPush (h : x &&& 0x0001#16 = y &&& 0x0001#16) (s : State) :
    SameEffect (cmdWord 1#4 6#4 x) (cmdWord 1#4 6#4 y) s := by
  have htag : x.extractLsb' 0 1 = y.extractLsb' 0 1 := extract_eq_of_mask (by decide) h
  have hx := acceptCommand_cfcEPush x s
  have hy := acceptCommand_cfcEPush y s
  by_cases he : s.ecnt = 8
  · rw [if_pos he] at hx hy
    exact sameEffect_of_rejected hx hy
  · rw [if_neg he] at hx hy
    exact ⟨_, hx, .inl (htag ▸ hy)⟩

theorem acceptCommand_csrRead_some {v : Word} (h : s.csr (x.extractLsb' 0 4) = some v) :
    acceptCommand (cmdWord 5#4 1#4 x) s = .next (s.setRes v) := by
  rw [acceptCommand_of_decode ((decodeCommand_cmdWord 5#4 1#4 x).trans rfl), exec_csrRead_some h]

theorem acceptCommand_csrRead_none (h : s.csr (x.extractLsb' 0 4) = none) :
    acceptCommand (cmdWord 5#4 1#4 x) s = .next (s.raiseFault (.illegalCmd (cmdWord 5#4 1#4 x))) := by
  have hword : csrReadWord (x.extractLsb' 0 4) (x.extractLsb' 4 12) = cmdWord 5#4 1#4 x :=
    congrArg (cmdWord 5#4 1#4) (append_extract (m := 12) (k := 4) x)
  rw [acceptCommand_of_decode ((decodeCommand_cmdWord 5#4 1#4 x).trans rfl), exec_csrRead_none h, hword]

/-- `CSR.READ` by its number: both words are rejected, or both read the register (R294). -/
theorem sameEffect_csrRead (h : x &&& 0x000F#16 = y &&& 0x000F#16) (s : State) :
    SameEffect (cmdWord 5#4 1#4 x) (cmdWord 5#4 1#4 y) s := by
  have hnum : x.extractLsb' 0 4 = y.extractLsb' 0 4 := extract_eq_of_mask (by decide) h
  cases hc : s.csr (x.extractLsb' 0 4) with
  | some v => exact ⟨_, acceptCommand_csrRead_some hc, .inl (acceptCommand_csrRead_some (hnum ▸ hc))⟩
  | none => exact sameEffect_of_rejected (acceptCommand_csrRead_none hc) (acceptCommand_csrRead_none (hnum ▸ hc))

end Sys2Proof.Machine

section

open Sys2Proof Sys2Proof.Machine

/-- Settles O1: by the cases of the instruction. -/
theorem decodeReturnsEncodedInstruction : Obligations.DecodeReturnsEncodedInstruction := by
  unfold Obligations.DecodeReturnsEncodedInstruction
  exact fun i => ⟨decode_encode i, fun kind own rest h => decodeToken_encode h rest⟩

/-- Settles O2: by the kind of the token. -/
theorem tokenBytesReadOneWay : Obligations.TokenBytesReadOneWay := by
  unfold Obligations.TokenBytesReadOneWay
  exact fun kind bytes i rest h => encode_of_decodeToken h

/-- Settles O3: the fields of a word, and the two outcomes of the opcode map. -/
theorem opcodeMapIsTotal : Obligations.OpcodeMapIsTotal := by
  unfold Obligations.OpcodeMapIsTotal
  refine ⟨fun w => (cmdWord_fields w).symm, fun u op opnd => ?_⟩
  rw [decodeCommand_cmdWord]
  refine ⟨fun h => decodeFields_listed h opnd, fun h hu => ?_, fun hu => ?_⟩
  · exact (decodeFields_unlisted h opnd).trans (if_pos hu)
  · have hunit : ¬ u.toNat ≤ 5 := by omega
    exact (decodeFields_unlisted (mt unit_le_of_listed hunit) opnd).trans (if_neg hunit)

/-- Settles O4: by the rows of the map, each read by the operand bits its mask leaves. -/
theorem ignoredOperandBitsDoNothing : Obligations.IgnoredOperandBitsDoNothing := by
  unfold Obligations.IgnoredOperandBitsDoNothing
  intro row hrow x y s h
  simp only [List.mem_cons, List.not_mem_nil, or_false] at hrow
  rcases hrow with rfl | rfl | rfl | rfl | rfl | rfl | rfl | rfl | rfl | rfl | rfl | rfl | rfl | rfl | rfl | rfl | rfl |
    rfl | rfl | rfl
  · exact sameEffect_of_fields (i := .nop) rfl rfl s
  · exact sameEffect_of_fields (i := .swbInit) rfl rfl s
  · exact sameEffect_of_operand (f := .swbAppend) (fun _ => rfl) (by decide) h s
  · exact sameEffect_of_operand (f := .swbGet) (fun _ => rfl) (by decide) h s
  · exact sameEffect_of_fields (i := .swbCursor) rfl rfl s
  · exact sameEffect_of_operand (f := .swbReplay) (fun _ => rfl) (by decide) h s
  · exact sameEffect_of_fields (i := .cfcDClear) rfl rfl s
  · exact sameEffect_of_fields (i := .cfcDShift) rfl rfl s
  · exact sameEffect_of_operand (f := .cfcDLoad) (fun _ => rfl) (by decide) h s
  · exact sameEffect_of_fields (i := .cfcDTag) rfl rfl s
  · exact sameEffect_of_fields (i := .cfcEClear) rfl rfl s
  · exact sameEffect_cfcEPush h s
  · exact sameEffect_of_fields (i := .cfcEFlush) rfl rfl s
  · exact sameEffect_of_fields (i := .decStart) rfl rfl s
  · exact sameEffect_of_fields (i := .encStart) rfl rfl s
  · exact sameEffect_of_operand (f := .mfCount) (fun _ => rfl) (by decide) h s
  · exact sameEffect_of_operand (f := .mfProbe) (fun _ => rfl) (by decide) h s
  · exact sameEffect_of_fields (i := .mfFind) rfl rfl s
  · exact sameEffect_of_operand (f := .mfSetpos) (fun z => by rw [BitVec.extractLsb'_eq_self]; rfl) (by decide) h s
  · exact sameEffect_csrRead h s

/-- Settles O5: each is a closed word or byte sequence. -/
theorem sampleEncodingsDecode : Obligations.SampleEncodingsDecode := by
  unfold Obligations.SampleEncodingsDecode
  decide

end

/-! SUPPORT. The stream tokens as whole instructions (R91 to R96), field by field, and the bytes that a BackRef replays. -/

namespace Sys2Proof.Machine

/-! The header, control byte and Literal tokens. -/

/-- Both header bytes make the whole of `R` (R91, R191, R192). -/
theorem exec_hdr (n : BitVec 16) (s : State) :
    exec (.hdr n) s = .next { s with inPtr := s.inPtr + 2, rem := n, dstate := .loop } := by
  have hrem : (n.extractLsb' 8 8 ++ s.rem.extractLsb' 0 8).extractLsb' 8 8 ++ n.extractLsb' 0 8 = n := by
    rw [extract_high, header_bytes]
  have hptr : s.inPtr + 1 + 1 = s.inPtr + 2 := BitVec.add_assoc _ _ _
  exact congrArg₂ (fun p r => Host.Outcome.next { s with inPtr := p, rem := r, dstate := .loop }) hptr hrem

theorem exec_ctrl (v : Byte) (s : State) :
    exec (.ctrl v) s = .next { s with inPtr := s.inPtr + 1, dflags := 0xFF#8 ++ v, dstate := .tag } :=
  congrArg Host.Outcome.next (State.controlLoad_eq v s.advanceIn)

theorem exec_lit (b : Byte) (s : State) :
    exec (.lit b) s = .next
      { s with
        win := (s.append b).win, cur := s.cur + 1, out := s.out ++ [b], inPtr := s.inPtr + 1, rem := s.rem - 1
        dstate := .loop } :=
  rfl

/-! The bytes of a replay (R78, R199). -/

/-- The first `k` bytes of a replay from slot `off`: each is read after the appends of those before it. -/
def State.replayed (s : State) (off : Slot) : Nat → List Byte
  | 0 => []
  | k + 1 => s.replayed off k ++ [(s.appendAll (s.replayed off k)).slot (off + BitVec.ofNat 12 k)]

variable {s : State} {off : Slot}

@[simp] theorem State.replayed_length (s : State) (off : Slot) (k : Nat) : (s.replayed off k).length = k := by
  induction k with
  | zero => rfl
  | succ k ih => rw [State.replayed, List.length_append, ih, List.length_singleton]

/-- Byte `k` of a replay is what its slot holds after the bytes before it. -/
theorem State.replayed_getD {k n : Nat} (h : k < n) :
    (s.replayed off n).getD k 0 = (s.appendAll (s.replayed off k)).slot (off + BitVec.ofNat 12 k) := by
  induction n with
  | zero => omega
  | succ n ih =>
    rw [State.replayed]
    rcases Nat.lt_succ_iff_lt_or_eq.1 h with hlt | rfl
    · rw [List.getD_append _ _ _ _ (by rwa [State.replayed_length]), ih hlt]
    · rw [List.getD_append_right _ _ _ _ (by rw [State.replayed_length]), State.replayed_length, Nat.sub_self]
      rfl

/-- The bytes of a replay depend on the window and the cursor alone. -/
theorem State.replayed_congr {s t : State} (hw : s.win = t.win) (hc : s.cur = t.cur) (off : Slot) (k : Nat) :
    s.replayed off k = t.replayed off k := by
  induction k with
  | zero => rfl
  | succ k ih => rw [State.replayed, State.replayed, ih, State.slot, State.slot, (State.appendAll_congr _ hw hc).1]

/-- The distance is 1 to 4096 (R12, R245). -/
theorem State.distance_range (s : State) (off : Slot) : 1 ≤ s.distance off ∧ s.distance off ≤ Config.winSize := by
  unfold State.distance
  split
  · decide
  · rename_i hne
    exact ⟨BitVec.toNat_pos_of_ne_zero (sub_ne_zero.2 hne), Nat.le_of_lt (s.cur - off).isLt⟩

/-- The slot `k` past `off` lies `k` less the distance past the cursor, modulo the window's size (R12). -/
theorem State.past_cursor (s : State) (off : Slot) {k : Nat} (h : k < Config.winSize) :
    (off + BitVec.ofNat 12 k - s.cur).toNat =
      if k < s.distance off then Config.winSize + k - s.distance off else k - s.distance off := by
  unfold State.distance
  simp only [Config.winSize] at h ⊢
  split
  · bv_omega
  · split
    · bv_omega
    · bv_omega

/-- Byte `k` of a replay is window history while `k` is below the distance, else an earlier byte of the same replay (R78). -/
theorem State.replayed_overlap (hwf : s.win.wf) {k n : Nat} (h : k < n) (hn : n ≤ Config.winSize) :
    (s.replayed off n).getD k 0 =
      if k < s.distance off then s.slot (off + BitVec.ofNat 12 k)
      else (s.replayed off n).getD (k - s.distance off) 0 := by
  obtain ⟨hpos, hle⟩ := s.distance_range off
  rw [State.replayed_getD h, State.slot_appendAll hwf _ (by rw [State.replayed_length]; omega), State.replayed_length,
    State.past_cursor s off (by omega)]
  by_cases hk : k < s.distance off
  · rw [if_pos hk, if_pos hk, if_neg (by omega)]
  · have hback : k - s.distance off < k := by omega
    rw [if_neg hk, if_neg hk, if_pos hback, State.replayed_getD hback, State.replayed_getD (hback.trans h)]

/-! The block steps of a replay (R199). -/

theorem add_ofNat_succ {w : Nat} (x : BitVec w) (k : Nat) :
    x + BitVec.ofNat w k + 1 = x + BitVec.ofNat w (k + 1) := by
  rw [BitVec.ofNat_add, BitVec.add_assoc]
  rfl

theorem sub_ofNat_succ {w : Nat} (x : BitVec w) (k : Nat) :
    x - BitVec.ofNat w k - 1 = x - BitVec.ofNat w (k + 1) := by
  rw [BitVec.ofNat_add, BitVec.sub_sub]
  rfl

theorem State.copyBytes_snoc (k : Nat) (s : State) : State.copyBytes (k + 1) s = (State.copyBytes k s).copyByte := by
  induction k generalizing s with
  | zero => rfl
  | succ k ih => exact ih s.copyByte

/-- `k` replay steps append and emit the bytes of the replay and count them, whatever `ref_cnt` is. -/
theorem State.copyBytes_eq (k : Nat) (s : State) :
    State.copyBytes k s =
      { s with
        win := (s.appendAll (s.replayed s.refOff k)).win
        cur := s.cur + BitVec.ofNat 12 k
        out := s.out ++ s.replayed s.refOff k
        refOff := s.refOff + BitVec.ofNat 12 k
        refCnt := s.refCnt - BitVec.ofNat 5 k
        rem := s.rem - BitVec.ofNat 16 k
        dstate := (State.copyBytes k s).dstate } := by
  induction k with
  | zero => simp [State.copyBytes, State.replayed]
  | succ k ih =>
    have hcur : (s.appendAll (s.replayed s.refOff k)).cur = s.cur + BitVec.ofNat 12 k := by
      rw [State.appendAll_cur, State.replayed_length]
    rw [State.copyBytes_snoc, State.copyByte_eq, ih, State.replayed, State.appendAll_append, ← List.append_assoc,
      ← add_ofNat_succ, ← add_ofNat_succ, ← sub_ofNat_succ, ← sub_ofNat_succ, ← hcur]
    rfl

/-- The replay ends with its last byte, and not before. -/
theorem State.copyBytes_dstate (k : Nat) (s : State) :
    (State.copyBytes (k + 1) s).dstate = if s.refCnt = BitVec.ofNat 5 (k + 1) then .loop else .copy := by
  rw [State.copyBytes_snoc, State.copyByte_eq, State.copyBytes_eq]
  simp only [sub_ofNat_succ, sub_eq_zero]

/-- A whole replay by a decoder `t` that has the window and the cursor of `s`. -/
theorem State.copyBytes_whole {t : State} {k : Nat} (hw : t.win = s.win) (hc : t.cur = s.cur)
    (hk : t.refCnt = BitVec.ofNat 5 (k + 1)) :
    State.copyBytes (k + 1) t =
      { t with
        win := (s.appendAll (s.replayed t.refOff (k + 1))).win
        cur := s.cur + BitVec.ofNat 12 (k + 1)
        out := t.out ++ s.replayed t.refOff (k + 1)
        refOff := t.refOff + BitVec.ofNat 12 (k + 1)
        refCnt := 0
        rem := t.rem - BitVec.ofNat 16 (k + 1)
        dstate := .loop } := by
  have hbytes := State.replayed_congr hw hc t.refOff (k + 1)
  have hwin := (State.appendAll_congr (s.replayed t.refOff (k + 1)) hw hc).1
  rw [State.copyBytes_eq, State.copyBytes_dstate, if_pos hk, hk, sub_self, hbytes, hwin, hc]

/-! The BackRef token (R94 to R96). -/

variable {n : BitVec 4}

/-- Both bytes of a BackRef whose replay is covered by what is owed (R198). -/
theorem State.refBytes_copy (h : n.toNat + 3 ≤ s.rem.toNat) :
    s.refBytes (brefByte0 off) (brefByte1 off n) =
      { s with
        inPtr := s.inPtr + 2, refLo := brefByte0 off, refOff := off, refCnt := replayCount n, dstate := .copy } := by
  have hptr : s.inPtr + 1 + 1 = s.inPtr + 2 := BitVec.add_assoc _ _ _
  rw [State.refBytes, State.refByte1_copy (by rwa [brefNibble_byte1]), brefNibble_byte1, ← hptr]
  simp only [State.advanceIn_refLo, State.refByte0, brefOffset_bytes]
  rfl

/-- Both bytes of a BackRef whose replay exceeds what is owed (R198, R322). -/
theorem State.refBytes_corrupt (h : s.rem.toNat < n.toNat + 3) :
    s.refBytes (brefByte0 off) (brefByte1 off n) =
      { s with
        inPtr := s.inPtr + 2, refLo := brefByte0 off, refOff := off, dstate := .fault, faulted := true, done := false
        fcode := 2, faddr := s.inPtr + 2, fval := n.setWidth 16 + 3 } := by
  have hptr : s.inPtr + 1 + 1 = s.inPtr + 2 := BitVec.add_assoc _ _ _
  rw [State.refBytes, State.refByte1_corrupt (by rwa [brefNibble_byte1]), brefNibble_byte1, ← hptr, ← replayCount_setWidth]
  simp only [State.advanceIn_refLo, State.refByte0, brefOffset_bytes]
  rfl

/-- A BackRef of a replay that exceeds what is owed copies nothing (R322). -/
theorem exec_bref_corrupt (h : s.rem.toNat < n.toNat + 3) :
    exec (.bref off n) s = .next
      { s with
        inPtr := s.inPtr + 2, refLo := brefByte0 off, refOff := off, dstate := .fault, faulted := true, done := false
        fcode := 2, faddr := s.inPtr + 2, fval := n.setWidth 16 + 3 } := by
  rw [exec, execBref, State.refBytes_corrupt h]
  rfl

/-- A BackRef appends and emits the `n + 3` bytes of its replay (R96, R199). -/
theorem exec_bref_copy (h : n.toNat + 3 ≤ s.rem.toNat) :
    exec (.bref off n) s = .next
      { s with
        win := (s.appendAll (s.replayed off (n.toNat + 3))).win, cur := s.cur + BitVec.ofNat 12 (n.toNat + 3)
        out := s.out ++ s.replayed off (n.toNat + 3), inPtr := s.inPtr + 2, refLo := brefByte0 off
        refOff := off + BitVec.ofNat 12 (n.toNat + 3), refCnt := 0, rem := s.rem - BitVec.ofNat 16 (n.toNat + 3)
        dstate := .loop } := by
  have hcount : replayCount n = BitVec.ofNat 5 (n.toNat + 3) := by
    rw [← replayCount_toNat, BitVec.ofNat_toNat, BitVec.setWidth_eq]
  rw [exec, execBref, State.refBytes_copy h]
  dsimp only
  rw [if_pos rfl, replayCount_toNat, State.copyBytes_whole (s := s)]
  · rfl
  · rfl
  · exact hcount

end Sys2Proof.Machine

section

open Sys2Proof Sys2Proof.Machine

/-- Settles O44: the fields of each token's effect. -/
theorem headerControlAndLiteralTokens : Obligations.HeaderControlAndLiteralTokens := by
  unfold Obligations.HeaderControlAndLiteralTokens
  refine fun s n v b hwf => ⟨exec_hdr n s, exec_ctrl v s, _, exec_lit b s, ?_, fun i hi => ?_, rfl⟩
  · exact (State.slot_append hwf b s.cur).trans (if_pos rfl)
  · exact (State.slot_append hwf b i).trans (if_neg hi)

/-- Settles O45: the overlap of a replay, and the slots after the appends of its bytes. -/
theorem backRefTokenReplaysHistory : Obligations.BackRefTokenReplaysHistory := by
  unfold Obligations.BackRefTokenReplaysHistory
  refine fun s off n hwf => ⟨exec_bref_corrupt, fun h => ?_⟩
  have hn : n.toNat + 3 ≤ Config.winSize := by
    have := n.isLt
    simp only [Config.winSize]
    omega
  have hslots (i : Slot) := State.slot_appendAll hwf (s.replayed off (n.toNat + 3)) (by rwa [State.replayed_length]) i
  simp only [State.replayed_length] at hslots
  exact ⟨_, _, exec_bref_copy h, State.replayed_length s off _, fun k hk => State.replayed_overlap hwf hk hn, hslots, rfl⟩

end

/-! SUPPORT. The window commands (`spec/40_window.md`): the replay of one byte, and the slots behind the cursor after any
number of appends. -/

namespace Sys2Proof.Machine

variable {s : State}

/-- NOP is among the commands that the busy hold lets through, whatever its operand bits (R341). -/
theorem acceptedWhileBusy_nop (x : BitVec 16) : acceptedWhileBusy (cmdWord 0x0#4 0x0#4 x) = true := by
  rw [acceptedWhileBusy, show decodeCommand (cmdWord 0x0#4 0x0#4 x) = .ok .nop from decode_nop x]

/-- The cursor wraps modulo 4096 (R132). -/
theorem State.append_cur_toNat (v : Byte) (s : State) : (s.append v).cur.toNat = (s.cur.toNat + 1) % 4096 :=
  BitVec.toNat_add s.cur 1

/-- A replay writes at the cursor what slot `i` held before the write (R135). -/
theorem State.slot_replay (h : s.win.wf) (i j : Slot) :
    (s.replay i).slot j = if j = s.cur then s.slot i else s.slot j :=
  State.slot_append h (s.slot i) j

/-- A replay of the slot at the cursor writes back what stands there (R366). -/
theorem State.slot_replay_cur (h : s.win.wf) (j : Slot) : (s.replay s.cur).slot j = s.slot j := by
  rw [State.slot_replay h]
  split
  · next hj => rw [hj]
  · rfl

/-! The slots behind the cursor (R136): slot `cur - 1 - k` is the one that the last append but `k` wrote. -/

/-- The slot written by an append is the one just behind the cursor it leaves. -/
theorem State.behind_append_zero (v : Byte) (s : State) : (s.append v).cur - 1 - BitVec.ofNat 12 0 = s.cur := by
  rw [State.append_cur, BitVec.add_sub_cancel]
  exact BitVec.sub_zero s.cur

/-- An append moves every older slot one place further behind the cursor. -/
theorem State.behind_append_succ (v : Byte) (s : State) (k : Nat) :
    (s.append v).cur - 1 - BitVec.ofNat 12 (k + 1) = s.cur - 1 - BitVec.ofNat 12 k := by
  rw [State.append_cur]
  bv_omega

/-- The slot just behind the cursor holds the byte appended last. -/
theorem State.slot_append_last (h : s.win.wf) (v : Byte) :
    (s.append v).slot ((s.append v).cur - 1 - BitVec.ofNat 12 0) = v := by
  rw [State.behind_append_zero, State.slot_append h, if_pos rfl]

/-- The older slots keep their bytes. -/
theorem State.slot_append_older (h : s.win.wf) (v : Byte) {k : Nat} (hk : k + 1 < 4096) :
    (s.append v).slot ((s.append v).cur - 1 - BitVec.ofNat 12 (k + 1)) = s.slot (s.cur - 1 - BitVec.ofNat 12 k) := by
  have hne : s.cur - 1 - BitVec.ofNat 12 k ≠ s.cur := by bv_omega
  rw [State.behind_append_succ, State.slot_append h, if_neg hne]

/-- After any number of appends, the slots behind the cursor hold the appended bytes, most recent first, and a slot that no
append reached keeps its byte (R136). -/
theorem State.slot_behind_appendAll (h : s.win.wf) (bytes : List Byte) {k : Nat} (hk : k < 4096) :
    (s.appendAll bytes).slot ((s.appendAll bytes).cur - 1 - BitVec.ofNat 12 k) =
      if k < bytes.length then bytes.reverse.getD k 0
      else s.slot ((s.appendAll bytes).cur - 1 - BitVec.ofNat 12 k) := by
  induction bytes using List.reverseRecOn generalizing k with
  | nil => rfl
  | append_singleton xs b ih =>
    have hwf := State.appendAll_wf xs h
    rw [show s.appendAll (xs ++ [b]) = (s.appendAll xs).append b from State.appendAll_append xs [b] s,
      List.reverse_concat, List.length_append, List.length_singleton]
    cases k with
    | zero => exact (State.slot_append_last hwf b).trans (if_pos (Nat.succ_pos _)).symm
    | succ k =>
      rw [State.slot_append_older hwf b hk, ih (Nat.lt_of_succ_lt hk), State.behind_append_succ, List.getD_cons_succ]
      simp only [Nat.add_lt_add_iff_right]

/-- `SWB.APPEND`s run one after the other append their bytes in order (R132). -/
theorem execAll_swbAppend (bytes : List Byte) (s : State) :
    execAll (bytes.map .swbAppend) s = .next (s.appendAll bytes) := by
  induction bytes generalizing s with
  | nil => rfl
  | cons b rest ih => exact ih (s.append b)

end Sys2Proof.Machine

section

open Sys2Proof Sys2Proof.Machine

/-- Settles O18: the filled window, and the slots behind the cursor after the appends. -/
theorem windowHoldsTheLastAppends : Obligations.WindowHoldsTheLastAppends := by
  unfold Obligations.WindowHoldsTheLastAppends
  refine fun s bytes => ⟨_, execAll_swbAppend bytes s.initWindow, ?_, fun k hk => ?_⟩
  · rw [State.appendAll_cur, State.initWindow_cur, ← BitVec.ofNat_add, BitVec.toNat_ofNat]
  · exact State.slot_behind_appendAll s.initWindow_wf bytes hk

/-- Settles O14: the fields of the filled window. -/
theorem swbInitFillsTheWindow : Obligations.SwbInitFillsTheWindow := by
  unfold Obligations.SwbInitFillsTheWindow
  exact fun s x => ⟨decode_swbInit x, s.initWindow, rfl, s.slot_initWindow, s.initWindow_cur, rfl⟩

/-- Settles O15: the slots after one append. -/
theorem swbAppendWritesAtTheCursor : Obligations.SwbAppendWritesAtTheCursor := by
  unfold Obligations.SwbAppendWritesAtTheCursor
  refine fun s x b hwf => ⟨decode_swbAppend x b, s.append b, rfl, ?_, fun i hi => ?_, s.append_cur_toNat b, rfl⟩
  · exact (State.slot_append hwf b s.cur).trans (if_pos rfl)
  · exact (State.slot_append hwf b i).trans (if_neg hi)

/-- Settles O16: NOP leaves the state, and the two reads set RES. -/
theorem nopGetAndCursorOnlyRead : Obligations.NopGetAndCursorOnlyRead := by
  unfold Obligations.NopGetAndCursorOnlyRead
  exact fun s x y i => ⟨decode_nop x, rfl, acceptedWhileBusy_nop x, decode_swbGet y i, rfl, decode_swbCursor x, rfl,
    Nat.le_of_lt_succ s.cur.isLt⟩

/-- Settles O17: the slots after a replay, and the case of the slot at the cursor. -/
theorem swbReplayCopiesOneByte : Obligations.SwbReplayCopiesOneByte := by
  unfold Obligations.SwbReplayCopiesOneByte
  refine fun s y i hwf => ⟨decode_swbReplay y i, (s.replay i).setRes (zext (s.slot i)), rfl, ?_, fun j hj => ?_, ?_,
    s.append_cur_toNat (s.slot i), rfl, rfl⟩
  · exact (State.slot_replay hwf i s.cur).trans (if_pos rfl)
  · exact (State.slot_replay hwf i j).trans (if_neg hj)
  · rintro rfl j
    exact State.slot_replay_cur hwf j

end

/-! SUPPORT. The control frame codec (`spec/41_control_frame.md`): the loaded sentinel under the shifts, and the tags that
the encode side holds. -/

namespace Sys2Proof.Machine

variable {s t : State}

/-- Instructions that end in a state hand it on to the instructions after them. -/
theorem execAll_append {is : List Instr} (h : execAll is s = .next t) (js : List Instr) :
    execAll (is ++ js) s = execAll js t := by
  induction is generalizing s with
  | nil =>
    cases h
    rfl
  | cons i is ih =>
    rw [execAll] at h
    rw [List.cons_append, execAll]
    cases hi : exec i s with
    | next u =>
      rw [hi] at h
      exact ih h
    | fault f => rw [hi] at h; cases h
    | refused r => rw [hi] at h; cases h

/-! Zero extension (R106). -/

theorem zext_getLsbD {k : Nat} (hk : k ≤ 32) (v : BitVec k) (j : Nat) : (zext v).getLsbD j = v.getLsbD j := by
  rw [zext, BitVec.getLsbD_setWidth]
  by_cases hj : j < 32
  · rw [decide_eq_true hj, Bool.true_and]
  · rw [BitVec.getLsbD_of_ge v j (by omega), Bool.and_false]

/-- The low bits of an extended value are the value. -/
theorem zext_extract {k : Nat} (hk : k ≤ 32) (v : BitVec k) : (zext v).extractLsb' 0 k = v := by
  ext i hi
  rw [BitVec.getElem_extractLsb', Nat.zero_add, zext_getLsbD hk, BitVec.getLsbD_eq_getElem hi]

/-! The decode side: a loaded control byte under the shifts (R161 to R164). -/

/-- The need for a control byte stands at bit 16 of the result, above the flags (R161). -/
theorem shiftResult_bit16 (need : Bool) (flags : BitVec 16) : (shiftResult need flags).getLsbD 16 = need := by
  rw [shiftResult, zext_getLsbD (by decide), BitVec.getLsbD_append]
  cases need <;> rfl

theorem State.needControl_eq (s : State) : s.needControl = decide (s.dflags.getLsbD 8 = false) := by
  rw [State.needControl]
  cases s.dflags.getLsbD 8 <;> rfl

/-- A shift of cleared flags asks for a control byte at once (R160, R164). -/
theorem State.needControl_shift_clear (s : State) : s.clearFlags.shiftFlags.needControl = true := by
  rw [State.needControl_eq, State.shiftFlags_dflags, State.clearFlags_dflags]
  rfl

/-- Bit 0 of a value, as a vector of one bit. -/
theorem ofBool_bit0 {k : Nat} (v : BitVec k) : BitVec.ofBool (v.getLsbD 0) = v.extractLsb' 0 1 := by
  ext i hi
  rw [BitVec.getElem_ofBool, BitVec.getElem_extractLsb', Nat.zero_add, Nat.lt_one_iff.1 hi]

/-- Below the sentinel stand the bits of the control byte (R162). -/
theorem loaded_control_bit (c : Byte) {k : Nat} (hk : k < 8) : (0xFF#8 ++ c).getLsbD k = c.getLsbD k := by
  rw [BitVec.getLsbD_append, if_pos hk]

/-- The sentinel is eight ones with zeros above them (R162, R45). -/
theorem loaded_sentinel_bit (c : Byte) {k : Nat} (hk : k ≤ 8) : (0xFF#8 ++ c).getLsbD (k + 8) = decide (k ≤ 7) := by
  rw [BitVec.getLsbD_append, if_neg (by omega), Nat.add_sub_cancel]
  interval_cases k <;> rfl

/-- Any number of shifts keeps the sentinel's shape (R45). -/
theorem sentinelShape_shifts {flags : BitVec 16} (h : sentinelShape flags) (k : Nat) : sentinelShape (flags >>> k) := by
  induction k with
  | zero => simpa using h
  | succ k ih =>
    rw [BitVec.shiftRight_add]
    exact sentinelShape_shift ih

/-- `k` shifts move the flags by `k`, and the last one returns what it leaves (R161). -/
theorem execAll_cfcDShift (k : Nat) (s : State) :
    ∃ t, execAll (List.replicate k .cfcDShift) s = .next t ∧ t.dflags = s.dflags >>> k ∧
      (0 < k → t.res = shiftResult t.needControl t.dflags) := by
  induction k with
  | zero => exact ⟨s, rfl, (BitVec.ushiftRight_zero _).symm, nofun⟩
  | succ k ih =>
    obtain ⟨t, hrun, hflags, -⟩ := ih
    rw [List.replicate_succ', execAll_append hrun, BitVec.shiftRight_add, ← hflags]
    exact ⟨_, rfl, rfl, fun _ => rfl⟩

/-- A load and `k` shifts leave the loaded value shifted by `k` (R164). -/
theorem execAll_cfcDLoad_cfcDShift (s : State) (c : Byte) (k : Nat) :
    ∃ t, execAll (.cfcDLoad c :: List.replicate k .cfcDShift) s = .next t ∧ t.dflags = (0xFF#8 ++ c) >>> k ∧
      (0 < k → t.res = shiftResult t.needControl t.dflags) := by
  rw [← sentinel_or]
  exact execAll_cfcDShift k (s.loadFlags c)

/-- `CFC.D_TAG` after a load and `j` shifts returns control bit `j` (R163, R164). -/
theorem execAll_cfcDLoad_cfcDTag (s : State) (c : Byte) {j : Nat} (hj : j < 8) :
    ∃ u, execAll (.cfcDLoad c :: List.replicate j .cfcDShift ++ [.cfcDTag]) s = .next u ∧
      u.res = zext (BitVec.ofBool (c.getLsbD j)) := by
  obtain ⟨t, hrun, hflags, -⟩ := execAll_cfcDLoad_cfcDShift s c j
  have htag : t.tagBit = c.getLsbD j := by
    rw [State.tagBit, hflags, BitVec.getLsbD_ushiftRight]
    exact loaded_control_bit c hj
  exact ⟨_, execAll_append hrun _, congrArg (fun b => zext (BitVec.ofBool b)) htag⟩

/-! The encode side: the tags held (R166 to R169). -/

/-- A push where fewer than eight tags are held (R167). -/
theorem exec_cfcEPush_room (h : s.ecnt.toNat < 8) (b : BitVec 1) (y : BitVec 15) :
    exec (.cfcEPush b y) s = .next (s.pushTag b) :=
  if_neg fun he => Nat.ne_of_lt h (congrArg BitVec.toNat he)

/-- A push where eight tags are held (R167, R324). -/
theorem exec_cfcEPush_full (h : s.ecnt.toNat = 8) (b : BitVec 1) (y : BitVec 15) :
    exec (.cfcEPush b y) s = .next (s.raiseFault (.illegalCmd (ePushWord b y))) :=
  if_pos (BitVec.eq_of_toNat_eq h)

/-- The control byte has no tag past those held (R168). -/
theorem State.controlByte_unused {j : Nat} (hn : s.ecnt.toNat ≤ 8) (hj : s.ecnt.toNat ≤ j) :
    s.controlByte.getLsbD j = false := by
  rw [State.controlByte, BitVec.getLsbD_ushiftRight]
  exact BitVec.getLsbD_of_ge _ _ (by omega)

/-- The encode side holds exactly `tags`: their number, the unused low bits of `etag` 0, and tag `j` at bit `j` of the control
byte to come (R167, R169). -/
structure State.HoldsTags (s : State) (tags : List (BitVec 1)) : Prop where
  count : s.ecnt.toNat = tags.length
  unused : s.etag <<< s.ecnt.toNat = 0
  bits : ∀ j, s.controlByte.getLsbD j = (tags.getD j 0).getLsbD 0

theorem State.holdsTags_clearTags (s : State) : s.clearTags.HoldsTags [] where
  count := rfl
  unused := rfl
  bits j := by
    rw [State.controlByte_unused (Nat.zero_le _) (Nat.zero_le _), List.getD_nil]
    rfl

theorem State.HoldsTags.pushTag {tags : List (BitVec 1)} (h : s.HoldsTags tags) (hlen : tags.length < 8) (t : BitVec 1) :
    (s.pushTag t).HoldsTags (tags ++ [t]) := by
  have hroom : s.ecnt.toNat < 8 := h.count ▸ hlen
  refine ⟨?_, etag_push s.etag s.ecnt t hroom h.unused, fun j => ?_⟩
  · rw [State.pushTag_ecnt, List.length_append, ← h.count, List.length_singleton]
    bv_omega
  · have hbyte : (s.pushTag t).controlByte = s.controlByte ||| (t.setWidth 8 <<< tags.length) := by
      rw [← h.count]
      exact controlByte_push s.etag s.ecnt t hroom h.unused
    rw [hbyte, BitVec.getLsbD_or, h.bits, BitVec.getLsbD_shiftLeft, BitVec.getLsbD_setWidth]
    rcases Nat.lt_trichotomy j tags.length with hj | rfl | hj
    · rw [List.getD_append _ _ _ _ hj, decide_eq_true hj, Bool.not_true, Bool.and_false, Bool.false_and, Bool.or_false]
    · simp [hlen]
    · rw [List.getD_eq_default _ _ (Nat.le_of_lt hj), List.getD_eq_default _ _ (by simpa using hj),
        BitVec.getLsbD_of_ge t _ (by omega), Bool.and_false, Bool.and_false, Bool.or_false]

/-- Up to eight pushes from clear leave their tags held, in order (R167). -/
theorem execAll_cfcEPush {tags : List (BitVec 1)} (hlen : tags.length ≤ 8) (s : State) :
    ∃ t, execAll (.cfcEClear :: tags.map fun b => .cfcEPush b 0) s = .next t ∧ t.HoldsTags tags := by
  induction tags using List.reverseRecOn with
  | nil => exact ⟨_, rfl, s.holdsTags_clearTags⟩
  | append_singleton tags b ih =>
    rw [List.length_append, List.length_singleton] at hlen
    obtain ⟨t, hrun, hheld⟩ := ih (by omega)
    have hpush := exec_cfcEPush_room (by rw [hheld.count]; omega) b 0 (s := t)
    refine ⟨t.pushTag b, ?_, hheld.pushTag (by omega) b⟩
    rw [List.map_append, ← List.cons_append, execAll_append hrun, List.map_singleton, execAll, hpush]
    rfl

end Sys2Proof.Machine

section

open Sys2Proof Sys2Proof.Machine

/-- Settles O20: the sentinel after a load and the shifts. -/
theorem reloadComesAfterEightShifts : Obligations.ReloadComesAfterEightShifts := by
  unfold Obligations.ReloadComesAfterEightShifts
  refine ⟨fun s c k hpos hk => ?_, fun s => ⟨_, rfl, BitVec.zero_ushiftRight,
    (shiftResult_bit16 _ _).trans s.needControl_shift_clear⟩⟩
  obtain ⟨t, hrun, hflags, hres⟩ := execAll_cfcDLoad_cfcDShift s c k
  have hbit8 : t.dflags.getLsbD 8 = decide (k ≤ 7) := by
    rw [hflags, BitVec.getLsbD_ushiftRight, loaded_sentinel_bit c hk]
  have hshape : sentinelShape t.dflags := by
    rw [hflags, ← sentinel_or]
    exact sentinelShape_shifts (sentinelShape_load c) k
  refine ⟨t, hrun, hflags, fun hk7 => ?_, ?_, hbit8, ?_⟩
  · rw [hflags, BitVec.getLsbD_ushiftRight]
    exact loaded_control_bit c (by omega)
  · rw [hres hpos, shiftResult_bit16, State.needControl_eq, hbit8, decide_eq_decide, decide_eq_false_iff_not]
    omega
  · rw [← sentinel_bit8 hshape, hbit8, decide_eq_false_iff_not]
    omega

/-- Settles O22: the tags held after the pushes, and control bit `j` after `j` shifts. -/
theorem tagsComeBackInTokenOrder : Obligations.TagsComeBackInTokenOrder := by
  unfold Obligations.TagsComeBackInTokenOrder
  intro s tags hlen
  obtain ⟨t, hrun, hheld⟩ := execAll_cfcEPush hlen s
  refine ⟨t.clearTags.setRes (zext t.controlByte), execAll_append hrun _, fun j => ?_, fun j hj => ?_⟩
  · exact (zext_getLsbD (by decide) t.controlByte j).trans (hheld.bits j)
  · obtain ⟨u, hdecode, hres⟩ :=
      execAll_cfcDLoad_cfcDTag (t.clearTags.setRes (zext t.controlByte)) t.controlByte (hj.trans_le hlen)
    refine ⟨u, ?_, ?_⟩
    · rw [State.setRes_res, zext_extract (by decide)]
      exact hdecode
    · rw [hres, hheld.bits, ofBool_bit0, BitVec.extractLsb'_eq_self]
      rfl

/-- Settles O19: the decode of each word, and the fields of each effect. -/
theorem cfcDecodeCommands : Obligations.CfcDecodeCommands := by
  unfold Obligations.CfcDecodeCommands
  refine fun s x y c => ⟨decode_cfcDClear x, rfl, decode_cfcDShift x, ?_, decode_cfcDLoad y c, ?_, decode_cfcDTag x, ?_⟩
  · rw [exec, execCfcDShift, State.needControl_eq]
    rfl
  · rw [exec, execCfcDLoad, State.loadFlags, sentinel_or]
  · rw [exec, execCfcDTag, State.tagBit, ofBool_bit0]
    rfl

/-- Settles O21: the decode of each word, the two cases of a push, and the flush. -/
theorem cfcEncodeCommands : Obligations.CfcEncodeCommands := by
  unfold Obligations.CfcEncodeCommands
  exact fun s x y b hn => ⟨decode_cfcEClear x, rfl, decode_cfcEPush y b, fun h => exec_cfcEPush_room h b y,
    fun h => exec_cfcEPush_full h b y, decode_cfcEFlush x, rfl, fun j hj => State.controlByte_unused hn hj⟩

end

/-! SUPPORT. The decoder by its states (`spec/42_decoder.md`): the block step of each, and the reads of the reading states. -/

namespace Sys2Proof.Machine

variable {s : State}

/-! One equation per state of the decoder (R191 to R199). -/

theorem blockStep_hdr0 (hs : s.dstate = .hdr0) : blockStep s = .next (s.inRead State.headerHigh) := by
  rw [blockStep_decoder (by rw [hs]; rfl), State.decoderStep, hs]

theorem blockStep_hdr1 (hs : s.dstate = .hdr1) : blockStep s = .next (s.inRead State.headerLow) := by
  rw [blockStep_decoder (by rw [hs]; rfl), State.decoderStep, hs]

theorem blockStep_loop (hs : s.dstate = .loop) : blockStep s = .next s.loopHead := by
  rw [blockStep_decoder (by rw [hs]; rfl), State.decoderStep, hs]

theorem blockStep_ctrl (hs : s.dstate = .ctrl) : blockStep s = .next (s.inRead State.controlLoad) := by
  rw [blockStep_decoder (by rw [hs]; rfl), State.decoderStep, hs]

theorem blockStep_tag (hs : s.dstate = .tag) : blockStep s = .next s.tagDispatch := by
  rw [blockStep_decoder (by rw [hs]; rfl), State.decoderStep, hs]

theorem blockStep_lit (hs : s.dstate = .lit) : blockStep s = .next (s.inRead State.literalByte) := by
  rw [blockStep_decoder (by rw [hs]; rfl), State.decoderStep, hs]

theorem blockStep_ref0 (hs : s.dstate = .ref0) : blockStep s = .next (s.inRead State.refByte0) := by
  rw [blockStep_decoder (by rw [hs]; rfl), State.decoderStep, hs]

theorem blockStep_ref1 (hs : s.dstate = .ref1) : blockStep s = .next (s.inRead State.refByte1) := by
  rw [blockStep_decoder (by rw [hs]; rfl), State.decoderStep, hs]

theorem blockStep_copy (hs : s.dstate = .copy) : blockStep s = .next s.copyByte := by
  rw [blockStep_decoder (by rw [hs]; rfl), State.decoderStep, hs]

/-- A reading state's step by what `IN` holds at `in_ptr`: the rest of its rule, or END_OF_INPUT (R64, R321). -/
theorem blockStep_of_inRead {rest : Byte → State → State} (h : blockStep s = .next (s.inRead rest)) :
    (∀ b, s.input s.inPtr.toNat = some b → blockStep s = .next (rest b s.advanceIn)) ∧
    (s.input s.inPtr.toNat = none → blockStep s = .next (s.raiseFault (.endOfInput s.inPtr))) := by
  constructor
  · intro b hb
    rw [h, State.inRead_byte hb]
  · intro hnone
    rw [h, State.inRead_end (State.input_eq_none.1 hnone)]

/-- D_LOOP while bytes are owed: the shift, then a control byte is asked for unless one is active (R193). -/
theorem State.loopHead_shift (h : s.rem ≠ 0) :
    s.loopHead = { s with
      dflags := s.dflags >>> 1, dstate := if (s.dflags >>> 1).getLsbD 8 = false then .ctrl else .tag } := by
  cases ha : (s.dflags >>> 1).getLsbD 8 with
  | false => exact State.loopHead_control h ha
  | true => exact State.loopHead_tag h ha

/-- D_TAG changes the state only (R195). -/
theorem State.tagDispatch_eq (s : State) :
    s.tagDispatch = { s with dstate := if s.dflags.getLsbD 0 = true then .lit else .ref0 } := by
  cases hb : s.dflags.getLsbD 0 with
  | true => exact State.tagDispatch_literal hb
  | false => exact State.tagDispatch_backref hb

end Sys2Proof.Machine

section

open Sys2Proof Sys2Proof.Machine

/-- Settles O38: the decode of the word, and DEC.START field by field. -/
theorem decStartBeginsADecode : Obligations.DecStartBeginsADecode := by
  unfold Obligations.DecStartBeginsADecode
  exact fun s x => ⟨decode_decStart x, _, execDecStart_eq s, fun i => rfl, rfl, rfl, rfl⟩

/-- Settles O39: both header states read. -/
theorem decoderReadsTheHeader : Obligations.DecoderReadsTheHeader := by
  unfold Obligations.DecoderReadsTheHeader
  exact fun s => ⟨fun hs => blockStep_of_inRead (blockStep_hdr0 hs), fun hs => blockStep_of_inRead (blockStep_hdr1 hs)⟩

/-- Settles O40: the two branches of D_LOOP, and D_TAG. -/
theorem decoderLoopAndTagDispatch : Obligations.DecoderLoopAndTagDispatch := by
  unfold Obligations.DecoderLoopAndTagDispatch
  refine fun s => ⟨fun hs => ⟨fun hr => ?_, fun hr => ?_⟩, fun hs => ?_⟩
  · rw [blockStep_loop hs, State.loopHead_done hr]
  · rw [blockStep_loop hs, State.loopHead_shift hr]
  · rw [blockStep_tag hs, State.tagDispatch_eq]

/-- Settles O41: both states read; the literal's slots are those after an append. -/
theorem decoderControlAndLiteralSteps : Obligations.DecoderControlAndLiteralSteps := by
  unfold Obligations.DecoderControlAndLiteralSteps
  refine fun s hwf => ⟨fun hs => ?_, fun hs => ?_⟩
  · obtain ⟨hbyte, hmissing⟩ := blockStep_of_inRead (blockStep_ctrl hs)
    exact ⟨fun c hc => (hbyte c hc).trans (congrArg Host.Outcome.next (State.controlLoad_eq c s.advanceIn)), hmissing⟩
  · obtain ⟨hbyte, hmissing⟩ := blockStep_of_inRead (blockStep_lit hs)
    refine ⟨fun b hb => ⟨_, hbyte b hb, ?_, fun i hi => ?_, rfl⟩, hmissing⟩
    · exact (State.slot_append hwf b s.cur).trans (if_pos rfl)
    · exact (State.slot_append hwf b i).trans (if_neg hi)

/-- Settles O42: both states read; the second byte's replay count is checked against what is owed. -/
theorem decoderBackRefSteps : Obligations.DecoderBackRefSteps := by
  unfold Obligations.DecoderBackRefSteps
  refine fun s => ⟨fun hs => blockStep_of_inRead (blockStep_ref0 hs), fun hs => ?_⟩
  obtain ⟨hbyte, hmissing⟩ := blockStep_of_inRead (blockStep_ref1 hs)
  exact ⟨fun hi hhi => ⟨
    fun h => (hbyte hi hhi).trans (congrArg Host.Outcome.next (State.refByte1_copy (s := s.advanceIn) h)),
    fun h => (hbyte hi hhi).trans (congrArg Host.Outcome.next (State.refByte1_corrupt (s := s.advanceIn) h))⟩, hmissing⟩

/-- Settles O43: the replayed byte's slots are those after an append. -/
theorem copyStepReplaysOneByte : Obligations.CopyStepReplaysOneByte := by
  unfold Obligations.CopyStepReplaysOneByte
  refine fun s hwf hs => ⟨_, blockStep_copy hs, ?_, fun i hi => ?_, ?_⟩
  · exact (State.slot_replay hwf s.refOff s.cur).trans (if_pos rfl)
  · exact (State.slot_replay hwf s.refOff i).trans (if_neg hi)
  · simp only [State.copyByte_eq, sub_eq_zero]

end

/-! SUPPORT. A decode as a whole (R202 to R204): a run under a budget of steps, and what the decoder owes and delivers on the
way. -/

namespace Sys2Proof.Machine

variable {s t u : State}

/-! Runs. -/

/-- Runs one after the other. -/
theorem run_add {j : Nat} (h : run j s = .next t) (k : Nat) : run (j + k) s = run k t := by
  induction j generalizing s with
  | zero =>
    cases h
    rw [Nat.zero_add]
  | succ j ih =>
    rw [Nat.succ_add]
    rw [run] at h ⊢
    split at h
    · next v hv => exact ih h
    · cases h
    · cases h

/-- With nothing presented by the host, a busy decoder takes the step (R341). -/
theorem step_decoder (hq : s.quiet) (hb : s.dstate.busy = true) : step s = blockStep s := by
  rw [step_quiet hq.1 hq.2, if_pos (State.busy_eq_true.2 (.inl hb))]

theorem run_one (h : step s = .next t) : run 1 s = .next t := by simp only [run, h]

/-- Where every step before the end keeps an invariant and lowers a budget, the end comes within the budget. -/
theorem run_ends_within {Inv Ended : State → Prop} {budget : State → Nat}
    (hstep : ∀ s, Inv s → Ended s ∨ ∃ t, step s = .next t ∧ Inv t ∧ budget t < budget s) (h : Inv s) :
    ∃ k u, run k s = .next u ∧ k ≤ budget s ∧ Inv u ∧ Ended u := by
  induction hn : budget s using Nat.strong_induction_on generalizing s with
  | _ n ih =>
    subst hn
    rcases hstep s h with hend | ⟨t, hst, ht, hlt⟩
    · exact ⟨0, s, rfl, Nat.zero_le _, h, hend⟩
    · obtain ⟨k, u, hrun, hk, hu, hend⟩ := ih (budget t) hlt ht rfl
      exact ⟨1 + k, u, (run_add (run_one hst) k).trans hrun, by omega, hu, hend⟩

/-! What a decode delivers. -/

/-- From `s`, where `n` bytes are owed, to `t` the decoder emits and appends `bytes`, and owes the rest; `IN` stays (R203). -/
structure Delivers (s : State) (n : Nat) (t : State) (bytes : List Byte) : Prop where
  inp : t.inp = s.inp
  out : t.out = s.out ++ bytes
  win : t.win = (s.appendAll bytes).win
  cur : t.cur = (s.appendAll bytes).cur
  owed : bytes.length + t.rem.toNat = n

theorem Delivers.nil {n : Nat} (hinp : t.inp = s.inp) (hout : t.out = s.out) (hwin : t.win = s.win)
    (hcur : t.cur = s.cur) (hrem : t.rem.toNat = n) : Delivers s n t [] :=
  ⟨hinp, by rw [hout, List.append_nil], hwin, hcur, by rw [hrem, List.length_nil, Nat.zero_add]⟩

theorem Delivers.trans {n : Nat} {xs ys : List Byte} (h : Delivers s n t xs) (h' : Delivers t t.rem.toNat u ys) :
    Delivers s n u (xs ++ ys) := by
  obtain ⟨hwin, hcur⟩ := State.appendAll_congr ys h.win h.cur
  refine ⟨h'.inp.trans h.inp, ?_, ?_, ?_, ?_⟩
  · rw [h'.out, h.out, List.append_assoc]
  · rw [h'.win, hwin, State.appendAll_append]
  · rw [h'.cur, hcur, State.appendAll_append]
  · rw [List.length_append, Nat.add_assoc, h'.owed, h.owed]

/-! A decode past its header. -/

/-- The conditions of a decode past its header, by its state: a byte is owed past D_LOOP's test, a replay is owed whole, and an
ended decode has reported its end (R193, R198, R200, R201). -/
def State.DecodePhase (s : State) : Prop :=
  match s.dstate with
  | .idle | .hdr0 | .hdr1 => False
  | .loop => s.faulted = false
  | .ctrl | .tag | .lit | .ref0 | .ref1 => s.faulted = false ∧ 0 < s.rem.toNat
  | .copy => s.faulted = false ∧ 0 < s.refCnt.toNat ∧ s.refCnt.toNat ≤ s.rem.toNat
  | .done => s.done = true ∧ s.faulted = false ∧ s.rem = 0
  | .fault => s.faulted = true ∧ s.done = false ∧ (s.fcode = 1#4 ∨ s.fcode = 2#4)

/-- A decode past its header, alone with its `IN`. `State.DecoderRuns` would ask for the encoder's registers and the parameters
to be legal too, on which no decode depends. -/
structure State.Decoding (s : State) : Prop where
  quiet : s.quiet
  otherIdle : s.estate.busy = false
  position : s.inPtr.toNat ≤ s.inp.length
  phase : s.DecodePhase

/-- The steps a decode past its header can still take (R204): at most 4 for each byte owed, since a Literal takes D_LOOP,
D_CTRL, D_TAG and D_LIT, and a BackRef of `c >= 3` bytes takes `5 + c`; and the last D_LOOP. -/
def State.decodeBudget (s : State) : Nat :=
  match s.dstate with
  | .loop => 4 * s.rem.toNat + 1
  | .ctrl => 4 * s.rem.toNat
  | .tag => 4 * s.rem.toNat - 1
  | .lit | .ref0 => 4 * s.rem.toNat - 2
  | .ref1 => 4 * s.rem.toNat - 3
  | .copy => 4 * s.rem.toNat + 1 - 3 * s.refCnt.toNat
  | .idle | .hdr0 | .hdr1 | .done | .fault => 0

/-- One step of a decode past its header: it delivers some bytes and uses up some of the budget. -/
structure DecodeAdvances (s t : State) : Prop where
  decoding : t.Decoding
  delivers : ∃ bytes, Delivers s s.rem.toNat t bytes
  budget : t.decodeBudget < s.decodeBudget

/-- A step that delivers nothing. -/
theorem DecodeAdvances.silent (ht : t.Decoding) (hb : t.decodeBudget < s.decodeBudget) (hinp : t.inp = s.inp := by rfl)
    (hout : t.out = s.out := by rfl) (hwin : t.win = s.win := by rfl) (hcur : t.cur = s.cur := by rfl)
    (hrem : t.rem = s.rem := by rfl) : DecodeAdvances s t :=
  ⟨ht, ⟨[], .nil hinp hout hwin hcur (congrArg BitVec.toNat hrem)⟩, hb⟩

namespace State.Decoding

theorem advanceIn (h : s.Decoding) (hp : s.inPtr.toNat < s.inp.length) : s.advanceIn.Decoding where
  quiet := h.quiet
  otherIdle := h.otherIdle
  position := by
    rw [State.advanceIn_inPtr, BitVec.toNat_add]
    exact (Nat.mod_le _ _).trans hp
  phase := h.phase

/-- A reading state's rule: END_OF_INPUT ends the decode, else the rest of the rule decides (R64, R321). -/
theorem inRead (h : s.Decoding) (hb : 0 < s.decodeBudget) {rest : Byte → State → State}
    (hrest : ∀ b, s.advanceIn.Decoding → DecodeAdvances s (rest b s.advanceIn)) : DecodeAdvances s (s.inRead rest) := by
  rcases s.inRead_cases rest with ⟨-, he⟩ | ⟨hp, b, -, he⟩
  · rw [he]
    exact .silent ⟨h.quiet, h.otherIdle, h.position, rfl, rfl, .inl rfl⟩ hb
  · rw [he]
    exact hrest b (h.advanceIn hp)

/-- D_LOOP ends the decode, asks for a control byte, or goes on to a token (R193). -/
theorem loopHead (h : s.Decoding) (hs : s.dstate = .loop) : DecodeAdvances s s.loopHead := by
  have hfault : s.faulted = false := by simpa only [DecodePhase, hs] using h.phase
  have hbudget : s.decodeBudget = 4 * s.rem.toNat + 1 := by simp only [decodeBudget, hs]
  by_cases hr : s.rem = 0
  · rw [State.loopHead_done hr]
    exact .silent ⟨h.quiet, h.otherIdle, h.position, rfl, hfault, hr⟩ (by change 0 < s.decodeBudget; omega)
  · have hpos : 0 < s.rem.toNat := Nat.pos_of_ne_zero fun h0 => hr (BitVec.eq_of_toNat_eq h0)
    cases ha : (s.dflags >>> 1).getLsbD 8 with
    | false =>
      rw [State.loopHead_control hr ha]
      exact .silent ⟨h.quiet, h.otherIdle, h.position, hfault, hpos⟩
        (by change 4 * s.rem.toNat < s.decodeBudget; omega)
    | true =>
      rw [State.loopHead_tag hr ha]
      exact .silent ⟨h.quiet, h.otherIdle, h.position, hfault, hpos⟩
        (by change 4 * s.rem.toNat - 1 < s.decodeBudget; omega)

/-- D_CTRL loads a control byte (R194). -/
theorem controlLoad (h : s.Decoding) (hs : s.dstate = .ctrl) : DecodeAdvances s (s.inRead State.controlLoad) := by
  have hphase : s.faulted = false ∧ 0 < s.rem.toNat := by simpa only [DecodePhase, hs] using h.phase
  have hbudget : s.decodeBudget = 4 * s.rem.toNat := by simp only [decodeBudget, hs]
  refine h.inRead (by omega) fun c h' => ?_
  rw [State.controlLoad_eq]
  exact .silent ⟨h'.quiet, h'.otherIdle, h'.position, hphase⟩
    (by change 4 * s.rem.toNat - 1 < s.decodeBudget; omega)

/-- D_TAG goes on to a Literal or to a BackRef (R195). -/
theorem tagDispatch (h : s.Decoding) (hs : s.dstate = .tag) : DecodeAdvances s s.tagDispatch := by
  have hphase : s.faulted = false ∧ 0 < s.rem.toNat := by simpa only [DecodePhase, hs] using h.phase
  have hbudget : s.decodeBudget = 4 * s.rem.toNat - 1 := by simp only [decodeBudget, hs]
  cases hb : s.dflags.getLsbD 0 with
  | true =>
    rw [State.tagDispatch_literal hb]
    exact .silent ⟨h.quiet, h.otherIdle, h.position, hphase⟩
      (by change 4 * s.rem.toNat - 2 < s.decodeBudget; omega)
  | false =>
    rw [State.tagDispatch_backref hb]
    exact .silent ⟨h.quiet, h.otherIdle, h.position, hphase⟩
      (by change 4 * s.rem.toNat - 2 < s.decodeBudget; omega)

/-- D_LIT delivers its byte (R196). -/
theorem literalByte (h : s.Decoding) (hs : s.dstate = .lit) : DecodeAdvances s (s.inRead State.literalByte) := by
  obtain ⟨hfault, hpos⟩ : s.faulted = false ∧ 0 < s.rem.toNat := by simpa only [DecodePhase, hs] using h.phase
  have hbudget : s.decodeBudget = 4 * s.rem.toNat - 2 := by simp only [decodeBudget, hs]
  have hrem : (s.rem - 1).toNat = s.rem.toNat - 1 := BitVec.toNat_sub_of_le hpos
  refine h.inRead (by omega) fun b h' => ?_
  rw [State.literalByte_eq]
  refine ⟨⟨h'.quiet, h'.otherIdle, h'.position, hfault⟩, ⟨[b], rfl, rfl, rfl, rfl, ?_⟩, ?_⟩
  · change 1 + (s.rem - 1).toNat = s.rem.toNat
    omega
  · change 4 * (s.rem - 1).toNat + 1 < s.decodeBudget
    omega

/-- D_REF0 keeps the first byte of a BackRef (R197). -/
theorem refByte0 (h : s.Decoding) (hs : s.dstate = .ref0) : DecodeAdvances s (s.inRead State.refByte0) := by
  have hphase : s.faulted = false ∧ 0 < s.rem.toNat := by simpa only [DecodePhase, hs] using h.phase
  have hbudget : s.decodeBudget = 4 * s.rem.toNat - 2 := by simp only [decodeBudget, hs]
  exact h.inRead (by omega) fun b h' => .silent ⟨h'.quiet, h'.otherIdle, h'.position, hphase⟩
    (by change 4 * s.rem.toNat - 3 < s.decodeBudget; omega)

/-- D_REF1 enters a replay that is owed whole, or raises CORRUPT_STREAM (R198, R322). -/
theorem refByte1 (h : s.Decoding) (hs : s.dstate = .ref1) : DecodeAdvances s (s.inRead State.refByte1) := by
  obtain ⟨hfault, hpos⟩ : s.faulted = false ∧ 0 < s.rem.toNat := by simpa only [DecodePhase, hs] using h.phase
  have hbudget : s.decodeBudget = 4 * s.rem.toNat - 3 := by simp only [decodeBudget, hs]
  refine h.inRead (by omega) fun hi h' => ?_
  have hcount := replayCount_toNat (brefNibble hi)
  rcases Nat.lt_or_ge s.rem.toNat ((brefNibble hi).toNat + 3) with hr | hr
  · rw [State.refByte1_corrupt (s := s.advanceIn) hr]
    exact .silent ⟨h'.quiet, h'.otherIdle, h'.position, rfl, rfl, .inr rfl⟩ (by change 0 < s.decodeBudget; omega)
  · rw [State.refByte1_copy (s := s.advanceIn) hr]
    exact .silent ⟨h'.quiet, h'.otherIdle, h'.position, hfault, hcount ▸ Nat.succ_pos _, hcount ▸ hr⟩
      (by change 4 * s.rem.toNat + 1 - 3 * (replayCount (brefNibble hi)).toNat < s.decodeBudget; omega)

/-- D_COPY delivers one byte of the replay (R199). -/
theorem copyByte (h : s.Decoding) (hs : s.dstate = .copy) : DecodeAdvances s s.copyByte := by
  obtain ⟨hfault, hpos, hle⟩ : s.faulted = false ∧ 0 < s.refCnt.toNat ∧ s.refCnt.toNat ≤ s.rem.toNat := by
    simpa only [DecodePhase, hs] using h.phase
  have hbudget : s.decodeBudget = 4 * s.rem.toNat + 1 - 3 * s.refCnt.toNat := by simp only [decodeBudget, hs]
  have hcnt : (s.refCnt - 1).toNat = s.refCnt.toNat - 1 := BitVec.toNat_sub_of_le hpos
  have hrem : (s.rem - 1).toNat = s.rem.toNat - 1 := BitVec.toNat_sub_of_le (hpos.trans_le hle)
  have howed : 1 + (s.rem - 1).toNat = s.rem.toNat := by omega
  rw [State.copyByte_eq]
  by_cases h0 : s.refCnt - 1 = 0
  · have hlast : (s.refCnt - 1).toNat = 0 := by rw [h0]; rfl
    rw [if_pos h0]
    refine ⟨⟨h.quiet, h.otherIdle, h.position, hfault⟩, ⟨_, rfl, rfl, rfl, rfl, howed⟩, ?_⟩
    change 4 * (s.rem - 1).toNat + 1 < s.decodeBudget
    omega
  · have hmore : (s.refCnt - 1).toNat ≠ 0 := fun he => h0 (BitVec.eq_of_toNat_eq he)
    have hreplay : 0 < (s.refCnt - 1).toNat ∧ (s.refCnt - 1).toNat ≤ (s.rem - 1).toNat := by omega
    rw [if_neg h0]
    refine ⟨⟨h.quiet, h.otherIdle, h.position, hfault, hreplay⟩, ⟨_, rfl, rfl, rfl, rfl, howed⟩, ?_⟩
    change 4 * (s.rem - 1).toNat + 1 - 3 * (s.refCnt - 1).toNat < s.decodeBudget
    omega

/-- A step of a decode past its header: the decode has ended, or it goes on by one rule of the decoder (R191 to R199). -/
theorem step (h : s.Decoding) : s.decodeEnded ∨ ∃ t, Machine.step s = .next t ∧ DecodeAdvances s t := by
  have hblock : s.dstate.busy = true → Machine.step s = blockStep s := step_decoder h.quiet
  have hphase := h.phase
  cases hs : s.dstate with
  | idle | hdr0 | hdr1 => simp only [DecodePhase, hs] at hphase
  | done => exact .inl (.inl hs)
  | fault => exact .inl (.inr hs)
  | loop => exact .inr ⟨_, (hblock (by rw [hs]; rfl)).trans (blockStep_loop hs), h.loopHead hs⟩
  | ctrl => exact .inr ⟨_, (hblock (by rw [hs]; rfl)).trans (blockStep_ctrl hs), h.controlLoad hs⟩
  | tag => exact .inr ⟨_, (hblock (by rw [hs]; rfl)).trans (blockStep_tag hs), h.tagDispatch hs⟩
  | lit => exact .inr ⟨_, (hblock (by rw [hs]; rfl)).trans (blockStep_lit hs), h.literalByte hs⟩
  | ref0 => exact .inr ⟨_, (hblock (by rw [hs]; rfl)).trans (blockStep_ref0 hs), h.refByte0 hs⟩
  | ref1 => exact .inr ⟨_, (hblock (by rw [hs]; rfl)).trans (blockStep_ref1 hs), h.refByte1 hs⟩
  | copy => exact .inr ⟨_, (hblock (by rw [hs]; rfl)).trans (blockStep_copy hs), h.copyByte hs⟩

/-- A decode past its header ends within its budget, and has delivered what it no longer owes (R203, R204). -/
theorem run_ends (h : s.Decoding) :
    ∃ k u, run k s = .next u ∧ k ≤ s.decodeBudget ∧ u.Decoding ∧ u.decodeEnded ∧
      ∃ bytes, Delivers s s.rem.toNat u bytes := by
  have hadvance (t : State) (ht : t.Decoding ∧ ∃ bytes, Delivers s s.rem.toNat t bytes) : t.decodeEnded ∨
      ∃ u, Machine.step t = .next u ∧ (u.Decoding ∧ ∃ bytes, Delivers s s.rem.toNat u bytes) ∧
        u.decodeBudget < t.decodeBudget := by
    obtain ⟨hdec, xs, hxs⟩ := ht
    exact hdec.step.imp_right fun ⟨u, hst, hu, ⟨ys, hys⟩, hlt⟩ => ⟨u, hst, ⟨hu, xs ++ ys, hxs.trans hys⟩, hlt⟩
  obtain ⟨k, u, hrun, hk, ⟨hu, hbytes⟩, hend⟩ :=
    run_ends_within hadvance (s := s) ⟨h, [], .nil rfl rfl rfl rfl rfl⟩
  exact ⟨k, u, hrun, hk, hu, hend, hbytes⟩

/-- An ended decode leaves an idle block (R327). -/
theorem busy_eq_false (h : s.Decoding) (hend : s.decodeEnded) : s.busy = false := by
  refine State.busy_eq_false.2 ⟨?_, h.otherIdle⟩
  rcases hend with hs | hs <;> rw [hs] <;> rfl

theorem phase_done (h : s.Decoding) (hs : s.dstate = .done) : s.done = true ∧ s.faulted = false ∧ s.rem = 0 := by
  simpa only [DecodePhase, hs] using h.phase

theorem phase_fault (h : s.Decoding) (hs : s.dstate = .fault) :
    s.faulted = true ∧ s.done = false ∧ (s.fcode = 1#4 ∨ s.fcode = 2#4) := by
  simpa only [DecodePhase, hs] using h.phase

end State.Decoding

/-! The header (R191, R192). -/

/-- A decode that has read nothing, alone with its `IN` (R190). -/
structure State.AtHeader (s : State) : Prop where
  quiet : s.quiet
  otherIdle : s.estate.busy = false
  dstate : s.dstate = .hdr0
  inPtr : s.inPtr = 0
  unfaulted : s.faulted = false

/-- Both header bytes make `R` (R91, R191, R192). -/
theorem State.headerLow_headerHigh (hi lo : Byte) (s : State) :
    (s.advanceIn.headerHigh hi).advanceIn.headerLow lo =
      { s with inPtr := s.inPtr + 2, rem := hi ++ lo, dstate := .loop } := by
  have h := exec_hdr (hi ++ lo) s
  rw [exec, execHdr, extract_high, extract_low] at h
  exact Host.Outcome.next.inj h

/-- The header is read within two steps, or faults at its missing byte (R191, R192, R321). -/
theorem State.AtHeader.run_header (h : s.AtHeader) :
    ∃ k u, run k s = .next u ∧ k ≤ 2 ∧ u.Decoding ∧
      (u.dstate = .fault ∨ u.dstate = .loop ∧ Delivers s (headerValue s.inp) u []) := by
  obtain ⟨hq, hother, hs, hptr, hf⟩ := h
  have hhigh : step s = .next (s.inRead State.headerHigh) :=
    (step_decoder hq (by rw [hs]; rfl)).trans (blockStep_hdr0 hs)
  match hinp : s.inp with
  | [] =>
    rw [State.inRead_end (by rw [hinp]; exact Nat.zero_le _)] at hhigh
    exact ⟨1, _, run_one hhigh, by decide, ⟨hq, hother, hptr ▸ Nat.zero_le _, rfl, rfl, .inl rfl⟩, .inl rfl⟩
  | hi :: rest =>
    rw [State.inRead_byte (b := hi) (by rw [hinp, hptr]; rfl)] at hhigh
    generalize ht : s.advanceIn.headerHigh hi = t at hhigh
    have hptr1 : t.inPtr = 1 := ht ▸ congrArg (· + 1) hptr
    have hinp1 : t.inp = hi :: rest := ht ▸ hinp
    have hlow : step t = .next (t.inRead State.headerLow) := by
      rw [step_decoder (ht ▸ hq) (ht ▸ rfl), blockStep_hdr1 (ht ▸ rfl)]
    have hrun (u : State) (hu : step t = .next u) : run 2 s = .next u :=
      (run_add (run_one hhigh) 1).trans (run_one hu)
    match rest with
    | [] =>
      rw [State.inRead_end (by rw [hinp1, hptr1]; exact Nat.le_refl 1)] at hlow
      refine ⟨2, _, hrun _ hlow, Nat.le_refl 2, ⟨ht ▸ hq, ht ▸ hother, ?_, rfl, rfl, .inl rfl⟩, .inl rfl⟩
      rw [State.raiseFault_inPtr, State.raiseFault_inp, hptr1, hinp1]
      exact Nat.le_refl 1
    | lo :: rest =>
      have hboth : t.advanceIn.headerLow lo = { s with inPtr := s.inPtr + 2, rem := hi ++ lo, dstate := .loop } := by
        rw [← ht, State.headerLow_headerHigh]
      rw [State.inRead_byte (b := lo) (by rw [hinp1, hptr1]; rfl), hboth] at hlow
      refine ⟨2, _, hrun _ hlow, Nat.le_refl 2, ⟨hq, hother, ?_, hf⟩, .inr ⟨rfl, .nil rfl rfl rfl rfl rfl⟩⟩
      change (s.inPtr + 2).toNat ≤ s.inp.length
      rw [hptr, hinp]
      exact Nat.le_add_left 2 _

/-- A whole decode (R202 to R204): it ends within the bound, and from the header on it delivers what it no longer owes. -/
theorem State.AtHeader.run_ends (h : s.AtHeader) :
    ∃ k u, run k s = .next u ∧ k ≤ 2 + (4 * headerValue s.inp + 1) ∧ u.Decoding ∧ u.decodeEnded ∧
      (u.dstate = .done → ∃ bytes, Delivers s (headerValue s.inp) u bytes) := by
  obtain ⟨j, t, hheader, hj, ht, hfault | ⟨hloop, hread⟩⟩ := h.run_header
  · exact ⟨j, t, hheader, hj.trans (Nat.le_add_right _ _), ht, .inr hfault, by simp [hfault]⟩
  · obtain ⟨k, u, hrun, hk, hu, hend, bytes, hbytes⟩ := ht.run_ends
    have hbudget : t.decodeBudget = 4 * headerValue s.inp + 1 := by
      rw [State.decodeBudget, hloop, ← hread.owed, List.length_nil, Nat.zero_add]
    exact ⟨j + k, u, (run_add hheader k).trans hrun, Nat.add_le_add hj (hbudget ▸ hk), hu, hend,
      fun _ => ⟨_, hread.trans hbytes⟩⟩

end Sys2Proof.Machine

section

open Sys2Proof Sys2Proof.Machine

/-- Settles O46: DEC.START leads to the header, and the run from there ends within the budget of the bytes owed. -/
theorem decodeEndsAndDeliversN : Obligations.DecodeEndsAndDeliversN := by
  unfold Obligations.DecodeEndsAndDeliversN
  intro s hq
  obtain ⟨t, hstart, ht, hinp, hout, hcur⟩ : ∃ t, exec .decStart s = .next t ∧ t.AtHeader ∧ t.inp = s.inp ∧
      t.out = s.out ∧ t.cur = Config.initCursor :=
    ⟨_, execDecStart_eq s, ⟨hq, rfl, rfl, rfl, rfl⟩, rfl, rfl, rfl⟩
  obtain ⟨k, u, hrun, hk, hu, hend, hdelivers⟩ := ht.run_ends
  rw [hinp] at hk hdelivers
  refine ⟨t, k, u, hstart, hrun, by omega, hend, hu.busy_eq_false hend, hu.phase_fault, fun hs => ?_⟩
  obtain ⟨hdone, hfaulted, hrem⟩ := hu.phase_done hs
  obtain ⟨bytes, hbytes⟩ := hdelivers hs
  have hlen : bytes.length = headerValue s.inp := by
    have howed := hbytes.owed
    rwa [hrem] at howed
  refine ⟨hdone, hfaulted, hrem, ?_, ?_, bytes, hout ▸ hbytes.out, hlen, fun i => ?_⟩
  · rw [hbytes.cur, State.appendAll_cur, hcur, hlen]
    simp
  · rw [← hinp, ← hbytes.inp]
    exact hu.position
  · rw [State.slot, State.slot, hbytes.win]

end

/-! SUPPORT. Streams in grouped form (R107): the control byte of a group shows the tags of its tokens, and what the tokens of a
stream stand for. -/

namespace Sys2Proof.Machine

/-- A line of a listing that is a Literal, or a BackRef of a count in its range (R93, R96, R107). -/
structure ListItem.IsToken (x : ListItem) : Prop where
  tagged : x.tag.isSome = true
  valid : x.valid = true

theorem ListItem.IsToken.cases {x : ListItem} (h : x.IsToken) :
    (∃ b, x = .lit b) ∨ ∃ off c, x = .ref off c ∧ 3 ≤ c ∧ c ≤ 18 := by
  obtain ⟨htag, hvalid⟩ := h
  cases x with
  | lit b => exact .inl ⟨b, rfl⟩
  | ref off c => exact .inr ⟨off, c, rfl, by simpa [ListItem.valid] using hvalid⟩
  | hdr n => cases htag
  | ctrl v => cases htag
  | raw b => cases htag

/-- A token and its share of a control byte take at most two bytes for each byte they stand for. -/
theorem ListItem.IsToken.bytes_length {x : ListItem} (h : x.IsToken) : x.bytes.length + 1 ≤ 2 * x.produces := by
  obtain ⟨b, rfl⟩ | ⟨off, c, rfl, hc, -⟩ := h.cases
  · exact Nat.le_refl 2
  · change 3 ≤ 2 * c
    omega

/-! The grouped form. -/

/-- A token in the grouped form: it joins the run so far, and the eighth token ends the run (R107). -/
theorem groupedBytes_token {x : ListItem} {t : Bool} (ht : x.tag = some t) (count : Nat) (control : Byte)
    (bytes : List Byte) (rest : List ListItem) :
    groupedBytes count control bytes (x :: rest) =
      if count = 7 then
        runBytes 8 (control ||| if t then 1#8 <<< count else 0#8) (bytes ++ x.bytes) ++ groupedBytes 0 0 [] rest
      else groupedBytes (count + 1) (control ||| if t then 1#8 <<< count else 0#8) (bytes ++ x.bytes) rest := by
  rw [groupedBytes, ht]

theorem runBytes_pos {count : Nat} (h : 0 < count) (control : Byte) (bytes : List Byte) :
    runBytes count control bytes = control :: bytes :=
  if_neg (Nat.ne_of_gt h)

/-- The bits of a control byte after one more tag: tag `count` at bit `count`, the bits below as before (R92). -/
theorem control_or_bit (control : Byte) {count : Nat} (hcount : count < 8) (hclear : control.getLsbD count = false) (t : Bool)
    (j : Nat) :
    (control ||| if t then 1#8 <<< count else 0#8).getLsbD j = if j = count then t else control.getLsbD j := by
  have hone : (1#8 <<< count).getLsbD j = decide (j = count) := by
    rw [BitVec.getLsbD_shiftLeft, BitVec.getLsbD_one]
    by_cases hj : j = count
    · simp [hj, hcount]
    · by_cases hlt : j < count
      · simp [hlt, hj]
      · simp [hj]
        omega
  rw [BitVec.getLsbD_or]
  by_cases hj : j = count
  · subst hj
    cases t <;> simp [hone, hclear]
  · cases t <;> simp [hone, hj]

/-- A run of tokens in the grouped form: its control byte, which keeps the tags of the run so far and shows those of the tokens
that join it, then the run's bytes, then the groups after it (R92, R107). -/
theorem groupedBytes_run {items : List ListItem} (hitems : ∀ x ∈ items, x.IsToken) {count : Nat} (hcount : count ≤ 7)
    {control : Byte} (hclear : ∀ j, count ≤ j → control.getLsbD j = false) (bytes : List Byte)
    (hrun : 0 < count ∨ items ≠ []) :
    ∃ c : Byte, groupedBytes count control bytes items =
        c :: (bytes ++ (items.take (8 - count)).flatMap ListItem.bytes ++ groupedBytes 0 0 [] (items.drop (8 - count))) ∧
      (∀ j < count, c.getLsbD j = control.getLsbD j) ∧
      ∀ i, count + i < 8 → ∀ x, items[i]? = some x → x.tag = some (c.getLsbD (count + i)) := by
  induction items generalizing count control bytes with
  | nil =>
    have hpos : 0 < count := hrun.resolve_right (by simp)
    exact ⟨control, by simp [groupedBytes, runBytes, Nat.ne_of_gt hpos], fun j _ => rfl, by simp⟩
  | cons x rest ih =>
    obtain ⟨t, ht⟩ := Option.isSome_iff_exists.1 (hitems x List.mem_cons_self).tagged
    have hbit := control_or_bit control (Nat.lt_succ_of_le hcount) (hclear count (Nat.le_refl _)) t
    rw [groupedBytes_token ht]
    generalize (control ||| if t then 1#8 <<< count else 0#8) = control' at hbit
    have hbelow (j : Nat) (hj : j < count) : control'.getLsbD j = control.getLsbD j := by
      rw [hbit, if_neg (Nat.ne_of_lt hj)]
    by_cases h7 : count = 7
    · subst h7
      refine ⟨control', by simp [runBytes], hbelow, fun i hi y hy => ?_⟩
      obtain rfl : i = 0 := by omega
      obtain rfl : x = y := by simpa using hy
      rw [ht, hbit, if_pos rfl]
    · rw [if_neg h7]
      obtain ⟨c, hbytes, hkeep, htags⟩ := ih (fun y hy => hitems y (List.mem_cons_of_mem _ hy)) (count := count + 1)
        (by omega) (control := control') (fun j hj => by rw [hbit, if_neg (by omega), hclear j (by omega)])
        (bytes ++ x.bytes) (.inl (Nat.succ_pos _))
      refine ⟨c, ?_, fun j hj => (hkeep j (by omega)).trans (hbelow j hj), fun i hi y hy => ?_⟩
      · rw [hbytes, show 8 - count = 8 - (count + 1) + 1 by omega]
        simp
      · cases i with
        | zero =>
          obtain rfl : x = y := by simpa using hy
          rw [ht, Nat.add_zero, hkeep count (by omega), hbit, if_pos rfl]
        | succ i =>
          rw [htags i (by omega) y (by simpa using hy), show count + 1 + i = count + (i + 1) by omega]

/-- The grouped form is at most two bytes for each byte the tokens stand for, beside the run so far. -/
theorem groupedBytes_length {items : List ListItem} (hitems : ∀ x ∈ items, x.IsToken) (count : Nat) (control : Byte)
    (bytes : List Byte) :
    (groupedBytes count control bytes items).length ≤
      1 + bytes.length + 2 * (items.map ListItem.produces).sum := by
  induction items generalizing count control bytes with
  | nil =>
    rw [groupedBytes, runBytes]
    split <;> simp
  | cons x rest ih =>
    have hrest := ih fun y hy => hitems y (List.mem_cons_of_mem _ hy)
    have hx := (hitems x List.mem_cons_self).bytes_length
    obtain ⟨t, ht⟩ := Option.isSome_iff_exists.1 (hitems x List.mem_cons_self).tagged
    rw [groupedBytes_token ht, List.map_cons, List.sum_cons]
    generalize (control ||| if t then 1#8 <<< count else 0#8) = control'
    split
    · have := hrest 0 0 []
      rw [runBytes_pos (by decide), List.length_append, List.length_cons, List.length_append]
      simp only [List.length_nil] at this
      omega
    · have := hrest (count + 1) control' (bytes ++ x.bytes)
      rw [List.length_append] at this
      omega

/-! What tokens stand for. -/

/-- The bytes that a token stands for, decoded with the window of `s` (R93, R78). -/
def State.itemBytes (s : State) : ListItem → List Byte
  | .lit b => [b]
  | .ref off c => s.replayed off c
  | .hdr _ | .ctrl _ | .raw _ => []

/-- The bytes that tokens stand for, decoded one after the other: each finds the window as those before it left it. -/
def State.decodedBytes (s : State) : List ListItem → List Byte
  | [] => []
  | x :: rest => s.itemBytes x ++ (s.appendAll (s.itemBytes x)).decodedBytes rest

variable {s t : State}

theorem State.itemBytes_length (s : State) (x : ListItem) : (s.itemBytes x).length = x.produces := by
  cases x with
  | ref off c => exact State.replayed_length s off c
  | lit b | hdr n | ctrl v | raw b => rfl

theorem State.decodedBytes_length (s : State) (items : List ListItem) :
    (s.decodedBytes items).length = (items.map ListItem.produces).sum := by
  induction items generalizing s with
  | nil => rfl
  | cons x rest ih => rw [State.decodedBytes, List.length_append, State.itemBytes_length, ih, List.map_cons, List.sum_cons]

theorem State.itemBytes_congr (hw : s.win = t.win) (hc : s.cur = t.cur) (x : ListItem) : s.itemBytes x = t.itemBytes x := by
  cases x with
  | ref off c => exact State.replayed_congr hw hc off c
  | lit b | hdr n | ctrl v | raw b => rfl

/-- What tokens stand for depends on the window and the cursor alone. -/
theorem State.decodedBytes_congr (hw : s.win = t.win) (hc : s.cur = t.cur) (items : List ListItem) :
    s.decodedBytes items = t.decodedBytes items := by
  induction items generalizing s t with
  | nil => rfl
  | cons x rest ih =>
    obtain ⟨hw', hc'⟩ := State.appendAll_congr (t.itemBytes x) hw hc
    rw [State.decodedBytes, State.decodedBytes, State.itemBytes_congr hw hc, ih hw' hc']

/-- One token more stands for its bytes in the window that the tokens before it left. -/
theorem State.decodedBytes_snoc (s : State) (items : List ListItem) (x : ListItem) :
    s.decodedBytes (items ++ [x]) = s.decodedBytes items ++ (s.appendAll (s.decodedBytes items)).itemBytes x := by
  induction items generalizing s with
  | nil => simp [State.decodedBytes]
  | cons y rest ih =>
    rw [List.cons_append, State.decodedBytes, ih, State.decodedBytes, State.appendAll_append, List.append_assoc]

end Sys2Proof.Machine

/-! SUPPORT. The decoder over a stream in grouped form: it reads the tokens one by one and delivers what they stand for. -/

namespace Sys2Proof.Machine

variable {s t u : State}

/-! Reaching a state. -/

/-- Some number of steps leads from `s` to `t`. -/
def Reaches (s t : State) : Prop := ∃ k, run k s = .next t

theorem Reaches.trans (h : Reaches s t) (h' : Reaches t u) : Reaches s u := by
  obtain ⟨j, hj⟩ := h
  obtain ⟨k, hk⟩ := h'
  exact ⟨j + k, (run_add hj k).trans hk⟩

/-- A step of a busy decoder with nothing presented by the host (R341). -/
theorem Reaches.decoder (hq : s.quiet) (hb : s.dstate.busy = true) (h : blockStep s = .next t) : Reaches s t :=
  ⟨1, run_one ((step_decoder hq hb).trans h)⟩

/-! The bytes still to read. -/

/-- The bytes at `in_ptr` and after it are `bytes`; `IN` is short enough for `in_ptr` not to wrap (R30, R64). -/
structure State.Reads (s : State) (bytes : List Byte) : Prop where
  short : s.inp.length < 2 ^ 32
  within : s.inPtr.toNat ≤ s.inp.length
  left : s.inp.drop s.inPtr.toNat = bytes

theorem State.Reads.byte {b : Byte} {rest : List Byte} (h : s.Reads (b :: rest)) : s.inp[s.inPtr.toNat]? = some b := by
  rw [← Nat.add_zero s.inPtr.toNat, ← List.getElem?_drop, h.left]
  rfl

theorem State.Reads.advanceIn {b : Byte} {rest : List Byte} (h : s.Reads (b :: rest)) : s.advanceIn.Reads rest := by
  obtain ⟨hlt, -⟩ := List.getElem?_eq_some_iff.1 h.byte
  have hshort := h.short
  have hptr : (s.inPtr + 1).toNat = s.inPtr.toNat + 1 := by bv_omega
  refine ⟨h.short, ?_, ?_⟩
  · rw [State.advanceIn_inPtr, hptr]
    exact hlt
  · rw [State.advanceIn_inPtr, hptr, State.advanceIn_inp, ← List.drop_drop, h.left]
    rfl

/-- With nothing left to read, `in_ptr` is past the last byte. -/
theorem State.Reads.consumed (h : s.Reads []) : s.inPtr.toNat = s.inp.length :=
  Nat.le_antisymm h.within (List.drop_eq_nil_iff.1 h.left)

/-! One token, from D_TAG back to D_LOOP. -/

/-- A whole replay by block steps of D_COPY (R199). -/
theorem reaches_copyBytes {k : Nat} (hq : s.quiet) (hs : s.dstate = .copy) (hk : s.refCnt.toNat = k + 1) :
    Reaches s (State.copyBytes (k + 1) s) := by
  have hone : Reaches s s.copyByte := .decoder hq (by rw [hs]; rfl) (blockStep_copy hs)
  induction k generalizing s with
  | zero => exact hone
  | succ k ih =>
    have hcnt : (s.refCnt - 1).toNat = k + 1 := by bv_omega
    have hstay : s.copyByte.dstate = .copy := by
      rw [State.copyByte_eq]
      exact if_neg fun h0 => absurd (congrArg BitVec.toNat h0) (hcnt ▸ Nat.succ_ne_zero k)
    exact hone.trans (ih (s := s.copyByte) hq hstay hcnt
      (.decoder hq (by rw [hstay]; rfl) (blockStep_copy hstay)))

/-- The block steps of a Literal add up to the token (R196). -/
theorem reaches_exec_lit {b : Byte} {rest : List Byte} (hq : s.quiet) (hs : s.dstate = .lit) (hr : s.Reads (b :: rest))
    (h : exec (.lit b) s = .next t) : Reaches s t := by
  refine .decoder hq (by rw [hs]; rfl) ?_
  rw [blockStep_lit hs, State.inRead_byte hr.byte]
  exact h

/-- The block steps of a BackRef that is owed whole add up to the token (R197 to R199). -/
theorem reaches_exec_bref {off : Slot} {n : BitVec 4} {rest : List Byte} (hq : s.quiet) (hs : s.dstate = .ref0)
    (hr : s.Reads (brefByte0 off :: brefByte1 off n :: rest)) (howed : n.toNat + 3 ≤ s.rem.toNat)
    (h : exec (.bref off n) s = .next t) : Reaches s t := by
  have hfirst : Reaches s (s.advanceIn.refByte0 (brefByte0 off)) :=
    .decoder hq (by rw [hs]; rfl) (by rw [blockStep_ref0 hs, State.inRead_byte hr.byte])
  have hbyte1 : (s.advanceIn.refByte0 (brefByte0 off)).inp[(s.advanceIn.refByte0 (brefByte0 off)).inPtr.toNat]? =
      some (brefByte1 off n) := hr.advanceIn.byte
  have hsecond : Reaches (s.advanceIn.refByte0 (brefByte0 off)) (s.refBytes (brefByte0 off) (brefByte1 off n)) :=
    .decoder hq rfl (by rw [blockStep_ref1 rfl, State.inRead_byte hbyte1]; rfl)
  have hcopy := State.refBytes_copy (off := off) howed
  have hstate : (s.refBytes (brefByte0 off) (brefByte1 off n)).dstate = .copy := by rw [hcopy]
  have hcount : (s.refBytes (brefByte0 off) (brefByte1 off n)).refCnt.toNat = n.toNat + 3 := by
    rw [hcopy]
    exact replayCount_toNat n
  have hquiet : (s.refBytes (brefByte0 off) (brefByte1 off n)).quiet := by
    rw [hcopy]
    exact hq
  rw [exec, execBref, if_pos hstate, hcount] at h
  cases h
  exact (hfirst.trans hsecond).trans (reaches_copyBytes hquiet hstate hcount)

/-- The nibble of a count in its range gives the count back (R96). -/
theorem nibble_toNat {c : Nat} (hc : 3 ≤ c) (hc' : c ≤ 18) : (BitVec.ofNat 4 (c - 3)).toNat + 3 = c := by
  rw [BitVec.toNat_ofNat, Nat.mod_eq_of_lt (by omega)]
  omega

/-- From `s` the decoder gets back to D_LOOP at `u` with the active control byte unchanged, `rest` left to read and `bytes`
delivered. -/
structure DecodesItem (s u : State) (rest bytes : List Byte) : Prop where
  reaches : Reaches s u
  quiet : u.quiet
  dstate : u.dstate = .loop
  dflags : u.dflags = s.dflags
  reads : u.Reads rest
  delivers : Delivers s s.rem.toNat u bytes

theorem decodesItem_lit {b : Byte} {rest : List Byte} (hq : s.quiet) (hs : s.dstate = .lit) (hr : s.Reads (b :: rest))
    (howed : 1 ≤ s.rem.toNat) : ∃ u, DecodesItem s u rest [b] := by
  have hrem : (s.rem - 1).toNat = s.rem.toNat - 1 := BitVec.toNat_sub_of_le howed
  obtain ⟨hshort, hwithin, hleft⟩ := hr.advanceIn
  refine ⟨_, reaches_exec_lit hq hs hr (exec_lit b s), hq, rfl, rfl, ⟨hshort, hwithin, hleft⟩, rfl, rfl, rfl, rfl, ?_⟩
  change 1 + (s.rem - 1).toNat = s.rem.toNat
  omega

theorem decodesItem_ref {off : Slot} {n : BitVec 4} {rest : List Byte} (hq : s.quiet) (hs : s.dstate = .ref0)
    (hr : s.Reads (brefByte0 off :: brefByte1 off n :: rest)) (howed : n.toNat + 3 ≤ s.rem.toNat) :
    ∃ u, DecodesItem s u rest (s.replayed off (n.toNat + 3)) := by
  have hn := n.isLt
  have hrem : (s.rem - BitVec.ofNat 16 (n.toNat + 3)).toNat = s.rem.toNat - (n.toNat + 3) := by bv_omega
  obtain ⟨hshort, hwithin, hleft⟩ := hr.advanceIn.advanceIn
  have hptr : s.inPtr + 1 + 1 = s.inPtr + 2 := BitVec.add_assoc _ _ _
  rw [State.advanceIn_inPtr, State.advanceIn_inPtr, hptr] at hwithin hleft
  refine ⟨_, reaches_exec_bref hq hs hr howed (exec_bref_copy howed), hq, rfl, rfl, ⟨hshort, hwithin, hleft⟩, rfl, rfl, rfl,
    ?_, ?_⟩
  · rw [State.appendAll_cur, State.replayed_length]
  · rw [State.replayed_length]
    change n.toNat + 3 + (s.rem - BitVec.ofNat 16 (n.toNat + 3)).toNat = s.rem.toNat
    omega

/-- A change of the decoder's state first is one step more. -/
theorem DecodesItem.dispatch {d : DState} {rest bytes : List Byte} (hreach : Reaches s { s with dstate := d })
    (h : DecodesItem { s with dstate := d } u rest bytes) : DecodesItem s u rest bytes := by
  obtain ⟨hinp, hout, hwin, hcur, howed⟩ := h.delivers
  obtain ⟨hwin', hcur'⟩ := State.appendAll_congr bytes (s := { s with dstate := d }) (t := s) rfl rfl
  exact ⟨hreach.trans h.reaches, h.quiet, h.dstate, h.dflags, h.reads, hinp, hout, hwin.trans hwin', hcur.trans hcur',
    howed⟩

/-- The decoder at D_TAG takes the token that the tag announces (R195 to R199). -/
theorem decodesItem {x : ListItem} {rest : List Byte} (hq : s.quiet) (hs : s.dstate = .tag) (hx : x.IsToken)
    (htag : x.tag = some (s.dflags.getLsbD 0)) (hr : s.Reads (x.bytes ++ rest)) (howed : x.produces ≤ s.rem.toNat) :
    ∃ u, DecodesItem s u rest (s.itemBytes x) := by
  have hdispatch : Reaches s s.tagDispatch := .decoder hq (by rw [hs]; rfl) (blockStep_tag hs)
  obtain ⟨hshort, hwithin, hleft⟩ := hr
  obtain ⟨b, rfl⟩ | ⟨off, c, rfl, hc, hc'⟩ := hx.cases
  · rw [State.tagDispatch_literal (Option.some.inj htag).symm] at hdispatch
    obtain ⟨u, hu⟩ := decodesItem_lit (s := { s with dstate := .lit }) hq rfl ⟨hshort, hwithin, hleft⟩ howed
    exact ⟨u, hu.dispatch hdispatch⟩
  · have hn := nibble_toNat hc hc'
    rw [State.tagDispatch_backref (Option.some.inj htag).symm] at hdispatch
    obtain ⟨u, hu⟩ := decodesItem_ref (s := { s with dstate := .ref0 }) hq rfl ⟨hshort, hwithin, hleft⟩ (hn.trans_le howed)
    rw [hn, State.replayed_congr (s := { s with dstate := .ref0 }) (t := s) rfl rfl] at hu
    exact ⟨u, hu.dispatch hdispatch⟩

/-! Tokens in grouped form, from D_LOOP to the end of the decode. -/

/-- The decoder stands, or after the shift of D_LOOP will stand, at tag `j` of the control byte `c`: the tokens left in the
group have their tags in `c`, and the later groups follow. From tag 8 on the group is used up (R164, R193). -/
structure State.InGroup (s : State) (c : Byte) (j : Nat) (items : List ListItem) : Prop where
  dflags : s.dflags = (0xFF#8 ++ c) >>> j
  tags : ∀ i, j + i < 8 → ∀ x, items[i]? = some x → x.tag = some (c.getLsbD (j + i))
  reads : s.Reads ((items.take (8 - j)).flatMap ListItem.bytes ++ groupedBytes 0 0 [] (items.drop (8 - j)))

/-- A control byte is active exactly below tag 8 (R164). -/
theorem State.InGroup.active {c : Byte} {j : Nat} {items : List ListItem} (h : s.InGroup c j items) :
    s.dflags.getLsbD 8 = decide (j < 8) := by
  rw [h.dflags, BitVec.getLsbD_ushiftRight]
  by_cases hj : j < 8
  · rw [loaded_sentinel_bit c (Nat.le_of_lt hj), decide_eq_true hj, decide_eq_true (Nat.le_of_lt_succ hj)]
  · rw [BitVec.getLsbD_of_ge _ _ (by omega), decide_eq_false hj]

/-- The tag of the next token stands at bit 0 (R163). -/
theorem State.InGroup.tag_eq {c : Byte} {j : Nat} {x : ListItem} {rest : List ListItem} (h : s.InGroup c j (x :: rest))
    (hj : j < 8) : x.tag = some (s.dflags.getLsbD 0) := by
  rw [h.dflags, BitVec.getLsbD_ushiftRight]
  exact (h.tags 0 hj x rfl).trans (congrArg some (loaded_control_bit c hj).symm)

/-- Below tag 8 the next token's bytes are the next to read. -/
theorem State.InGroup.reads_item {c : Byte} {j : Nat} {x : ListItem} {rest : List ListItem} (h : s.InGroup c j (x :: rest))
    (hj : j < 8) : s.Reads (x.bytes ++
      ((rest.take (8 - (j + 1))).flatMap ListItem.bytes ++ groupedBytes 0 0 [] (rest.drop (8 - (j + 1))))) := by
  have hreads := h.reads
  rwa [show 8 - j = 8 - (j + 1) + 1 by omega, List.take_succ_cons, List.drop_succ_cons, List.flatMap_cons,
    List.append_assoc] at hreads

/-- After a token the next tag is one place further, once D_LOOP has shifted (R164). -/
theorem State.InGroup.next {c : Byte} {j : Nat} {x : ListItem} {rest : List ListItem} {bytes : List Byte}
    (h : s.InGroup c j (x :: rest))
    (hu : DecodesItem s u
      ((rest.take (8 - (j + 1))).flatMap ListItem.bytes ++ groupedBytes 0 0 [] (rest.drop (8 - (j + 1)))) bytes) :
    u.shiftFlags.InGroup c (j + 1) rest := by
  obtain ⟨hshort, hwithin, hleft⟩ := hu.reads
  refine ⟨?_, fun i hi y hy => ?_, hshort, hwithin, hleft⟩
  · rw [State.shiftFlags_dflags, hu.dflags, h.dflags, BitVec.shiftRight_add]
  · rw [h.tags (i + 1) (by omega) y hy, show j + 1 + i = j + (i + 1) by omega]

/-- D_CTRL loads the control byte it reads (R194). -/
theorem reaches_controlLoad {c : Byte} {rest : List Byte} (hq : s.quiet) (hs : s.dstate = .ctrl) (hr : s.Reads (c :: rest)) :
    Reaches s { s.advanceIn with dflags := 0xFF#8 ++ c, dstate := .tag } :=
  .decoder hq (by rw [hs]; rfl) (by rw [blockStep_ctrl hs, State.inRead_byte hr.byte, State.controlLoad_eq])

/-- From D_LOOP with a token to come the decoder gets to its tag, through a new control byte where the group is used up (R193,
R194). -/
theorem State.InGroup.reaches_tag {c : Byte} {j : Nat} {items : List ListItem} (h : s.shiftFlags.InGroup c j items)
    (hitems : ∀ x ∈ items, x.IsToken) (hne : items ≠ []) (hq : s.quiet) (hs : s.dstate = .loop) (hr : s.rem ≠ 0) :
    ∃ u c' j', Reaches s u ∧ u.quiet ∧ u.dstate = .tag ∧ j' < 8 ∧ u.InGroup c' j' items ∧
      Delivers s s.rem.toNat u [] ∧ u.rem = s.rem := by
  have hhead : Reaches s s.loopHead := .decoder hq (by rw [hs]; rfl) (blockStep_loop hs)
  have hactive : (s.dflags >>> 1).getLsbD 8 = decide (j < 8) := h.active
  obtain ⟨hflags, htags, hshort, hwithin, hleft⟩ := h
  by_cases hj : j < 8
  · rw [State.loopHead_tag hr (hactive.trans (decide_eq_true hj))] at hhead
    exact ⟨_, c, j, hhead, hq, rfl, hj, ⟨hflags, htags, hshort, hwithin, hleft⟩, .nil rfl rfl rfl rfl rfl, rfl⟩
  · rw [State.loopHead_control hr (hactive.trans (decide_eq_false hj))] at hhead
    rw [show 8 - j = 0 by omega] at hleft
    obtain ⟨c', hbytes, -, htags'⟩ := groupedBytes_run hitems (Nat.zero_le 7) (control := 0) (fun _ _ => BitVec.getLsbD_zero)
      [] (.inr hne)
    have hreads : State.Reads { s with dflags := s.dflags >>> 1, dstate := .ctrl }
        (c' :: ((items.take 8).flatMap ListItem.bytes ++ groupedBytes 0 0 [] (items.drop 8))) :=
      ⟨hshort, hwithin, hleft.trans hbytes⟩
    obtain ⟨hshort, hwithin, hleft⟩ := hreads.advanceIn
    exact ⟨_, c', 0, hhead.trans (reaches_controlLoad hq rfl hreads), hq, rfl, by decide,
      ⟨rfl, htags', hshort, hwithin, hleft⟩, .nil rfl rfl rfl rfl rfl, rfl⟩

/-- The decoder takes all the tokens of a stream in grouped form and ends with nothing left to read (R202, R203, R205). -/
theorem State.InGroup.reaches_done {c : Byte} {j : Nat} {items : List ListItem} (h : s.shiftFlags.InGroup c j items)
    (hitems : ∀ x ∈ items, x.IsToken) (hq : s.quiet) (hs : s.dstate = .loop)
    (howed : s.rem.toNat = (s.decodedBytes items).length) :
    ∃ u, Reaches s u ∧ u.dstate = .done ∧ u.Reads [] ∧ Delivers s s.rem.toNat u (s.decodedBytes items) := by
  induction items generalizing s c j with
  | nil =>
    have hrem : s.rem = 0 := BitVec.eq_of_toNat_eq howed
    obtain ⟨-, -, hshort, hwithin, hleft⟩ := h
    refine ⟨{ s with dstate := .done, done := true }, .decoder hq (by rw [hs]; rfl) ?_, rfl, ⟨hshort, hwithin, ?_⟩,
      .nil rfl rfl rfl rfl rfl⟩
    · rw [blockStep_loop hs, State.loopHead_done hrem]
    · simpa [groupedBytes, runBytes] using hleft
  | cons x rest ih =>
    have hx := hitems x List.mem_cons_self
    have hrest : ∀ y ∈ rest, y.IsToken := fun y hy => hitems y (List.mem_cons_of_mem _ hy)
    rw [State.decodedBytes, List.length_append, State.itemBytes_length] at howed
    have hpos : 1 ≤ x.produces := by have := hx.bytes_length; omega
    have hne : s.rem ≠ 0 := fun h0 => by rw [h0] at howed; simp at howed; omega
    obtain ⟨t, c', j', htag, hqt, hst, hj', hgroup, hsilent, hrem⟩ :=
      h.reaches_tag hitems (List.cons_ne_nil x rest) hq hs hne
    obtain ⟨u, hitem⟩ := decodesItem hqt hst hx (hgroup.tag_eq hj') (hgroup.reads_item hj') (by rw [hrem]; omega)
    have hnext := hgroup.next hitem
    rw [State.itemBytes_congr hsilent.win hsilent.cur] at hitem
    have hdel : Delivers s s.rem.toNat u (s.itemBytes x) := hsilent.trans hitem.delivers
    have hleft := hdel.owed
    rw [State.itemBytes_length] at hleft
    have hbytes : u.decodedBytes rest = (s.appendAll (s.itemBytes x)).decodedBytes rest :=
      State.decodedBytes_congr hdel.win hdel.cur rest
    obtain ⟨v, hv, hdone, hend, hlast⟩ := ih hnext hrest hitem.quiet hitem.dstate (by rw [hbytes]; omega)
    exact ⟨v, (htag.trans hitem.reaches).trans hv, hdone, hend, hdel.trans (hbytes ▸ hlast)⟩

/-! A whole decode. -/

/-- Both header bytes make `R` (R191, R192). -/
theorem reaches_header {hi lo : Byte} {rest : List Byte} (hq : s.quiet) (hs : s.dstate = .hdr0)
    (hr : s.Reads (hi :: lo :: rest)) : Reaches s { s with inPtr := s.inPtr + 2, rem := hi ++ lo, dstate := .loop } := by
  have hhigh : Reaches s (s.advanceIn.headerHigh hi) :=
    .decoder hq (by rw [hs]; rfl) (by rw [blockStep_hdr0 hs, State.inRead_byte hr.byte])
  have hbyte : (s.advanceIn.headerHigh hi).inp[(s.advanceIn.headerHigh hi).inPtr.toNat]? = some lo := hr.advanceIn.byte
  refine hhigh.trans (.decoder hq rfl ?_)
  rw [blockStep_hdr1 rfl, State.inRead_byte hbyte, State.headerLow_headerHigh]

/-- Before the first control byte no group is active: the cleared flags are those of a used up group (R160, R164). -/
theorem State.inGroup_of_clear {items : List ListItem} (hflags : s.dflags = 0) (hr : s.Reads (groupedBytes 0 0 [] items)) :
    s.shiftFlags.InGroup 0 16 items := by
  obtain ⟨hshort, hwithin, hleft⟩ := hr
  refine ⟨?_, fun i hi => by omega, hshort, hwithin, hleft⟩
  rw [State.shiftFlags_dflags, hflags]
  decide

/-- A decode from its header on delivers what the tokens of the stream stand for, and consumes the stream exactly (R203,
R205). -/
theorem reaches_done_of_header {items : List ListItem} (hitems : ∀ x ∈ items, x.IsToken) {n : BitVec 16}
    (hlen : n.toNat = (s.decodedBytes items).length) (hq : s.quiet) (hs : s.dstate = .hdr0) (hflags : s.dflags = 0)
    (hr : s.Reads ((ListItem.hdr n).bytes ++ groupedBytes 0 0 [] items)) :
    ∃ u, Reaches s u ∧ u.dstate = .done ∧ u.Reads [] ∧ Delivers s n.toNat u (s.decodedBytes items) := by
  have hheader := reaches_header hq hs hr
  rw [header_bytes] at hheader
  generalize ht : ({ s with inPtr := s.inPtr + 2, rem := n, dstate := .loop } : State) = t at hheader
  have hsilent : Delivers s n.toNat t [] := by
    subst ht
    exact .nil rfl rfl rfl rfl rfl
  have hptr : s.inPtr + 1 + 1 = s.inPtr + 2 := BitVec.add_assoc _ _ _
  have hreads : t.Reads (groupedBytes 0 0 [] items) := by
    obtain ⟨hshort, hwithin, hleft⟩ := hr.advanceIn.advanceIn
    rw [State.advanceIn_inPtr, State.advanceIn_inPtr, hptr] at hwithin hleft
    subst ht
    exact ⟨hshort, hwithin, hleft⟩
  have hrem : t.rem = n := by rw [← ht]
  have hbytes : t.decodedBytes items = s.decodedBytes items := State.decodedBytes_congr hsilent.win hsilent.cur items
  obtain ⟨u, hu, hdone, hend, hdel⟩ := (State.inGroup_of_clear (by rw [← ht]; exact hflags) hreads).reaches_done hitems
    (by rw [← ht]; exact hq) (by rw [← ht]) (by rw [hrem, hbytes, hlen])
  exact ⟨u, hheader.trans hu, hdone, hend, hsilent.trans (hbytes ▸ hdel)⟩

/-- DEC.START on the grouped form of tokens leads to what they stand for in `OUT`, with the stream consumed exactly (R190, R203,
R205). -/
theorem exec_decStart_reaches_done {items : List ListItem} (hitems : ∀ x ∈ items, x.IsToken) {n : BitVec 16}
    (hlen : n.toNat = (s.initWindow.decodedBytes items).length) (hq : s.quiet)
    (hinp : s.inp = (ListItem.hdr n).bytes ++ groupedBytes 0 0 [] items) :
    ∃ t u, exec .decStart s = .next t ∧ Reaches t u ∧ u.dstate = .done ∧
      u.out = s.out ++ s.initWindow.decodedBytes items ∧ u.inPtr.toNat = s.inp.length := by
  have hshort : s.inp.length < 2 ^ 32 := by
    have hgroups := groupedBytes_length hitems 0 0 []
    rw [← State.decodedBytes_length s.initWindow, ← hlen, List.length_nil] at hgroups
    rw [hinp, List.length_append, show (ListItem.hdr n).bytes.length = 2 from rfl]
    omega
  obtain ⟨t, ht, htq, hts, htf, htp, htinp, htout, htwin, htcur⟩ : ∃ t, exec .decStart s = .next t ∧ t.quiet ∧
      t.dstate = .hdr0 ∧ t.dflags = 0 ∧ t.inPtr = 0 ∧ t.inp = s.inp ∧ t.out = s.out ∧ t.win = s.initWindow.win ∧
      t.cur = s.initWindow.cur := ⟨_, execDecStart_eq s, hq, rfl, rfl, rfl, rfl, rfl, rfl, rfl⟩
  have hbytes : t.decodedBytes items = s.initWindow.decodedBytes items := State.decodedBytes_congr htwin htcur items
  have hreads : t.Reads ((ListItem.hdr n).bytes ++ groupedBytes 0 0 [] items) :=
    ⟨htinp ▸ hshort, htp ▸ Nat.zero_le _, by rw [htp, htinp, hinp]; rfl⟩
  obtain ⟨u, hu, hdone, hend, hdel⟩ := reaches_done_of_header hitems (by rw [hbytes, hlen]) htq hts htf hreads
  refine ⟨t, u, ht, hu, hdone, ?_, ?_⟩
  · rw [hdel.out, htout, hbytes]
  · rw [hend.consumed, hdel.inp, htinp]

end Sys2Proof.Machine

/-! SUPPORT. The encoder as a whole: the tokens written so far stand for the input covered so far, and the output emitted and
held is their grouped form. -/

namespace Sys2Proof.Machine

variable {s t u b : State}

/-! What a probe finds, a replay gives back. -/

/-- As far as a probe matches, a replay from its slot gives the input bytes (R243, R78). -/
theorem State.replayed_of_probe (hwf : s.win.wf) {start : Slot} {p k : Nat} (hk : k ≤ s.probe start p)
    (hsize : k ≤ Config.winSize) : s.replayed start k = (s.inp.drop p).take k := by
  induction k with
  | zero => rfl
  | succ k ih =>
    obtain ⟨hin, hmatch⟩ := s.probe_matches start p hk
    have hprev := ih (Nat.le_of_succ_le hk) (Nat.le_of_succ_le hsize)
    rw [State.simwin_eq hwf (Nat.le_of_lt hin) (Nat.le_of_succ_le hsize), ← hprev] at hmatch
    rw [State.replayed, hmatch, hprev, List.take_add_one, List.getElem?_drop, List.getElem?_eq_getElem hin, State.inputAt,
      List.getD_eq_getElem _ _ hin]
    rfl

/-- A candidate that E_SEARCH finds replays the input bytes it matched (R240, R285). -/
theorem State.replayed_of_searchResult (hwf : s.win.wf) (hparams : s.params.legal = true) {c : Candidate}
    (h : s.searchResult = some c) : s.replayed c.s c.m = (s.inp.drop s.epos.toNat).take c.m := by
  have hmem : c ∈ s.cands s.epos.toNat := by
    unfold State.searchResult at h
    split at h
    · exact (State.find_mem h).2
    · cases h
  obtain ⟨hm, -, hcap, -⟩ := State.cands_bounds hmem
  have h18 := Params.maxMatch_le hparams
  exact State.replayed_of_probe hwf (Nat.le_of_eq hm) (by simp only [Config.winSize]; omega)

/-! What the encoder holds back. -/

/-- The token bytes in the buffer (R32). -/
def State.buffered (s : State) : List Byte := s.tokbuf.toList.take s.toklen.toNat

/-- What the encoder still has to emit when the tokens `rest` are to come: the group it holds is complete at eight tags, and is
flushed at the next loop head only (R283, R284). -/
def State.unsent (s : State) (rest : List ListItem) : List Byte :=
  if s.ecnt = 8 then s.controlByte :: s.buffered ++ groupedBytes 0 0 [] rest
  else groupedBytes s.ecnt.toNat s.controlByte s.buffered rest

/-- A token tagged and buffered is one token less to come (R167, R107). -/
theorem State.unsent_push {x : ListItem} {tag : BitVec 1} (htag : x.tag = some (tag.getLsbD 0)) (hroom : s.ecnt.toNat < 8)
    (hunused : s.etag <<< s.ecnt.toNat = 0) (hetag : t.etag = tag ++ s.etag.extractLsb' 1 7) (hecnt : t.ecnt = s.ecnt + 1)
    (hbuf : t.buffered = s.buffered ++ x.bytes) (rest : List ListItem) : t.unsent rest = s.unsent (x :: rest) := by
  have hne : s.ecnt ≠ 8 := fun h8 => by simp [h8] at hroom
  have hcount : (s.ecnt + 1).toNat = s.ecnt.toNat + 1 := by bv_omega
  have hbit : tag.setWidth 8 <<< s.ecnt.toNat = if tag.getLsbD 0 then 1#8 <<< s.ecnt.toNat else 0#8 := by
    rcases BitVec.eq_zero_or_eq_one tag with rfl | rfl <;> simp
  have hcontrol : t.controlByte = s.controlByte ||| if tag.getLsbD 0 then 1#8 <<< s.ecnt.toNat else 0#8 := by
    rw [State.controlByte, hetag, hecnt, controlByte_push s.etag s.ecnt tag hroom hunused, hbit, State.controlByte]
  have hfull : t.ecnt = 8 ↔ s.ecnt.toNat = 7 := by rw [hecnt]; bv_omega
  rw [State.unsent, State.unsent, if_neg hne, groupedBytes_token htag, ← hcontrol, ← hbuf]
  by_cases h7 : s.ecnt.toNat = 7
  · rw [if_pos h7, if_pos (hfull.2 h7)]
    rfl
  · rw [if_neg h7, if_neg (mt hfull.1 h7), hecnt, hcount]

/-- A full group leaves with its control byte, and nothing is held (R284). -/
theorem State.unsent_flush (h8 : s.ecnt = 8) (hetag : t.etag = 0) (hecnt : t.ecnt = 0) (htoklen : t.toklen = 0)
    (rest : List ListItem) : s.unsent rest = s.controlByte :: s.buffered ++ t.unsent rest := by
  have hempty : t.unsent rest = groupedBytes 0 0 [] rest := by
    simp [State.unsent, State.controlByte, State.buffered, hetag, hecnt, htoklen]
  rw [hempty, State.unsent, if_pos h8]

/-- What is held at the end: nothing, or a last group (R288). -/
theorem State.unsent_nil (s : State) : s.unsent [] = if s.ecnt = 0 then [] else s.controlByte :: s.buffered := by
  have hzero : s.ecnt.toNat = 0 ↔ s.ecnt = 0 := by rw [← BitVec.toNat_inj]; rfl
  rw [State.unsent]
  by_cases h8 : s.ecnt = 8
  · simp [h8, groupedBytes, runBytes]
  · simp only [if_neg h8, groupedBytes, runBytes, hzero]

/-! One token written (R286, R287). -/

/-- Bytes into the token buffer, first byte first (R32). -/
def State.bufferAll (bytes : List Byte) (s : State) : State := bytes.foldl (fun t v => t.bufferByte v) s

theorem State.bufferAll_frame (bytes : List Byte) (s : State) :
    s.bufferAll bytes = { s with tokbuf := (s.bufferAll bytes).tokbuf, toklen := (s.bufferAll bytes).toklen } := by
  induction bytes generalizing s with
  | nil => rfl
  | cons v rest ih => exact ih (s.bufferByte v)

/-- Bytes for which there is room extend the held part of the buffer (R32). -/
theorem State.buffered_bufferAll {bytes : List Byte} (hroom : s.toklen.toNat + bytes.length ≤ 16) :
    (s.bufferAll bytes).buffered = s.buffered ++ bytes ∧
      (s.bufferAll bytes).toklen.toNat = s.toklen.toNat + bytes.length := by
  induction bytes generalizing s with
  | nil => exact ⟨(List.append_nil _).symm, rfl⟩
  | cons v rest ih =>
    rw [List.length_cons] at hroom
    have hlen : (s.toklen + 1).toNat = s.toklen.toNat + 1 := by bv_omega
    have hone : (s.bufferByte v).buffered = s.buffered ++ [v] := by
      rw [State.buffered, State.bufferByte_toklen, hlen]
      exact take_setIfInBounds s.tokbuf v (by omega)
    obtain ⟨hbuf, htok⟩ := ih (s := s.bufferByte v) (by rw [State.bufferByte_toklen, hlen]; omega)
    refine ⟨?_, ?_⟩
    · change ((s.bufferByte v).bufferAll rest).buffered = _
      rw [hbuf, hone, List.append_assoc]
      rfl
    · change ((s.bufferByte v).bufferAll rest).toklen.toNat = _
      rw [htok, State.bufferByte_toklen, hlen, List.length_cons]
      omega

/-- E_LIT and E_REF as one: the token `x` is tagged and buffered, what it stands for is appended, and the position moves over
it. -/
def State.writeItem (tag : BitVec 1) (x : ListItem) (s : State) : State :=
  let t := ((s.pushTag tag).bufferAll x.bytes).appendAll (s.itemBytes x)
  { t with
    epos := t.epos + BitVec.ofNat 32 x.produces, erem := t.erem - BitVec.ofNat 16 x.produces, estate := .loop }

theorem State.writeItem_eq (tag : BitVec 1) (x : ListItem) (s : State) :
    s.writeItem tag x = { s with
      win := (s.appendAll (s.itemBytes x)).win, cur := (s.appendAll (s.itemBytes x)).cur
      etag := tag ++ s.etag.extractLsb' 1 7, ecnt := s.ecnt + 1
      tokbuf := ((s.pushTag tag).bufferAll x.bytes).tokbuf, toklen := ((s.pushTag tag).bufferAll x.bytes).toklen
      epos := s.epos + BitVec.ofNat 32 x.produces, erem := s.erem - BitVec.ofNat 16 x.produces, estate := .loop } := by
  have hframe := State.bufferAll_frame x.bytes (s.pushTag tag)
  obtain ⟨hwin, hcur⟩ := State.appendAll_congr (s.itemBytes x) (s := (s.pushTag tag).bufferAll x.bytes) (t := s)
    (by rw [hframe]; rfl) (by rw [hframe]; rfl)
  rw [State.writeItem, State.appendAll_frame, hwin, hcur, hframe]
  rfl

/-- E_LIT writes a Literal (R286). -/
theorem encLit_writeItem {v : Byte} (h : s.input s.epos.toNat = some v) (hroom : s.toklen.toNat < 16) :
    encLit s = .next (s.writeItem 1 (.lit v)) := by
  rw [encLit_eq h hroom, State.writeItem_eq]
  rfl

/-- E_REF writes the BackRef of a candidate that replays the bytes it matched (R287). -/
theorem encRef_writeItem (h : s.epos.toNat + s.candM.toNat ≤ s.inp.length) (hroom : s.toklen.toNat + 2 ≤ 16)
    (h3 : 3 ≤ s.candM.toNat) (h18 : s.candM.toNat ≤ 18)
    (hmatch : s.replayed s.candS s.candM.toNat = (s.inp.drop s.epos.toNat).take s.candM.toNat) :
    encRef s = .next (s.writeItem 0 (.ref s.candS s.candM.toNat)) := by
  have hnibble : matchNibble s.candM = BitVec.ofNat 4 (s.candM.toNat - 3) := by
    generalize s.candM = m at h3 h18
    revert m
    decide
  rw [encRef_eq h hroom, State.writeItem_eq, State.itemBytes, hmatch, hnibble]
  simp only [ListItem.produces, BitVec.ofNat_toNat]
  rfl

variable {items : List ListItem}

/-! An encode past its header. -/

/-- With nothing presented by the host, a busy encoder takes the step (R341). -/
theorem step_encoder (hq : s.quiet) (hd : s.dstate.busy = false) (he : s.estate.busy = true) : step s = encoderStep s := by
  rw [step_quiet hq.1 hq.2, if_pos (State.busy_eq_true.2 (.inr he)), blockStep_encoder hd he]

/-- From `b`, the first loop head, to `s` the encoder has written the tokens `items`: they stand for the input up to the
position, the window has what they stand for, and what was emitted and is held is their grouped form (R283 to R288). -/
structure State.Written (b s : State) (items : List ListItem) : Prop where
  quiet : s.quiet
  otherIdle : s.dstate.busy = false
  params : s.params.legal = true
  inp : s.inp = b.inp
  length : s.inp.length ≤ 65535
  window : s.win.wf
  tokens : ∀ x ∈ items, x.IsToken
  covers : b.decodedBytes items = s.inp.take s.epos.toNat
  win : s.win = (b.appendAll (b.decodedBytes items)).win
  cur : s.cur = (b.appendAll (b.decodedBytes items)).cur
  position : s.epos.toNat + s.erem.toNat = s.inp.length
  ecnt : s.ecnt.toNat ≤ 8
  etag : s.etag <<< s.ecnt.toNat = 0
  buffer : s.toklen.toNat ≤ 2 * s.ecnt.toNat
  sent : ∀ rest, b.out ++ groupedBytes 0 0 [] (items ++ rest) = s.out ++ s.unsent rest

/-- A token that replays the input from the position on may be written (R286, R287). -/
theorem State.Written.writeItem (h : State.Written b s items) {x : ListItem} {tag : BitVec 1} (hx : x.IsToken)
    (htag : x.tag = some (tag.getLsbD 0)) (hroom : s.ecnt.toNat < 8) (hleft : x.produces ≤ s.erem.toNat)
    (hbytes : s.itemBytes x = (s.inp.drop s.epos.toNat).take x.produces) :
    State.Written b (s.writeItem tag x) (items ++ [x]) := by
  obtain ⟨hq, hidle, hpar, hinp, hlen, hwf, htok, hcov, hwin, hcur, hpos, hecnt, hetag, hbuf, hsent⟩ := h
  have hxlen : x.bytes.length ≤ 2 := by
    obtain ⟨v, rfl⟩ | ⟨off, c, rfl, -, -⟩ := hx.cases
    · exact Nat.le_succ 1
    · exact Nat.le_refl 2
  obtain ⟨hbuffered, htoklen⟩ := State.buffered_bufferAll (s := s.pushTag tag) (bytes := x.bytes)
    (by rw [State.pushTag_toklen]; omega)
  have hitem : (b.appendAll (b.decodedBytes items)).itemBytes x = s.itemBytes x :=
    State.itemBytes_congr hwin.symm hcur.symm x
  have hdec : b.decodedBytes (items ++ [x]) = b.decodedBytes items ++ s.itemBytes x := by
    rw [State.decodedBytes_snoc, hitem]
  obtain ⟨hwin', hcur'⟩ := State.appendAll_congr (s.itemBytes x) hwin hcur
  have hepos : (s.epos + BitVec.ofNat 32 x.produces).toNat = s.epos.toNat + x.produces := by bv_omega
  have herem : (s.erem - BitVec.ofNat 16 x.produces).toNat = s.erem.toNat - x.produces := by bv_omega
  have hcount : (s.ecnt + 1).toNat = s.ecnt.toNat + 1 := by bv_omega
  have hunsent (rest : List ListItem) : (s.writeItem tag x).unsent rest = s.unsent (x :: rest) := by
    refine State.unsent_push htag hroom hetag ?_ ?_ ?_ rest <;> rw [State.writeItem_eq]
    exact hbuffered
  rw [State.writeItem_eq] at hunsent ⊢
  refine ⟨hq, hidle, hpar, hinp, hlen, State.appendAll_wf _ hwf, ?_, ?_, ?_, ?_, ?_, ?_, ?_, ?_, ?_⟩
  · exact List.forall_mem_append.2 ⟨htok, List.forall_mem_singleton.2 hx⟩
  · dsimp only
    rw [hdec, hcov, hbytes, hepos, List.take_add]
  · rw [hdec, State.appendAll_append]
    exact hwin'
  · rw [hdec, State.appendAll_append]
    exact hcur'
  · dsimp only
    omega
  · dsimp only
    omega
  · exact etag_push s.etag s.ecnt tag hroom hetag
  · dsimp only
    rw [State.pushTag_toklen] at htoklen
    omega
  · intro rest
    dsimp only
    rw [List.append_assoc, List.singleton_append, hsent, hunsent]

/-- A full group is flushed (R284). -/
theorem State.Written.flush (h : State.Written b s items) (h8 : s.ecnt = 8) :
    State.Written b { s with
      etag := 0, ecnt := 0, toklen := 0, groups := s.groups + 1
      out := s.out ++ s.controlByte :: s.tokbuf.toList.take s.toklen.toNat, estate := .search } items :=
  { h with
    ecnt := Nat.zero_le _
    etag := rfl
    buffer := Nat.zero_le _
    sent := fun rest => by
      refine (h.sent rest).trans
        ((congrArg (s.out ++ ·) (State.unsent_flush h8 ?_ ?_ ?_ rest)).trans (List.append_assoc _ _ _).symm) <;> rfl }

/-- The conditions of an encode past its header, by its state (R283 to R288). -/
def State.EncodePhase (s : State) : Prop :=
  match s.estate with
  | .loop => True
  | .flush => s.ecnt = 8 ∧ s.erem ≠ 0
  | .search | .lit => s.ecnt.toNat < 8 ∧ s.erem ≠ 0
  | .ref => s.ecnt.toNat < 8 ∧ 3 ≤ s.candM.toNat ∧ s.candM.toNat ≤ 18 ∧ s.epos.toNat + s.candM.toNat ≤ s.inp.length ∧
      s.replayed s.candS s.candM.toNat = (s.inp.drop s.epos.toNat).take s.candM.toNat
  | .final => s.erem = 0
  | .idle | .hdr0 | .hdr1 | .done | .fault => False

/-- An encode past its header that has written the tokens `items`. -/
structure State.Encoding (b s : State) (items : List ListItem) : Prop where
  written : State.Written b s items
  phase : s.EncodePhase

/-- An encode from `b` that ended: the tokens stand for all of `IN`, and their grouped form was emitted (R288, R289). -/
structure State.Encoded (b s : State) (items : List ListItem) : Prop where
  quiet : s.quiet
  estate : s.estate = .done
  inp : s.inp = b.inp
  tokens : ∀ x ∈ items, x.IsToken
  covers : b.decodedBytes items = b.inp
  out : s.out = b.out ++ groupedBytes 0 0 [] items

/-- The steps an encode past its header can still take (R295): at most 4 for each byte left, since a token takes E_LOOP, E_FLUSH,
E_SEARCH and E_LIT or E_REF; then the last E_LOOP and E_FINAL. -/
def State.encodeBudget (s : State) : Nat :=
  match s.estate with
  | .loop => 4 * s.erem.toNat + 2
  | .flush => 4 * s.erem.toNat + 1
  | .search => 4 * s.erem.toNat
  | .lit | .ref => 4 * s.erem.toNat - 1
  | .final => 1
  | .idle | .hdr0 | .hdr1 | .done | .fault => 0

/-- One step of an encode past its header: it goes on, or ends, and uses up some of the budget. -/
def EncodeAdvances (b s t : State) : Prop :=
  (∃ items, State.Encoding b t items ∨ State.Encoded b t items) ∧ t.encodeBudget < s.encodeBudget

namespace State.Encoding

/-- E_LOOP tests the end, then the full group (R283). -/
theorem encLoop (h : State.Encoding b s items) (hs : s.estate = .loop) :
    ∃ t, Machine.encLoop s = .next t ∧ EncodeAdvances b s t := by
  have hbudget : s.encodeBudget = 4 * s.erem.toNat + 2 := by simp only [encodeBudget, hs]
  rw [Machine.encLoop]
  by_cases hr : s.erem = 0
  · rw [if_pos hr]
    exact ⟨_, rfl, ⟨items, .inl ⟨{ h.written with }, hr⟩⟩, by change 1 < s.encodeBudget; omega⟩
  · by_cases hc : s.ecnt = 8
    · rw [if_neg hr, if_pos hc]
      exact ⟨_, rfl, ⟨items, .inl ⟨{ h.written with }, hc, hr⟩⟩,
        by change 4 * s.erem.toNat + 1 < s.encodeBudget; omega⟩
    · have hroom : s.ecnt.toNat < 8 := Nat.lt_of_le_of_ne h.written.ecnt fun he => hc (BitVec.eq_of_toNat_eq he)
      rw [if_neg hr, if_neg hc]
      exact ⟨_, rfl, ⟨items, .inl ⟨{ h.written with }, hroom, hr⟩⟩, by change 4 * s.erem.toNat < s.encodeBudget; omega⟩

/-- E_FLUSH emits the full group (R284). -/
theorem encFlush (h : State.Encoding b s items) (hs : s.estate = .flush) :
    ∃ t, Machine.encFlush s = .next t ∧ EncodeAdvances b s t := by
  have hbudget : s.encodeBudget = 4 * s.erem.toNat + 1 := by simp only [encodeBudget, hs]
  obtain ⟨hc, hr⟩ : s.ecnt = 8 ∧ s.erem ≠ 0 := by simpa only [EncodePhase, hs] using h.phase
  have htok : s.toklen.toNat ≤ 16 := h.written.buffer.trans (Nat.mul_le_mul_left 2 h.written.ecnt)
  exact ⟨_, encFlush_eq htok, ⟨items, .inl ⟨h.written.flush hc, (by decide : (0#4).toNat < 8), hr⟩⟩,
    by change 4 * s.erem.toNat < s.encodeBudget; omega⟩

/-- E_SEARCH latches a candidate that replays the input, or goes on to a Literal (R285). -/
theorem encSearch (h : State.Encoding b s items) (hs : s.estate = .search) :
    ∃ t, Machine.encSearch s = .next t ∧ EncodeAdvances b s t := by
  have hbudget : s.encodeBudget = 4 * s.erem.toNat := by simp only [encodeBudget, hs]
  obtain ⟨hroom, hr⟩ : s.ecnt.toNat < 8 ∧ s.erem ≠ 0 := by simpa only [EncodePhase, hs] using h.phase
  have hpos : 1 ≤ s.erem.toNat := Nat.one_le_iff_ne_zero.2 fun he => hr (BitVec.eq_of_toNat_eq he)
  have hlt : 4 * s.erem.toNat - 1 < s.encodeBudget := by omega
  cases hf : s.searchResult with
  | none => exact ⟨_, encSearch_none hf, ⟨items, .inl ⟨{ h.written with }, hroom, hr⟩⟩, hlt⟩
  | some c =>
    obtain ⟨h3, hcap, hin⟩ := State.searchResult_bounds hf
    have h18 := hcap.trans (Params.maxMatch_le h.written.params)
    have hm : (BitVec.ofNat 5 c.m).toNat = c.m := by
      rw [BitVec.toNat_ofNat]
      omega
    have hmatch := State.replayed_of_searchResult h.written.window h.written.params hf
    rw [← hm] at hmatch
    refine ⟨_, encSearch_some hf, ⟨items, .inl ⟨{ h.written with }, hroom, hm.symm ▸ h3, hm.symm ▸ h18, hm.symm ▸ hin,
      (State.replayed_congr (t := s) ?_ ?_ _ _).trans hmatch⟩⟩, hlt⟩ <;> rfl

/-- A token written takes the encoder back to E_LOOP with less input left. -/
theorem writeItem_advances (h : State.Written b s items) {x : ListItem} {tag : BitVec 1} (hx : x.IsToken)
    (htag : x.tag = some (tag.getLsbD 0)) (hroom : s.ecnt.toNat < 8) (hleft : x.produces ≤ s.erem.toNat)
    (hbytes : s.itemBytes x = (s.inp.drop s.epos.toNat).take x.produces)
    (hbudget : s.encodeBudget = 4 * s.erem.toNat - 1) : EncodeAdvances b s (s.writeItem tag x) := by
  have hpos := hx.bytes_length
  have hwritten := h.writeItem hx htag hroom hleft hbytes
  have herem : (s.erem - BitVec.ofNat 16 x.produces).toNat = s.erem.toNat - x.produces := by bv_omega
  have hafter : (s.writeItem tag x).encodeBudget = 4 * (s.erem - BitVec.ofNat 16 x.produces).toNat + 2 := by
    rw [State.writeItem_eq]
    rfl
  exact ⟨⟨_, .inl ⟨hwritten, by rw [State.writeItem_eq]; trivial⟩⟩, by omega⟩

/-- E_LIT writes the input byte at the position (R286). -/
theorem encLit (h : State.Encoding b s items) (hs : s.estate = .lit) :
    ∃ t, Machine.encLit s = .next t ∧ EncodeAdvances b s t := by
  obtain ⟨hroom, hr⟩ : s.ecnt.toNat < 8 ∧ s.erem ≠ 0 := by simpa only [EncodePhase, hs] using h.phase
  have hleft : 1 ≤ s.erem.toNat := Nat.one_le_iff_ne_zero.2 fun he => hr (BitVec.eq_of_toNat_eq he)
  have hpos := h.written.position
  have hbuf := h.written.buffer
  have hin : s.epos.toNat < s.inp.length := by omega
  refine ⟨_, encLit_writeItem (State.input_eq_some.2 ⟨hin, rfl⟩) (by omega),
    writeItem_advances h.written ⟨rfl, rfl⟩ rfl hroom hleft ?_ (by simp only [encodeBudget, hs])⟩
  rw [List.drop_eq_getElem_cons hin]
  rfl

/-- E_REF writes the latched candidate (R287). -/
theorem encRef (h : State.Encoding b s items) (hs : s.estate = .ref) :
    ∃ t, Machine.encRef s = .next t ∧ EncodeAdvances b s t := by
  obtain ⟨hroom, h3, h18, hin, hmatch⟩ : s.ecnt.toNat < 8 ∧ 3 ≤ s.candM.toNat ∧ s.candM.toNat ≤ 18 ∧
      s.epos.toNat + s.candM.toNat ≤ s.inp.length ∧
      s.replayed s.candS s.candM.toNat = (s.inp.drop s.epos.toNat).take s.candM.toNat := by
    simpa only [EncodePhase, hs] using h.phase
  have hpos := h.written.position
  have hbuf := h.written.buffer
  have hvalid : (ListItem.ref s.candS s.candM.toNat).valid = true := by simp [ListItem.valid, h3, h18]
  exact ⟨_, encRef_writeItem hin (by omega) h3 h18 hmatch,
    writeItem_advances h.written ⟨rfl, hvalid⟩ rfl hroom (by change s.candM.toNat ≤ _; omega) hmatch
      (by simp only [encodeBudget, hs])⟩

/-- E_FINAL emits a last group, where there is one, and ends the encode (R288). -/
theorem encFinal (h : State.Encoding b s items) (hs : s.estate = .final) :
    ∃ t, Machine.encFinal s = .next t ∧ EncodeAdvances b s t := by
  have hbudget : s.encodeBudget = 1 := by simp only [encodeBudget, hs]
  have hr : s.erem = 0 := by simpa only [EncodePhase, hs] using h.phase
  have hall : b.decodedBytes items = b.inp := by
    have hpos := h.written.position
    rw [h.written.covers, List.take_of_length_le, h.written.inp]
    rw [← hpos, hr]
    exact Nat.le_refl _
  have hsent := h.written.sent []
  rw [List.append_nil, State.unsent_nil] at hsent
  have htok : s.toklen.toNat ≤ 16 := h.written.buffer.trans (Nat.mul_le_mul_left 2 h.written.ecnt)
  have hlt : 0 < s.encodeBudget := by omega
  by_cases hc : s.ecnt = 0
  · rw [if_pos hc, List.append_nil] at hsent
    exact ⟨_, encFinal_empty hc, ⟨items, .inr ⟨h.written.quiet, rfl, h.written.inp, h.written.tokens, hall, hsent.symm⟩⟩,
      hlt⟩
  · rw [if_neg hc] at hsent
    exact ⟨_, encFinal_eq hc htok, ⟨items, .inr ⟨h.written.quiet, rfl, h.written.inp, h.written.tokens, hall, hsent.symm⟩⟩,
      hlt⟩

/-- A step of an encode past its header is one rule of the encoder (R283 to R288). -/
theorem step (h : State.Encoding b s items) : ∃ t, Machine.step s = .next t ∧ EncodeAdvances b s t := by
  have hblock : s.estate.busy = true → Machine.step s = encoderStep s := step_encoder h.written.quiet h.written.otherIdle
  have hphase := h.phase
  cases hs : s.estate with
  | idle | hdr0 | hdr1 | done | fault => simp only [EncodePhase, hs] at hphase
  | loop => simpa only [hblock (by rw [hs]; rfl), encoderStep, hs] using h.encLoop hs
  | flush => simpa only [hblock (by rw [hs]; rfl), encoderStep, hs] using h.encFlush hs
  | search => simpa only [hblock (by rw [hs]; rfl), encoderStep, hs] using h.encSearch hs
  | lit => simpa only [hblock (by rw [hs]; rfl), encoderStep, hs] using h.encLit hs
  | ref => simpa only [hblock (by rw [hs]; rfl), encoderStep, hs] using h.encRef hs
  | final => simpa only [hblock (by rw [hs]; rfl), encoderStep, hs] using h.encFinal hs

/-- An encode past its header ends within its budget (R295). -/
theorem run_ends (h : State.Encoding b s items) :
    ∃ k u items, run k s = .next u ∧ k ≤ s.encodeBudget ∧ State.Encoded b u items := by
  have hadvance (t : State) (ht : ∃ items, State.Encoding b t items ∨ State.Encoded b t items) :
      (∃ items, State.Encoded b t items) ∨ ∃ u, Machine.step t = .next u ∧
        (∃ items, State.Encoding b u items ∨ State.Encoded b u items) ∧ u.encodeBudget < t.encodeBudget := by
    obtain ⟨items, hrunning | hended⟩ := ht
    · exact .inr hrunning.step
    · exact .inl ⟨items, hended⟩
  obtain ⟨k, u, hrun, hk, -, items, hended⟩ := run_ends_within hadvance ⟨items, .inl h⟩
  exact ⟨k, u, items, hrun, hk, hended⟩

end State.Encoding

/-! A whole encode. -/

/-- An encode that has written no token yet (R280, R362). -/
structure State.Unwritten (s : State) : Prop where
  quiet : s.quiet
  otherIdle : s.dstate.busy = false
  params : s.params.legal = true
  length : s.inp.length ≤ 65535
  window : s.win.wf
  epos : s.epos = 0
  erem : s.erem.toNat = s.inp.length
  ecnt : s.ecnt = 0
  etag : s.etag = 0
  toklen : s.toklen = 0

namespace State.Unwritten

theorem written (h : s.Unwritten) : State.Written s s [] where
  quiet := h.quiet
  otherIdle := h.otherIdle
  params := h.params
  inp := rfl
  length := h.length
  window := h.window
  tokens := nofun
  covers := by rw [h.epos]; rfl
  win := rfl
  cur := rfl
  position := by rw [h.epos, h.erem]; exact Nat.zero_add _
  ecnt := h.ecnt ▸ Nat.zero_le _
  etag := by rw [h.etag]; exact BitVec.zero_shiftLeft _
  buffer := h.toklen ▸ Nat.zero_le _
  sent rest := by simp [State.unsent, State.controlByte, State.buffered, h.ecnt, h.etag, h.toklen]

/-- The header's two steps lead to the first loop head, with nothing written yet (R281, R282). -/
theorem run_header (h : s.Unwritten) (hs : s.estate = .hdr0) (hn : s.hdrN = BitVec.ofNat 16 s.inp.length) :
    ∃ b, run 2 s = .next b ∧ State.Encoding b b [] ∧ b.encodeBudget = 4 * s.inp.length + 2 ∧ b.inp = s.inp ∧
      b.win = s.win ∧ b.cur = s.cur ∧ b.out = s.out ++ (ListItem.hdr (BitVec.ofNat 16 s.inp.length)).bytes := by
  have hhigh : Machine.step s = .next { s with out := s.out ++ [s.hdrN.extractLsb' 8 8], estate := .hdr1 } := by
    rw [step_encoder h.quiet h.otherIdle (by rw [hs]; rfl), encoderStep, hs]
    rfl
  have hlow : Machine.step { s with out := s.out ++ [s.hdrN.extractLsb' 8 8], estate := .hdr1 } =
      .next { s with out := s.out ++ [s.hdrN.extractLsb' 8 8] ++ [s.hdrN.extractLsb' 0 8], estate := .loop } :=
    step_encoder h.quiet h.otherIdle rfl
  refine ⟨_, (run_add (run_one hhigh) 1).trans (run_one hlow), ⟨State.Unwritten.written { h with }, trivial⟩,
    ?_, rfl, rfl, rfl, ?_⟩
  · rw [← h.erem]
    rfl
  · rw [List.append_assoc, hn]
    rfl

/-- An encode ends within the bound of R295; its output is the header and the grouped form of tokens that stand for the input
(R281 to R288, R292). -/
theorem run_ends (h : s.Unwritten) (hs : s.estate = .hdr0) (hn : s.hdrN = BitVec.ofNat 16 s.inp.length) :
    ∃ k u items, run k s = .next u ∧ k ≤ 2 + (4 * s.inp.length + 2) ∧ u.quiet ∧ u.estate = .done ∧
      (∀ x ∈ items, x.IsToken) ∧ s.decodedBytes items = s.inp ∧
      u.out = s.out ++ ((ListItem.hdr (BitVec.ofNat 16 s.inp.length)).bytes ++ groupedBytes 0 0 [] items) := by
  obtain ⟨b, hheader, hb, hbudget, hinp, hwin, hcur, hout⟩ := h.run_header hs hn
  obtain ⟨k, u, items, hrun, hk, hended⟩ := hb.run_ends
  refine ⟨2 + k, u, items, (run_add hheader k).trans hrun, by omega, hended.quiet, hended.estate, hended.tokens, ?_, ?_⟩
  · rw [← State.decodedBytes_congr hwin hcur, hended.covers, hinp]
  · rw [hended.out, hout, List.append_assoc]

end State.Unwritten

end Sys2Proof.Machine

section

open Sys2Proof Sys2Proof.Machine

/-- Settles O55: the encoder's output is the grouped form of tokens that stand for the input, and the decoder delivers what the
tokens of a stream stand for. -/
theorem decodingAnEncodeYieldsTheInput : Obligations.DecodingAnEncodeYieldsTheInput := by
  unfold Obligations.DecodingAnEncodeYieldsTheInput
  intro s hq hpar hlen
  have hn : (BitVec.ofNat 16 s.inp.length).toNat = s.inp.length := by
    rw [BitVec.toNat_ofNat]
    omega
  obtain ⟨t, hstart, ht, hest, hhdr, hinp, hout, hwin, hcur⟩ : ∃ t, exec .encStart s = .next t ∧ t.Unwritten ∧
      t.estate = .hdr0 ∧ t.hdrN = BitVec.ofNat 16 t.inp.length ∧ t.inp = s.inp ∧ t.out = s.out ∧
      t.win = [] ∧ t.cur = Config.initCursor :=
    ⟨_, execEncStart_eq hlen, ⟨hq, rfl, hpar, hlen, Memory.wf_nil, rfl, hn, rfl, rfl, rfl⟩, rfl, rfl, rfl, rfl, rfl, rfl⟩
  obtain ⟨k, u, items, hrun, -, huq, hdone, htokens, hcovers, huout⟩ := ht.run_ends hest hhdr
  rw [hinp] at hcovers huout
  refine ⟨t, k, u, _, hstart, hrun, hdone, hout ▸ huout, ?_⟩
  generalize hcode : (ListItem.hdr (BitVec.ofNat 16 s.inp.length)).bytes ++ groupedBytes 0 0 [] items = code
  have hdecoded : State.decodedBytes (State.initWindow { u with inp := code }) items = s.inp :=
    (State.decodedBytes_congr hwin.symm hcur.symm items).trans hcovers
  obtain ⟨t', v, hdec, ⟨k', hrun'⟩, hvdone, hvout, hvptr⟩ := exec_decStart_reaches_done (s := { u with inp := code }) htokens
    (hn.trans (congrArg List.length hdecoded).symm) huq hcode.symm
  exact ⟨t', k', v, hdec, hrun', hvdone, hdecoded ▸ hvout, hvptr⟩

end

/-! SUPPORT. The match finder (`spec/43_match_finder.md`): the scan's candidates, and the element that a policy selects. -/

namespace Sys2Proof.Machine

variable {s : State}

/-! The candidates (R240, R246). -/

theorem State.candidateAt_d {p d : Nat} {c : Candidate} (h : s.candidateAt p d = some c) : c.d = d := by
  unfold State.candidateAt at h
  dsimp only at h
  split at h
  · split at h
    · cases h
      rfl
    · cases h
  · cases h

/-- The candidates stand in the order of the scan (R245, R246). -/
theorem State.cands_distances_sublist (s : State) (p : Nat) :
    ((s.cands p).map Candidate.d).Sublist (scanDistances s.params.scan) := by
  unfold State.cands
  induction scanDistances s.params.scan with
  | nil => exact .slnil
  | cons d ds ih =>
    cases hc : s.candidateAt p d with
    | none =>
      rw [List.filterMap_cons_none hc]
      exact ih.cons d
    | some c =>
      rw [List.filterMap_cons_some hc, List.map_cons, State.candidateAt_d hc]
      exact ih.cons_cons d

/-- A legal scan visits distances 1 to 4096 (R240). -/
theorem scanDistances_range {q : Params} (hq : q.legal = true) {d : Nat} (hd : d ∈ scanDistances q.scan) :
    1 ≤ d ∧ d ≤ 4096 := by
  unfold Params.legal at hq
  obtain ⟨-, hscan⟩ := Bool.and_eq_true_iff.1 hq
  cases hs : q.scan with
  | nearestFirst =>
    rw [hs] at hd
    have := List.mem_range'_1.1 hd
    simp only [Config.winSize] at this
    omega
  | listed ds =>
    rw [hs] at hd hscan
    simpa using List.all_eq_true.1 hscan d hd

/-- A candidate by its three numbers: a scanned distance, its slot, which holds the next input byte, and its probe, which
reaches 3 bytes (R240, R246). -/
theorem State.mem_cands_iff {p : Nat} {c : Candidate} :
    c ∈ s.cands p ↔ c.d ∈ scanDistances s.params.scan ∧ c.s = s.slotAtDistance c.d ∧ s.slot c.s = s.inputAt p ∧
      c.m = s.probe c.s p ∧ Config.minMatch ≤ c.m := by
  rw [State.mem_cands]
  constructor
  · rintro ⟨d, hd, rfl, hslot, hmin⟩
    exact ⟨hd, rfl, hslot, rfl, hmin⟩
  · rintro ⟨hd, hs, hslot, hm, hmin⟩
    rw [hs] at hslot hm
    rw [hm] at hmin
    exact ⟨c.d, hd, by rw [← hm, ← hs], hslot, hmin⟩

/-! The policies of R255. -/

/-- The first element of the least key: its index, and that no element before it has the same key. -/
theorem firstBest_index {α : Type} (key : α → Nat) (best : α) (l : List α) :
    ∃ j : Nat, (best :: l)[j]? = some (firstBest (fun a b => decide (key a < key b)) best l) ∧
      ∀ (k : Nat) (x : α), (best :: l)[k]? = some x →
        key (firstBest (fun a b => decide (key a < key b)) best l) ≤ key x ∧
        (key (firstBest (fun a b => decide (key a < key b)) best l) = key x → j ≤ k) := by
  induction l generalizing best with
  | nil =>
    refine ⟨0, rfl, fun k x hk => ?_⟩
    cases k with
    | zero =>
      cases hk
      exact ⟨Nat.le_refl _, fun _ => Nat.le_refl _⟩
    | succ k => simp at hk
  | cons y rest ih =>
    rw [firstBest]
    by_cases hy : key y < key best
    · rw [if_pos (decide_eq_true hy)]
      obtain ⟨j, hj, hleast⟩ := ih y
      refine ⟨j + 1, hj, fun k x hk => ?_⟩
      cases k with
      | zero =>
        cases hk
        have := (hleast 0 y rfl).1
        omega
      | succ k =>
        obtain ⟨hle, hfirst⟩ := hleast k x hk
        exact ⟨hle, fun he => Nat.succ_le_succ (hfirst he)⟩
    · rw [if_neg (by simpa using hy)]
      obtain ⟨j, hj, hleast⟩ := ih best
      obtain ⟨hbest, hzero⟩ := hleast 0 best rfl
      refine ⟨if j = 0 then 0 else j + 1, ?_, fun k x hk => ?_⟩
      · cases j with
        | zero => exact hj
        | succ j => exact hj
      · match k, hk with
        | 0, hk =>
          cases hk
          exact ⟨hbest, fun he => by simp [Nat.le_zero.1 (hzero he)]⟩
        | 1, hk =>
          cases hk
          exact ⟨by omega, fun he => by simp [Nat.le_zero.1 (hzero (by omega))]⟩
        | k + 2, hk =>
          obtain ⟨hle, hfirst⟩ := hleast (k + 1) x hk
          refine ⟨hle, fun he => ?_⟩
          have := hfirst he
          split <;> omega

/-- LONGEST: nothing has a greater `m`, and nothing of the same `m` a smaller `d` (R255). -/
theorem selectLongest_extreme {C : List Candidate} {c : Candidate} (h : selectLongest C = some c) {x : Candidate}
    (hx : x ∈ C) : x.m < c.m ∨ x.m = c.m ∧ c.d ≤ x.d := by
  cases C with
  | nil => cases h
  | cons y rest =>
    cases h
    have hleast := firstBest_least
      (fun a b : Candidate => decide (b.m < a.m) || (decide (a.m = b.m) && decide (a.d < b.d)))
      (fun a => by simp) (fun a b h => by grind) (fun a b d h h' => by grind) y rest x hx
    simp only [Bool.or_eq_false_iff, Bool.and_eq_false_iff, decide_eq_false_iff_not] at hleast
    omega

/-- NEAREST: nothing has a smaller `d` (R255). -/
theorem selectNearest_extreme {C : List Candidate} {c : Candidate} (h : selectNearest C = some c) {x : Candidate}
    (hx : x ∈ C) : c.d ≤ x.d := by
  cases C with
  | nil => cases h
  | cons y rest =>
    cases h
    obtain ⟨k, hk⟩ := List.mem_iff_getElem?.1 hx
    obtain ⟨_, _, hleast⟩ := firstBest_index Candidate.d y rest
    exact (hleast k x hk).1

/-! RANKSUM (R254). -/

/-- In a list in strict order an element's index is the number of elements below it. -/
theorem idxOf_eq_countP {lt : Nat → Nat → Bool} (hasymm : ∀ a b, lt a b = true → lt b a = false) {l : List Nat}
    (hl : l.Pairwise fun a b => lt a b = true) {j : Nat} (hj : j ∈ l) : l.idxOf j = l.countP (fun i => lt i j) := by
  induction l with
  | nil => cases hj
  | cons a l ih =>
    obtain ⟨ha, hl⟩ := List.pairwise_cons.1 hl
    by_cases haj : a = j
    · subst haj
      have hnone : (a :: l).countP (fun i => lt i a) = 0 := by
        refine List.countP_eq_zero.2 fun i hi hlt => ?_
        rcases List.mem_cons.1 hi with rfl | hi
        · exact absurd hlt (by simp [hasymm i i hlt])
        · exact absurd hlt (by simp [hasymm a i (ha i hi)])
      rw [hnone, List.idxOf_cons_self]
    · have hjl : j ∈ l := (List.mem_cons.1 hj).resolve_left (Ne.symm haj)
      rw [List.idxOf_cons_ne l haj, ih hl hjl, List.countP_cons_of_pos (p := fun i => lt i j) (ha j hjl)]

/-- The order of the stable sort by `m` (R254): index `a` stands before index `b`. -/
def standsBefore (ms : List Nat) (a b : Nat) : Bool :=
  decide (ms.getD a 0 < ms.getD b 0 ∨ ms.getD a 0 = ms.getD b 0 ∧ a < b)

theorem standsBefore_asymm (ms : List Nat) (a b : Nat) (h : standsBefore ms a b = true) : standsBefore ms b a = false := by
  simp only [standsBefore, decide_eq_true_eq, decide_eq_false_iff_not] at h ⊢
  omega

/-- The indices of the smaller values, and of the equal ones below `j`, counted by value. -/
theorem countP_range_below (ms : List Nat) (m j : Nat) :
    (List.range ms.length).countP (fun i => decide (ms.getD i 0 < m ∨ ms.getD i 0 = m ∧ i < j)) =
      ms.countP (fun x => decide (x < m)) + (ms.take j).countP (fun x => decide (x = m)) := by
  induction ms generalizing j with
  | nil => rw [List.take_nil]; rfl
  | cons x ms ih =>
    rw [List.length_cons, List.range_succ_eq_map, List.countP_cons, List.countP_map, List.countP_cons]
    have htail : (List.range ms.length).countP
        ((fun i => decide ((x :: ms).getD i 0 < m ∨ (x :: ms).getD i 0 = m ∧ i < j)) ∘ Nat.succ) =
        ms.countP (fun x => decide (x < m)) + (ms.take (j - 1)).countP (fun x => decide (x = m)) := by
      rw [← ih]
      refine congrArg (fun p => List.countP p _) (funext fun i => decide_eq_decide.2 ?_)
      rw [List.getD_cons_succ, show i.succ < j ↔ i < j - 1 by omega]
    rw [htail, List.getD_cons_zero]
    cases j with
    | zero => simp
    | succ j =>
      rw [List.take_succ_cons, List.countP_cons, Nat.add_sub_cancel]
      by_cases hlt : x < m
      · simp [hlt, Nat.ne_of_lt hlt]
        omega
      · by_cases heq : x = m
        · simp [heq]
          omega
        · simp [hlt, heq]

/-- In any stable sort of the indices by `m` a candidate stands at its length rank (R254). -/
theorem idxOf_eq_lengthRank {C : List Candidate} {order : List Nat} (hperm : order.Perm (List.range C.length))
    (hsorted : order.Pairwise fun a b => standsBefore (C.map Candidate.m) a b = true) {j : Nat} {c : Candidate}
    (hj : C[j]? = some c) : order.idxOf j = lengthRank C j c := by
  obtain ⟨hlt, -⟩ := List.getElem?_eq_some_iff.1 hj
  have hm : (C.map Candidate.m).getD j 0 = c.m := by
    rw [List.getD_eq_getElem?_getD, List.getElem?_map, hj]
    rfl
  have hcount := countP_range_below (C.map Candidate.m) c.m j
  rw [List.length_map, List.countP_map, ← List.map_take, List.countP_map] at hcount
  rw [idxOf_eq_countP (standsBefore_asymm _) hsorted (hperm.mem_iff.2 (List.mem_range.2 hlt)), hperm.countP_eq]
  unfold standsBefore
  rw [hm]
  exact hcount

/-- RANKSUM's answer: its index, and that its rank sum is the least, at the least index (R254). -/
theorem selectRankSum_index {C : List Candidate} (hC : C ≠ []) :
    ∃ j c, C[j]? = some c ∧ selectRankSum C = some c ∧ ∀ k x, C[k]? = some x →
      lengthRank C j c + j ≤ lengthRank C k x + k ∧ (lengthRank C j c + j = lengthRank C k x + k → j ≤ k) := by
  cases hr : rankSums C with
  | nil => exact absurd (List.length_eq_zero_iff.1 ((rankSums_length C).symm.trans (congrArg List.length hr))) hC
  | cons y rest =>
    obtain ⟨j, hj, hleast⟩ := firstBest_index (fun a : Candidate × Nat => a.2) y rest
    rw [← hr, rankSums_getElem?] at hj
    obtain ⟨c, hc, he⟩ := Option.map_eq_some_iff.1 hj
    rw [← he, ← hr] at hleast
    refine ⟨j, c, hc, ?_, fun k x hk => hleast k (x, lengthRank C k x + k) ?_⟩
    · rw [selectRankSum, hr]
      exact congrArg (fun a => some a.1) he.symm
    · rw [rankSums_getElem?, hk]
      rfl

end Sys2Proof.Machine

section

open Sys2Proof Sys2Proof.Machine

/-- Settles O24: the laws of the simulated window, and its definition. -/
theorem simulatedWindowIsTheGrownWindow : Obligations.SimulatedWindowIsTheGrownWindow := by
  unfold Obligations.SimulatedWindowIsTheGrownWindow
  exact fun s p k j hwf hk hp => ⟨State.simwin_eq hwf hp hk j, rfl⟩

/-- Settles O25: what the probe counted, and why it stopped, read in the grown window. -/
theorem mfProbeReturnsTheMatchedCount : Obligations.MfProbeReturnsTheMatchedCount := by
  unfold Obligations.MfProbeReturnsTheMatchedCount
  intro s y start hwf hpar
  have hcap := s.probe_le start s.epos.toNat
  have h18 := Params.maxMatch_le hpar
  have hgrown {k : Nat} (hk : k ≤ s.params.maxMatch) (hin : s.epos.toNat + k ≤ s.inp.length) (j : Slot) :
      s.simwin s.epos.toNat j k = (s.appendAll ((s.inp.drop s.epos.toNat).take k)).slot j :=
    State.simwin_eq hwf hin (by simp only [Config.winSize]; omega) j
  refine ⟨decode_mfProbe y start, s.probe start s.epos.toNat, rfl, hcap, fun hend => ?_, fun k hk => ?_, ?_⟩
  · rcases s.probe_in_input start s.epos.toNat with h0 | h0
    · exact h0
    · omega
  · obtain ⟨hin, hmatch⟩ := s.probe_matches start s.epos.toNat hk
    exact ⟨hin, (hgrown (by omega) (Nat.le_of_lt hin) _).symm.trans hmatch⟩
  · rcases Nat.lt_or_ge (s.epos.toNat + s.probe start s.epos.toNat) s.inp.length with hin | hin
    · rw [← hgrown hcap (Nat.le_of_lt hin)]
      exact s.probe_stops start s.epos.toNat
    · exact .inr (.inl hin)

/-- Settles O26: a candidate by its three numbers, the order of the scan, and the ranges. -/
theorem candidatesAreTheLongEnoughMatches : Obligations.CandidatesAreTheLongEnoughMatches := by
  unfold Obligations.CandidatesAreTheLongEnoughMatches
  refine ⟨rfl, fun s p hpar => ⟨s.cands_distances_sublist p, fun c => State.mem_cands_iff, fun c hc => ?_⟩⟩
  obtain ⟨hlow, hhigh⟩ := scanDistances_range hpar (State.mem_cands_iff.1 hc).1
  obtain ⟨-, -, hcap, hin⟩ := State.cands_bounds hc
  exact ⟨hlow, hhigh, hcap, hin⟩

/-- Settles O27: when the search finds nothing, and what it selects otherwise. -/
theorem mfFindReturnsTheSelected : Obligations.MfFindReturnsTheSelected := by
  unfold Obligations.MfFindReturnsTheSelected
  refine fun s x hpar => ⟨decode_mfFind x, fun hnone => ?_, fun hin hC => ?_⟩
  · rw [exec, execMfFind, State.find_eq_none.2 hnone]
    rfl
  · obtain ⟨c, hsel⟩ := Option.isSome_iff_exists.1 (select_isSome s.params.select hC)
    obtain ⟨-, -, hcap, -⟩ := State.cands_bounds (select_mem hsel)
    have h18 := Params.maxMatch_le hpar
    refine ⟨c, select_mem hsel, hsel, ?_, ?_⟩
    · rw [exec, execMfFind, State.find_eq, if_pos hin, hsel]
      rfl
    · rw [BitVec.toNat_ofNat]
      omega

/-- Settles O28: a policy answers, with a member; the two policies of R255 with the extreme one. -/
theorem selectionAnswersAMember : Obligations.SelectionAnswersAMember := by
  unfold Obligations.SelectionAnswersAMember
  refine ⟨rfl, fun C hC => ⟨fun policy => ?_, fun c h x hx => selectLongest_extreme h hx,
    fun c h x hx => selectNearest_extreme h hx⟩⟩
  obtain ⟨c, hc⟩ := Option.isSome_iff_exists.1 (select_isSome policy hC)
  exact ⟨c, select_mem hc, hc⟩

/-- Settles O29: the length ranks are the positions in the stable sort, and RANKSUM answers the least sum. -/
theorem rankSumPicksTheLeastRank : Obligations.RankSumPicksTheLeastRank := by
  unfold Obligations.RankSumPicksTheLeastRank
  intro C order hC hperm hsorted
  have hrank {k : Nat} {x : Candidate} (hk : C[k]? = some x) : order.idxOf k = lengthRank C k x :=
    idxOf_eq_lengthRank hperm (hsorted.imp fun hab => decide_eq_true hab) hk
  obtain ⟨j, c, hj, hsel, hleast⟩ := selectRankSum_index hC
  obtain ⟨hlt, -⟩ := List.getElem?_eq_some_iff.1 hj
  refine ⟨j, hlt, hsel.trans hj.symm, fun k hk => ?_⟩
  rw [hrank hj, hrank (List.getElem?_eq_getElem hk)]
  exact hleast k C[k] (List.getElem?_eq_getElem hk)

/-- Settles O23: the count law, with the slots by their numbers. -/
theorem mfCountCountsAllSlots : Obligations.MfCountCountsAllSlots := by
  unfold Obligations.MfCountCountsAllSlots
  intro s x b
  have hcount : (List.range 4096).countP (fun j => s.slot (BitVec.ofNat 12 j) == b) = s.count b := by
    rw [State.count_eq]
    refine List.countP_congr fun j hj => ?_
    rw [State.slot, BitVec.toNat_ofNat, Nat.mod_eq_of_lt (List.mem_range.1 hj), beq_iff_eq, decide_eq_true_eq]
  rw [hcount]
  exact ⟨decode_mfCount x b, rfl, s.count_le b⟩

/-- Settles O30: the decode of the word, and the one field written. -/
theorem mfSetposWritesEpos : Obligations.MfSetposWritesEpos := by
  unfold Obligations.MfSetposWritesEpos
  exact fun s p => ⟨decode_mfSetpos p, rfl⟩

end

/-! SUPPORT. The encoder by its states (`spec/44_encoder.md`): the block step of each. -/

namespace Sys2Proof.Machine

variable {s : State}

/-! One equation per state of the encoder (R281 to R288). -/

theorem blockStep_encHdr0 (hd : s.dstate.busy = false) (hs : s.estate = .hdr0) : blockStep s = encHdr0 s := by
  rw [blockStep_encoder hd (by rw [hs]; rfl), encoderStep, hs]

theorem blockStep_encHdr1 (hd : s.dstate.busy = false) (hs : s.estate = .hdr1) : blockStep s = encHdr1 s := by
  rw [blockStep_encoder hd (by rw [hs]; rfl), encoderStep, hs]

theorem blockStep_encLoop (hd : s.dstate.busy = false) (hs : s.estate = .loop) : blockStep s = encLoop s := by
  rw [blockStep_encoder hd (by rw [hs]; rfl), encoderStep, hs]

theorem blockStep_encFlush (hd : s.dstate.busy = false) (hs : s.estate = .flush) : blockStep s = encFlush s := by
  rw [blockStep_encoder hd (by rw [hs]; rfl), encoderStep, hs]

theorem blockStep_encSearch (hd : s.dstate.busy = false) (hs : s.estate = .search) : blockStep s = encSearch s := by
  rw [blockStep_encoder hd (by rw [hs]; rfl), encoderStep, hs]

theorem blockStep_encLit (hd : s.dstate.busy = false) (hs : s.estate = .lit) : blockStep s = encLit s := by
  rw [blockStep_encoder hd (by rw [hs]; rfl), encoderStep, hs]

theorem blockStep_encRef (hd : s.dstate.busy = false) (hs : s.estate = .ref) : blockStep s = encRef s := by
  rw [blockStep_encoder hd (by rw [hs]; rfl), encoderStep, hs]

theorem blockStep_encFinal (hd : s.dstate.busy = false) (hs : s.estate = .final) : blockStep s = encFinal s := by
  rw [blockStep_encoder hd (by rw [hs]; rfl), encoderStep, hs]

/-- Two bytes written at the end of the held part of the buffer extend it (R32, R287). -/
theorem take_setIfInBounds_two (v : Vector Byte 16) {n : Nat} (b0 b1 : Byte) (h : n + 2 ≤ 16) :
    ((v.setIfInBounds n b0).setIfInBounds (n + 1) b1).toList.take (n + 2) = v.toList.take n ++ [b0, b1] := by
  rw [take_setIfInBounds _ b1 (show n + 1 < 16 by omega), take_setIfInBounds v b0 (by omega), List.append_assoc]
  rfl

/-- The nibble of a matched count is the low half of `cand_m - 3` (R287). -/
theorem matchNibble_eq (m : BitVec 5) : matchNibble m = (m - 3).extractLsb' 0 4 := by
  revert m
  decide

/-- The search answers nothing in the warm-up gap, at the end of `IN` and without a candidate (R285, R291). -/
theorem State.searchResult_eq_none (h : s.groups = 0 ∨ s.inp.length ≤ s.epos.toNat ∨ s.cands s.epos.toNat = []) :
    s.searchResult = none := by
  rw [State.searchResult_eq]
  split
  · next hsearch =>
    obtain ⟨hgroups, hin⟩ := hsearch
    rcases h with h | h | h
    · exact absurd h hgroups
    · exact absurd hin (Nat.not_lt.2 h)
    · rw [h, select_nil]
  · rfl

end Sys2Proof.Machine

section

open Sys2Proof Sys2Proof.Machine

/-- Settles O47: the decode of the word, and ENC.START field by field for either length of `IN`. -/
theorem encStartBeginsAnEncode : Obligations.EncStartBeginsAnEncode := by
  unfold Obligations.EncStartBeginsAnEncode
  refine fun s x => ⟨decode_encStart x, execEncStart_long, fun hlen => ?_⟩
  have hn : (BitVec.ofNat 16 s.inp.length).toNat = s.inp.length := by
    rw [BitVec.toNat_ofNat]
    omega
  exact ⟨_, execEncStart_eq hlen, fun i => rfl, rfl, rfl, hn, hn, rfl⟩

/-- Settles O48: the three states before the search. -/
theorem encoderHeaderAndLoop : Obligations.EncoderHeaderAndLoop := by
  unfold Obligations.EncoderHeaderAndLoop
  exact fun s hd => ⟨blockStep_encHdr0 hd, blockStep_encHdr1 hd, blockStep_encLoop hd⟩

/-- Settles O49: a full group is emitted, and a last group where there is one. -/
theorem encoderFlushAndFinal : Obligations.EncoderFlushAndFinal := by
  unfold Obligations.EncoderFlushAndFinal
  exact fun s hd _ htok => ⟨fun hs => (blockStep_encFlush hd hs).trans (encFlush_eq htok),
    fun hs hc => (blockStep_encFinal hd hs).trans (encFinal_empty hc),
    fun hs hc => (blockStep_encFinal hd hs).trans (encFinal_eq hc htok)⟩

/-- Settles O50: what the search answers, and that a policy answers with a member. -/
theorem encoderSearchLatchesTheSelected : Obligations.EncoderSearchLatchesTheSelected := by
  unfold Obligations.EncoderSearchLatchesTheSelected
  refine fun s hd hs => ⟨fun h => ?_, fun hgroups hin hC => ?_⟩
  · rw [blockStep_encSearch hd hs, encSearch_none (State.searchResult_eq_none h)]
  · obtain ⟨c, hsel⟩ := Option.isSome_iff_exists.1 (select_isSome s.params.select hC)
    have hfound : s.searchResult = some c := by rw [State.searchResult_eq, if_pos ⟨hgroups, hin⟩, hsel]
    exact ⟨c, select_mem hsel, hsel, (blockStep_encSearch hd hs).trans (encSearch_some hfound)⟩

/-- Settles O51: the fields of a Literal written, its slot and its place in the buffer. -/
theorem encoderBuffersALiteral : Obligations.EncoderBuffersALiteral := by
  unfold Obligations.EncoderBuffersALiteral
  refine fun s b hwf hd hs hb htok => ⟨_, (blockStep_encLit hd hs).trans (encLit_eq hb htok), ?_, fun i hi => ?_,
    take_setIfInBounds s.tokbuf b htok, rfl⟩
  · exact (State.slot_append hwf b s.cur).trans (if_pos rfl)
  · exact (State.slot_append hwf b i).trans (if_neg hi)

/-- Settles O52: the fields of a BackRef written, the slots after the matched bytes and the token's place in the buffer. -/
theorem encoderBuffersABackRef : Obligations.EncoderBuffersABackRef := by
  unfold Obligations.EncoderBuffersABackRef
  intro s hwf hd hs hin htok
  have hm := s.candM.isLt
  have hlen : ((s.inp.drop s.epos.toNat).take s.candM.toNat).length = s.candM.toNat := by
    rw [List.length_take, List.length_drop]
    omega
  have hslots (i : Slot) := State.slot_appendAll hwf ((s.inp.drop s.epos.toNat).take s.candM.toNat)
    (by simp only [hlen, Config.winSize]; omega) i
  have htoklen : (s.toklen + 1).toNat = s.toklen.toNat + 1 := by bv_omega
  refine ⟨_, (blockStep_encRef hd hs).trans (encRef_eq hin htok), fun i => (hslots i).trans ?_, ?_, ?_⟩
  · rw [hlen]
    split
    · next hlt =>
      rw [List.getD_eq_getElem?_getD, List.getElem?_take_of_lt hlt, List.getElem?_drop, List.getD_eq_getElem?_getD]
    · rfl
  · dsimp only
    rw [htoklen, take_setIfInBounds_two s.tokbuf _ _ htok, matchNibble_eq]
    rfl
  · have htwo : s.toklen + 1 + 1 = s.toklen + 2 := BitVec.add_assoc _ _ _
    rw [State.appendAll_cur, hlen, BitVec.ofNat_toNat, htwo]

end

/-! SUPPORT. What an encode keeps count of beside its tokens: how many there are, and that those of the first group are
literals (R33, R291); then a whole encode with its registers at the end. -/

namespace Sys2Proof.Machine

variable {s t b : State} {items items' : List ListItem}

/-! Tokens and the bytes they stand for. -/

/-- Every token stands for a byte at least. -/
theorem length_le_produces (hitems : ∀ x ∈ items, x.IsToken) : items.length ≤ (items.map ListItem.produces).sum := by
  rw [← List.length_map (f := ListItem.produces)]
  refine List.length_le_sum_of_one_le _ (List.forall_mem_map.2 fun x hx => ?_)
  have hbytes := (hitems x hx).bytes_length
  omega

/-- Literals at the head of a listing are the first bytes that it stands for (R93). -/
theorem take_eq_map_lit {n : Nat} (h : ∀ x ∈ items.take n, ∃ v, x = .lit v) (s : State) :
    items.take n = ((s.decodedBytes items).take n).map .lit := by
  induction items generalizing s n with
  | nil => simp [State.decodedBytes]
  | cons x rest ih =>
    cases n with
    | zero => rfl
    | succ n =>
      obtain ⟨v, rfl⟩ := h x List.mem_cons_self
      rw [List.take_succ_cons, ih (fun y hy => h y (List.mem_cons_of_mem _ hy)) (s.append v)]
      rfl

/-- A listing of a header and tokens is assembled in grouped form (R107). -/
theorem assemble_hdr (n : BitVec 16) (hitems : ∀ x ∈ items, x.IsToken) :
    assemble (.hdr n :: items) = (ListItem.hdr n).bytes ++ groupedBytes 0 0 [] items := by
  have hctrl : (ListItem.hdr n :: items).any ListItem.isCtrl = false := by
    refine List.any_eq_false.2 (List.forall_mem_cons.2 ⟨nofun, fun x hx => ?_⟩)
    obtain ⟨v, rfl⟩ | ⟨off, c, rfl, -, -⟩ := (hitems x hx).cases <;> nofun
  rw [assemble, hctrl]
  rfl

/-! The count of the tokens. -/

/-- Beside `State.Encoding`: nothing has faulted, every token is in a flushed group or has its tag held (R25, R33), and the
first group is of literals, since no candidate is latched before it was flushed (R291). -/
structure State.Tally (s : State) (items : List ListItem) : Prop where
  noFault : s.faulted = false
  counted : items.length = 8 * s.groups.toNat + s.ecnt.toNat
  first : ∀ x ∈ items.take 8, ∃ v, x = .lit v
  latched : s.estate = .ref → s.groups ≠ 0

/-- There are no more tokens than bytes of `IN`. -/
theorem State.Written.length_le (h : State.Written b s items) : items.length ≤ s.inp.length := by
  have hle := length_le_produces h.tokens
  rw [← State.decodedBytes_length b, h.covers] at hle
  exact hle.trans (List.length_take_le' _ _)

/-- A flushed group adds its eight tags to the groups (R284). -/
theorem State.Tally.flush (ht : s.Tally items) (h8 : s.ecnt = 8) (hlen : items.length ≤ 65535) (out : List Byte) :
    State.Tally { s with
      etag := 0, ecnt := 0, toklen := 0, groups := s.groups + 1, out := out, estate := .search } items := by
  have hcount := ht.counted
  rw [h8] at hcount
  refine ⟨ht.noFault, ?_, ht.first, nofun⟩
  change items.length = 8 * (s.groups + 1).toNat + 0
  have h8' : (8#4).toNat = 8 := rfl
  bv_omega

/-- A token written has its tag held; one of the first group is a literal (R286, R287). -/
theorem State.Tally.writeItem (ht : s.Tally items) (hroom : s.ecnt.toNat < 8) (tag : BitVec 1) {x : ListItem}
    (hx : s.groups = 0 → ∃ v, x = .lit v) : (s.writeItem tag x).Tally (items ++ [x]) := by
  have hcount := ht.counted
  rw [State.writeItem_eq]
  refine ⟨ht.noFault, ?_, ?_, nofun⟩
  · change (items ++ [x]).length = 8 * s.groups.toNat + (s.ecnt + 1).toNat
    rw [List.length_append, List.length_singleton]
    bv_omega
  · by_cases hg : s.groups = 0
    · rw [hg] at hcount
      have hall := ht.first
      rw [List.take_of_length_le (by simp at hcount; omega)] at hall
      exact fun y hy => List.forall_mem_append.2 ⟨hall, List.forall_mem_singleton.2 (hx hg)⟩ y (List.mem_of_mem_take hy)
    · have hpos : s.groups.toNat ≠ 0 := fun h0 => hg (BitVec.eq_of_toNat_eq h0)
      rw [List.take_append_of_le_length (by omega)]
      exact ht.first

/-! An encode up to E_FINAL, with its tokens counted. -/

/-- An encode past its header is in a busy state (R34). -/
theorem State.Encoding.busy (h : State.Encoding b s items) : s.estate.busy = true := by
  have hphase := h.phase
  cases he : s.estate with
  | idle | hdr0 | hdr1 | done | fault => simp only [State.EncodePhase, he] at hphase
  | loop | flush | search | lit | ref | final => rfl

/-- The step of an encode past its header is the one that keeps its conditions and lowers its budget. -/
theorem State.Encoding.of_step (h : State.Encoding b s items) (hstep : Machine.step s = .next t)
    (hw : State.Written b t items') (hne : t.estate ≠ .done) :
    State.Encoding b t items' ∧ t.encodeBudget < s.encodeBudget := by
  obtain ⟨t', ht', ⟨_, hrunning | hended⟩, hlt⟩ := h.step
  · obtain rfl := Host.Outcome.next.inj (hstep.symm.trans ht')
    exact ⟨⟨hw, hrunning.phase⟩, hlt⟩
  · obtain rfl := Host.Outcome.next.inj (hstep.symm.trans ht')
    exact absurd hended.estate hne

/-- A candidate is found only once a group was flushed (R291). -/
theorem State.groups_ne_zero_of_searchResult {c : Candidate} (h : s.searchResult = some c) : s.groups ≠ 0 := by
  rw [State.searchResult_eq] at h
  split at h
  · next hsearch => exact hsearch.1
  · cases h

/-- E_LIT writes the Literal of the byte at the position (R286). -/
theorem State.Encoding.encLit_writes (h : State.Encoding b s items) (hs : s.estate = .lit) :
    ∃ v, s.ecnt.toNat < 8 ∧ Machine.encLit s = .next (s.writeItem 1 (.lit v)) ∧
      State.Written b (s.writeItem 1 (.lit v)) (items ++ [.lit v]) := by
  have hphase := h.phase
  obtain ⟨hroom, hr⟩ : s.ecnt.toNat < 8 ∧ s.erem ≠ 0 := by simpa only [State.EncodePhase, hs] using hphase
  have hleft : 1 ≤ s.erem.toNat := Nat.one_le_iff_ne_zero.2 fun h0 => hr (BitVec.eq_of_toNat_eq h0)
  have hpos := h.written.position
  have hbuf := h.written.buffer
  have hin : s.epos.toNat < s.inp.length := by omega
  have hbyte : [s.inp[s.epos.toNat]] = (s.inp.drop s.epos.toNat).take 1 := by
    rw [List.drop_eq_getElem_cons hin]
    rfl
  exact ⟨_, hroom, encLit_writeItem (State.input_eq_some.2 ⟨hin, rfl⟩) (by omega),
    h.written.writeItem ⟨rfl, rfl⟩ rfl hroom hleft hbyte⟩

/-- E_REF writes the BackRef of the latched candidate (R287). -/
theorem State.Encoding.encRef_writes (h : State.Encoding b s items) (hs : s.estate = .ref) :
    s.ecnt.toNat < 8 ∧ Machine.encRef s = .next (s.writeItem 0 (.ref s.candS s.candM.toNat)) ∧
      State.Written b (s.writeItem 0 (.ref s.candS s.candM.toNat)) (items ++ [.ref s.candS s.candM.toNat]) := by
  have hphase := h.phase
  obtain ⟨hroom, h3, h18, hin, hmatch⟩ : s.ecnt.toNat < 8 ∧ 3 ≤ s.candM.toNat ∧ s.candM.toNat ≤ 18 ∧
      s.epos.toNat + s.candM.toNat ≤ s.inp.length ∧
      s.replayed s.candS s.candM.toNat = (s.inp.drop s.epos.toNat).take s.candM.toNat := by
    simpa only [State.EncodePhase, hs] using hphase
  have hpos := h.written.position
  have hbuf := h.written.buffer
  have hleft : s.candM.toNat ≤ s.erem.toNat := by omega
  have hvalid : (ListItem.ref s.candS s.candM.toNat).valid = true := by simp [ListItem.valid, h3, h18]
  exact ⟨hroom, encRef_writeItem hin (by omega) h3 h18 hmatch, h.written.writeItem ⟨rfl, hvalid⟩ rfl hroom hleft hmatch⟩

/-- The rules before E_FINAL, each with the token it writes, if any (R283 to R287). -/
theorem State.Encoding.encoderStep_tally (h : State.Encoding b s items) (ht : s.Tally items) (hs : s.estate ≠ .final) :
    ∃ t items', encoderStep s = .next t ∧ State.Written b t items' ∧ t.Tally items' ∧ t.estate ≠ .done := by
  have hw := h.written
  have hphase := h.phase
  rw [encoderStep]
  cases he : s.estate with
  | idle | hdr0 | hdr1 | done | fault => simp only [State.EncodePhase, he] at hphase
  | final => exact absurd he hs
  | loop =>
    refine ⟨_, items, rfl, { hw with }, { ht with latched := ?_ }, ?_⟩
    · dsimp only
      split_ifs <;> nofun
    · dsimp only
      split_ifs <;> nofun
  | flush =>
    obtain ⟨h8, -⟩ : s.ecnt = 8 ∧ s.erem ≠ 0 := by simpa only [State.EncodePhase, he] using hphase
    have htok : s.toklen.toNat ≤ 16 := hw.buffer.trans (Nat.mul_le_mul_left 2 hw.ecnt)
    exact ⟨_, items, encFlush_eq htok, hw.flush h8, ht.flush h8 (hw.length_le.trans hw.length) _, nofun⟩
  | search =>
    cases hf : s.searchResult with
    | none => exact ⟨_, items, encSearch_none hf, { hw with }, { ht with latched := nofun }, nofun⟩
    | some c =>
      have hg : s.groups ≠ 0 := State.groups_ne_zero_of_searchResult hf
      exact ⟨_, items, encSearch_some hf, { hw with }, { ht with latched := fun _ => hg }, nofun⟩
  | lit =>
    obtain ⟨v, hroom, hstep, hw'⟩ := h.encLit_writes he
    exact ⟨_, _, hstep, hw', ht.writeItem hroom 1 fun _ => ⟨v, rfl⟩, by rw [State.writeItem_eq]; nofun⟩
  | ref =>
    obtain ⟨hroom, hstep, hw'⟩ := h.encRef_writes he
    exact ⟨_, _, hstep, hw', ht.writeItem hroom 0 fun hg => absurd hg (ht.latched he), by rw [State.writeItem_eq]; nofun⟩

/-- An encode past its header gets to E_FINAL within its budget (R295). -/
theorem State.Encoding.run_to_final (h : State.Encoding b s items) (ht : s.Tally items) :
    ∃ k u items', run k s = .next u ∧ k ≤ s.encodeBudget ∧ State.Encoding b u items' ∧ u.Tally items' ∧
      u.estate = .final := by
  have hadvance (s : State) (hs : ∃ items, State.Encoding b s items ∧ s.Tally items) :
      s.estate = .final ∨ ∃ t, Machine.step s = .next t ∧ (∃ items, State.Encoding b t items ∧ t.Tally items) ∧
        t.encodeBudget < s.encodeBudget := by
    obtain ⟨items, h, ht⟩ := hs
    by_cases hs : s.estate = .final
    · exact .inl hs
    · obtain ⟨t, items', hstep, hw, ht', hne⟩ := h.encoderStep_tally ht hs
      have hstep := (step_encoder h.written.quiet h.written.otherIdle h.busy).trans hstep
      obtain ⟨h', hlt⟩ := h.of_step hstep hw hne
      exact .inr ⟨t, hstep, ⟨items', h', ht'⟩, hlt⟩
  obtain ⟨k, u, hrun, hk, ⟨items', h', ht'⟩, hfinal⟩ := run_ends_within hadvance ⟨items, h, ht⟩
  exact ⟨k, u, items', hrun, hk, h', ht', hfinal⟩

/-- E_FINAL emits what is held, and ends the encode (R288). -/
theorem encFinal_unsent (h : s.toklen.toNat ≤ 16) : ∃ etag ecnt toklen groups, encFinal s = .next { s with
    etag := etag, ecnt := ecnt, toklen := toklen, groups := groups, out := s.out ++ s.unsent [], estate := .done
    done := true } := by
  rw [State.unsent_nil]
  by_cases hc : s.ecnt = 0
  · rw [if_pos hc, List.append_nil]
    exact ⟨_, _, _, _, encFinal_empty hc⟩
  · rw [if_neg hc]
    exact ⟨_, _, _, _, encFinal_eq hc h⟩

/-- From `b`, the first loop head, to `u` the encoder has encoded all of `IN` as the tokens `items`: it reports the end, the
window has the input, and the grouped form of the tokens was emitted (R288, R289, R291, R292). -/
structure State.Encodes (b u : State) (items : List ListItem) : Prop where
  estate : u.estate = .done
  done : u.done = true
  noFault : u.faulted = false
  otherIdle : u.dstate.busy = false
  epos : u.epos.toNat = b.inp.length
  erem : u.erem = 0
  win : u.win = (b.appendAll b.inp).win
  cur : u.cur = (b.appendAll b.inp).cur
  tokens : ∀ x ∈ items, x.IsToken
  covers : b.decodedBytes items = b.inp
  first : ∀ x ∈ items.take 8, ∃ v, x = .lit v
  out : u.out = b.out ++ groupedBytes 0 0 [] items

/-- E_FINAL ends an encode that has written all its tokens (R288, R289). -/
theorem State.Encoding.step_final (h : State.Encoding b s items) (ht : s.Tally items) (hs : s.estate = .final) :
    ∃ u, Machine.step s = .next u ∧ State.Encodes b u items := by
  obtain ⟨hquiet, hidle, -, hinp, -, -, htokens, hcovers, hwin, hcur, hpos, hecnt, -, hbuf, hsent⟩ := h.written
  have hphase := h.phase
  have hr : s.erem = 0 := by simpa only [State.EncodePhase, hs] using hphase
  have hepos : s.epos.toNat = s.inp.length := by rw [← hpos, hr]; rfl
  rw [hepos, List.take_length, hinp] at hcovers
  rw [hcovers] at hwin hcur
  obtain ⟨etag, ecnt, toklen, groups, hfinal⟩ := encFinal_unsent (s := s) (hbuf.trans (Nat.mul_le_mul_left 2 hecnt))
  have hstep : Machine.step s = Machine.encFinal s := by
    rw [step_encoder hquiet hidle h.busy, encoderStep, hs]
  refine ⟨_, hstep.trans hfinal, rfl, rfl, ht.noFault, hidle,
    hinp ▸ hepos, hr, hwin, hcur, htokens, hcovers, ht.first, ?_⟩
  rw [← hsent [], List.append_nil]

/-! A whole encode. -/

/-- From `s` to `b`, the first loop head, the encoder has emitted the header alone (R281, R282). -/
structure State.HeaderSent (s b : State) : Prop where
  inp : b.inp = s.inp
  win : b.win = s.win
  cur : b.cur = s.cur
  out : b.out = s.out ++ (ListItem.hdr (BitVec.ofNat 16 s.inp.length)).bytes

/-- The header's two steps write no token and raise no fault (R281, R282). -/
theorem State.Unwritten.header_tally (h : s.Unwritten) (hs : s.estate = .hdr0) (hfault : s.faulted = false)
    (hgroups : s.groups = 0) (hrun : run 2 s = .next b) : b.Tally [] := by
  have hhigh : Machine.step s = .next { s with out := s.out ++ [s.hdrN.extractLsb' 8 8], estate := .hdr1 } := by
    rw [step_encoder h.quiet h.otherIdle (by rw [hs]; rfl), encoderStep, hs]
    rfl
  have hlow : Machine.step { s with out := s.out ++ [s.hdrN.extractLsb' 8 8], estate := .hdr1 } =
      .next { s with out := s.out ++ [s.hdrN.extractLsb' 8 8] ++ [s.hdrN.extractLsb' 0 8], estate := .loop } :=
    step_encoder h.quiet h.otherIdle rfl
  obtain rfl := Host.Outcome.next.inj (((run_add (run_one hhigh) 1).trans (run_one hlow)).symm.trans hrun)
  refine ⟨hfault, ?_, nofun, nofun⟩
  dsimp only
  rw [hgroups, h.ecnt]
  rfl

/-- A whole encode from E_HDR0 on: the header, then the tokens, within the bound of R295. -/
theorem State.Unwritten.run_encodes (h : s.Unwritten) (hs : s.estate = .hdr0) (hn : s.hdrN = BitVec.ofNat 16 s.inp.length)
    (hfault : s.faulted = false) (hgroups : s.groups = 0) :
    ∃ b k u items, run k s = .next u ∧ k ≤ 3 + 4 * s.inp.length + 2 ∧ State.HeaderSent s b ∧ State.Encodes b u items := by
  obtain ⟨b, hheader, hb, hbudget, hinp, hwin, hcur, hout⟩ := h.run_header hs hn
  obtain ⟨k, v, items, hrun, hk, hv, ht, hfinal⟩ := hb.run_to_final (h.header_tally hs hfault hgroups hheader)
  obtain ⟨u, hlast, hu⟩ := hv.step_final ht hfinal
  exact ⟨b, 2 + (k + 1), u, items, (run_add hheader _).trans ((run_add hrun 1).trans (run_one hlast)), by omega,
    ⟨hinp, hwin, hcur, hout⟩, hu⟩

/-- ENC.START of an input that fits the header, and the encode it begins (R280, R295). -/
theorem exec_encStart_encodes (hq : s.quiet) (hpar : s.params.legal = true) (hlen : s.inp.length ≤ 65535) :
    ∃ t b k u items, exec .encStart s = .next t ∧ t.inp = s.inp ∧ t.out = s.out ∧ t.cur = Config.initCursor ∧
      run k t = .next u ∧ k ≤ 3 + 4 * s.inp.length + 2 ∧ State.HeaderSent t b ∧ State.Encodes b u items := by
  have hn : (BitVec.ofNat 16 s.inp.length).toNat = s.inp.length := by
    rw [BitVec.toNat_ofNat]
    omega
  obtain ⟨t, hstart, hinp, hout, hcur, ht, hest, hhdr, hfault, hgroups⟩ : ∃ t, exec .encStart s = .next t ∧
      t.inp = s.inp ∧ t.out = s.out ∧ t.cur = Config.initCursor ∧ t.Unwritten ∧ t.estate = .hdr0 ∧
      t.hdrN = BitVec.ofNat 16 t.inp.length ∧ t.faulted = false ∧ t.groups = 0 :=
    ⟨_, execEncStart_eq hlen, rfl, rfl, rfl, ⟨hq, rfl, hpar, hlen, Memory.wf_nil, rfl, hn, rfl, rfl, rfl⟩, rfl, rfl, rfl,
      rfl⟩
  obtain ⟨b, k, u, items, hrun, hk, hb, hu⟩ := ht.run_encodes hest hhdr hfault hgroups
  exact ⟨t, b, k, u, items, hstart, hinp, hout, hcur, hrun, hinp ▸ hk, hb, hu⟩

end Sys2Proof.Machine

section

open Sys2Proof Sys2Proof.Machine

/-- Settles O53: the encode that ENC.START begins, with its registers at the end. -/
theorem encodeEndsInDone : Obligations.EncodeEndsInDone := by
  unfold Obligations.EncodeEndsInDone
  intro s hq hpar hlen
  obtain ⟨t, b, k, u, items, hstart, htinp, -, htcur, hrun, hk, hb, hu⟩ := exec_encStart_encodes hq hpar hlen
  have hinp : b.inp = s.inp := hb.inp.trans htinp
  have hbusy : u.busy = false := State.busy_eq_false.2 ⟨hu.otherIdle, by rw [hu.estate]; rfl⟩
  obtain ⟨hwin, hcur⟩ := State.appendAll_congr b.inp hb.win hb.cur
  refine ⟨t, k, u, hstart, hrun, hk, hu.estate, hu.done, hu.noFault, hbusy, hinp ▸ hu.epos, hu.erem, ?_, fun i => ?_⟩
  · rw [hu.cur, hcur, hinp, State.appendAll_cur, htcur]
    simp
  · rw [State.slot, State.slot, hu.win, hwin, hinp]

/-- Settles O54: the tokens of the encode stand for the input, and those of the first group are literals. -/
theorem encoderOutputIsAGroupedStream : Obligations.EncoderOutputIsAGroupedStream := by
  unfold Obligations.EncoderOutputIsAGroupedStream
  intro s hq hpar hlen
  obtain ⟨t, b, k, u, items, hstart, htinp, htout, -, hrun, -, hb, hu⟩ := exec_encStart_encodes hq hpar hlen
  have hcovers : b.decodedBytes items = s.inp := hu.covers.trans (hb.inp.trans htinp)
  have hsum : (items.map ListItem.produces).sum = s.inp.length := by rw [← State.decodedBytes_length b, hcovers]
  have hfirst : items.take 8 = (s.inp.take 8).map .lit := hcovers ▸ take_eq_map_lit hu.first b
  refine ⟨t, k, u, items, hstart, hrun, hu.estate, fun x hx => ⟨(hu.tokens x hx).tagged, (hu.tokens x hx).valid⟩, hsum,
    hfirst, fun h8 => ?_, ?_⟩
  · have hcount := length_le_produces hu.tokens
    rwa [List.take_of_length_le (by omega), List.take_of_length_le h8] at hfirst
  · rw [hu.out, hb.out, htinp, htout, assemble_hdr _ hu.tokens, List.append_assoc]

end

/-! SUPPORT. The moves of a step (`spec/60_exceptions.md` R341) by BUSY and by what is pending, with no reset at hand. -/

namespace Sys2Proof.Machine

variable {s : State}

/-- An offer that leaves no command pending leaves the whole state. -/
theorem State.offer_of_none (h : s.offer.pending = none) : s.offer = s := by
  unfold State.offer at h ⊢
  split at h
  · cases h
  · rfl

/-- The moves with a command pending and no reset at hand (R341). -/
theorem State.turns_of_pending {w : CmdWord} (hp : s.pending = some w) (hr : s.host.head? ≠ some .reset) :
    s.turns = (if s.busy && !acceptedWhileBusy w then [] else [.accept w]) ++ if s.busy then [.block] else [] := by
  have hevent : s.eventTurns = [] := by
    unfold State.eventTurns
    split
    · next hh => exact absurd (congrArg List.head? hh) hr
    · rw [hp]; rfl
    · rw [hp]; rfl
    · rfl
  rw [State.turns, hevent, State.acceptTurns, hp, State.blockTurns, List.nil_append]

/-- An idle block with no reset at hand accepts the pending command, without a draw (R341). -/
theorem step_accept {w : CmdWord} (hb : s.busy = false) (hp : s.offer.pending = some w)
    (hr : s.offer.host.head? ≠ some .reset) : step s = acceptCommand w { s.offer with pending := none } := by
  have hturns := State.turns_of_pending hp hr
  rw [State.offer_busy, hb] at hturns
  exact takeTurn_single hturns

/-- A busy block holds a word that is not accepted while busy, and takes its own step (R341). -/
theorem step_holds {w : CmdWord} (hb : s.busy = true) (hp : s.pending = some w) (hr : s.host.head? ≠ some .reset)
    (hw : acceptedWhileBusy w = false) : step s = blockStep s := by
  have hturns := State.turns_of_pending hp hr
  rw [hb, hw] at hturns
  rw [step, State.offer_of_pending hp]
  exact takeTurn_single hturns

/-- With a command pending and no reset at hand, a busy block takes its own step or accepts the command (R341). -/
theorem step_pending_busy {w : CmdWord} (hb : s.busy = true) (hp : s.pending = some w)
    (hr : s.host.head? ≠ some .reset) : ∃ d, step s = blockStep { s with draws := d } ∨
      step s = acceptCommand w { s with pending := none, draws := d } := by
  rw [step, State.offer_of_pending hp]
  rcases takeTurn_cases s with ⟨hnil, -⟩ | ⟨m, hm, d, hst⟩
  · have hblock : Turn.block ∈ s.turns := State.mem_turns.2 hb
    rw [hnil] at hblock
    cases hblock
  · rw [State.mem_turns] at hm
    refine ⟨d, ?_⟩
    cases m with
    | block => exact .inl hst
    | accept v =>
      cases Option.some.inj (hp.symm.trans hm.1)
      exact .inr hst
    | reset => exact absurd hm hr
    | present bytes => cases hp.symm.trans hm.2
    | proceed => cases hp.symm.trans hm.2.1

/-- In an idle block with no command presented the host's wait is over (R363). -/
theorem step_proceed {rest : List HostEvent} (hb : s.busy = false) (hp : s.pending = none)
    (hh : s.host = .awaitIdle :: rest) : step s = .next { s with host := rest } := by
  have hoffer : s.offer = s := by simp [State.offer, hp, hh]
  rw [step, hoffer,
    takeTurn_single (t := .proceed) (by simp [State.turns, State.eventTurns, State.acceptTurns, State.blockTurns, hb, hp, hh]),
    runTurn, hh]
  rfl

/-- A word that does not decode is recorded as it stands (R324). -/
theorem acceptCommand_of_error {w : CmdWord} {e : DecodeError} (h : decodeCommand w = .error e) (s : State) :
    acceptCommand w s = .next (s.raiseFault (.illegalCmd w)) := by
  rw [acceptCommand, h]

/-- With nothing presented an idle block stays as it is for any number of steps (R347). -/
theorem run_idle (h : step s = .next s) (k : Nat) : run k s = .next s := by
  induction k with
  | zero => rfl
  | succ k ih => rw [run, h]; exact ih

end Sys2Proof.Machine

section

open Sys2Proof Sys2Proof.Machine

/-- Settles O6: the three offers, and the one move of an idle block that has a command pending. -/
theorem stepAcceptsThePendingCommand : Obligations.StepAcceptsThePendingCommand := by
  unfold Obligations.StepAcceptsThePendingCommand
  refine ⟨fun s w => State.offer_of_pending, fun s w rest => State.offer_of_command, fun s rest => step_proceed,
    fun s w hb hp hr => ⟨fun i hi => ?_, fun e he => ?_⟩⟩
  · rw [step_accept hb hp hr, acceptCommand_of_decode hi]
  · rw [step_accept hb hp hr, acceptCommand_of_error he]

/-- Settles O11: an idle block to which nothing is presented has no move. -/
theorem idleBlockKeepsItsState : Obligations.IdleBlockKeepsItsState := by
  unfold Obligations.IdleBlockKeepsItsState
  intro s hb hp hh
  rw [step_quiet hp hh, hb]
  rfl

/-- Settles O58: block steps and acceptances end in a next state, as does every event but a change of `IN` while busy. -/
theorem legalStatesNeverFault : Obligations.LegalStatesNeverFault := by
  unfold Obligations.LegalStatesNeverFault
  intro s hl
  rcases step_cases s with ⟨-, hst⟩ | ⟨m, hm, d, hst⟩
  · exact .inl ⟨_, hst⟩
  · rw [State.mem_turns] at hm
    rw [hst]
    cases m with
    | block =>
      obtain ⟨t, ht, -⟩ := (hl.offer.setOuter s.offer.res s.offer.pending s.offer.host d).blockStep
      exact .inl ⟨t, ht⟩
    | accept w =>
      obtain ⟨t, ht, -⟩ := acceptCommand_next w { s.offer with draws := d, pending := none }
      exact .inl ⟨t, ht⟩
    | reset => exact .inl ⟨_, rfl⟩
    | present bytes =>
      obtain ⟨hhead, hnone⟩ := hm
      rw [State.offer_of_none hnone] at hhead ⊢
      cases hb : s.busy with
      | false =>
        have hn : ¬ s.busy = true := by simp [hb]
        exact .inl ⟨_, if_neg hn⟩
      | true => exact .inr ⟨if_pos hb, rfl, bytes, hhead⟩
    | proceed => exact .inl ⟨_, rfl⟩

end

/-! SUPPORT. The running operation (R341): all of the state but `RES`, what the host presents, and the draws. A block step
works on it alone. -/

namespace Sys2Proof.Machine

variable {s t : State}

/-- An answer by the state of the running operation that it ends in. -/
def Answer.operation : Answer → Answer
  | .next t => .next t.operation
  | .fault f => .fault f
  | .refused r => .refused r

/-! The decoder's rules (R191 to R199). -/

/-- The rest of a reading rule that works on the operation alone keeps the whole rule to it (R64). -/
theorem State.operation_inRead (rest : Byte → State → State)
    (hrest : ∀ b s, (rest b s).operation = rest b s.operation) (s : State) :
    (s.inRead rest).operation = s.operation.inRead rest := by
  rcases s.inRead_cases rest with ⟨hend, he⟩ | ⟨-, b, hb, he⟩
  · rw [he, State.inRead_end (s := s.operation) hend]
    rfl
  · rw [he, State.inRead_byte (s := s.operation) hb, hrest]
    rfl

theorem State.operation_loopHead (s : State) : s.loopHead.operation = s.operation.loopHead := by
  by_cases hr : s.rem = 0
  · rw [State.loopHead_done hr, State.loopHead_done (s := s.operation) hr]
    rfl
  · rw [State.loopHead_shift hr, State.loopHead_shift (s := s.operation) hr]
    rfl

theorem State.operation_tagDispatch (s : State) : s.tagDispatch.operation = s.operation.tagDispatch :=
  apply_ite State.operation _ _ _

theorem State.operation_refByte1 (hi : Byte) (s : State) : (s.refByte1 hi).operation = s.operation.refByte1 hi :=
  apply_ite State.operation _ _ _

/-- A block step of the decoder works on the operation alone. -/
theorem State.operation_decoderStep (s : State) : s.decoderStep.operation = s.operation.decoderStep := by
  have hs : s.operation.dstate = s.dstate := rfl
  unfold State.decoderStep
  rw [hs]
  cases s.dstate with
  | hdr0 => exact State.operation_inRead State.headerHigh (fun _ _ => rfl) s
  | hdr1 => exact State.operation_inRead State.headerLow (fun _ _ => rfl) s
  | loop => exact s.operation_loopHead
  | ctrl => exact State.operation_inRead State.controlLoad (fun _ _ => rfl) s
  | tag => exact s.operation_tagDispatch
  | lit => exact State.operation_inRead State.literalByte (fun _ _ => rfl) s
  | ref0 => exact State.operation_inRead State.refByte0 (fun _ _ => rfl) s
  | ref1 => exact State.operation_inRead State.refByte1 State.operation_refByte1 s
  | copy => rfl
  | idle | done | fault => rfl

/-! The search and the encoder's rules (R243 to R247, R281 to R288). -/

theorem State.operation_probe (start : Slot) (p : Nat) (s : State) : s.operation.probe start p = s.probe start p := by
  have hloop (fuel : Nat) : ∀ m, s.operation.probeFrom start p m fuel = s.probeFrom start p m fuel := by
    induction fuel with
    | zero => exact fun m => rfl
    | succ fuel ih =>
      intro m
      rw [State.probeFrom, ih]
      rfl
  exact hloop s.params.maxMatch 0

theorem State.operation_candidateAt (p : Nat) (s : State) : s.operation.candidateAt p = s.candidateAt p := by
  funext d
  unfold State.candidateAt
  simp only [State.operation_probe]
  rfl

theorem State.operation_searchResult (s : State) : s.operation.searchResult = s.searchResult := by
  have hcands (p : Nat) : s.operation.cands p = s.cands p := by
    rw [State.cands, State.operation_candidateAt]
    rfl
  rw [State.searchResult_eq, State.searchResult_eq, hcands]
  rfl

theorem State.operation_appendAll (bytes : List Byte) (s : State) :
    (s.appendAll bytes).operation = s.operation.appendAll bytes := by
  induction bytes generalizing s with
  | nil => rfl
  | cons b rest ih => exact ih (s.append b)

theorem Answer.operation_encFlush (s : State) : Answer.operation (encFlush s) = encFlush s.operation :=
  apply_ite Answer.operation _ _ _

theorem Answer.operation_encSearch (s : State) : Answer.operation (encSearch s) = encSearch s.operation := by
  have hs := s.operation_searchResult
  cases hf : s.searchResult with
  | none =>
    rw [encSearch_none hf, encSearch_none (hs.trans hf)]
    rfl
  | some c =>
    rw [encSearch_some hf, encSearch_some (hs.trans hf)]
    rfl

theorem Answer.operation_encLit (s : State) : Answer.operation (encLit s) = encLit s.operation := by
  have hb : s.operation.input s.operation.epos.toNat = s.input s.epos.toNat := rfl
  unfold encLit
  rw [hb]
  cases s.input s.epos.toNat with
  | none => rfl
  | some b => exact apply_ite Answer.operation _ _ _

theorem Answer.operation_encRef (s : State) : Answer.operation (encRef s) = encRef s.operation := by
  have hm : s.operation.matchedBytes = s.matchedBytes := rfl
  have hroom : s.operation.bufferRoom 2 = s.bufferRoom 2 := rfl
  unfold encRef
  rw [hm, hroom]
  cases s.matchedBytes with
  | none => rfl
  | some bytes =>
    cases s.bufferRoom 2 with
    | false => rfl
    | true =>
      exact congrArg (fun t => Host.Outcome.next { t with
          epos := t.epos + s.candM.setWidth 32, erem := t.erem - s.candM.setWidth 16, estate := .loop })
        (State.operation_appendAll bytes _)

theorem Answer.operation_encFinal (s : State) : Answer.operation (encFinal s) = encFinal s.operation := by
  by_cases hc : s.ecnt = 0
  · rw [encFinal_empty hc, encFinal_empty (s := s.operation) hc]
    rfl
  · unfold encFinal
    rw [if_neg hc, if_neg (show ¬ s.operation.ecnt = 0 from hc)]
    exact apply_ite Answer.operation _ _ _

/-- A block step of the encoder works on the operation alone. -/
theorem Answer.operation_encoderStep (s : State) : Answer.operation (encoderStep s) = encoderStep s.operation := by
  have hs : s.operation.estate = s.estate := rfl
  unfold encoderStep
  rw [hs]
  cases s.estate with
  | hdr0 => rfl
  | hdr1 => rfl
  | loop => rfl
  | flush => exact Answer.operation_encFlush s
  | search => exact Answer.operation_encSearch s
  | lit => exact Answer.operation_encLit s
  | ref => exact Answer.operation_encRef s
  | final => exact Answer.operation_encFinal s
  | idle | done | fault => rfl

/-! The block step (R341). -/

/-- A block step works on the operation alone: it commutes with leaving out the rest. -/
theorem Answer.operation_blockStep (s : State) : Answer.operation (blockStep s) = blockStep s.operation := by
  have hd : s.operation.dstate.busy = s.dstate.busy := rfl
  have he : s.operation.estate.busy = s.estate.busy := rfl
  unfold blockStep
  rw [hd, he]
  cases s.dstate.busy with
  | true => exact congrArg Host.Outcome.next s.operation_decoderStep
  | false =>
    cases s.estate.busy with
    | true => exact Answer.operation_encoderStep s
    | false => rfl

/-- A step of the operation alone is its block step. -/
theorem step_operation (hb : s.busy = true) (h : blockStep s = .next t) : step s.operation = .next t.operation := by
  have hbusy : s.operation.busy = true := hb
  rw [step_quiet rfl rfl, if_pos hbusy, ← Answer.operation_blockStep, h]
  rfl

end Sys2Proof.Machine

/-! SUPPORT. A host that presents only commands that are accepted while busy: what its steps and runs do to the operation. -/

namespace Sys2Proof.Machine

variable {s t : State}

/-- All that the host presents, now and later, is accepted while busy. -/
structure State.Attended (s : State) : Prop where
  pending : ∀ w, s.pending = some w → acceptedWhileBusy w = true
  host : ∀ e ∈ s.host, ∃ w, e = .command w ∧ acceptedWhileBusy w = true

/-- The offer takes the host's next command off its list, and so keeps what is presented in all (R341). -/
theorem State.Attended.offer (h : s.Attended) : s.offer.Attended ∧ s.offer.commandsLeft = s.commandsLeft := by
  cases hp : s.pending with
  | some w => rw [State.offer_of_pending hp]; exact ⟨h, rfl⟩
  | none =>
    cases hh : s.host with
    | nil => rw [State.offer_of_nil hh]; exact ⟨h, rfl⟩
    | cons e rest =>
      have hmem : ∀ e' ∈ e :: rest, ∃ w, e' = .command w ∧ acceptedWhileBusy w = true := hh ▸ h.host
      obtain ⟨⟨w, rfl, hw⟩, hrest⟩ := List.forall_mem_cons.1 hmem
      rw [State.offer_of_command hp hh]
      refine ⟨⟨fun v hv => Option.some.inj hv ▸ hw, hrest⟩, ?_⟩
      simp [State.commandsLeft, hp, hh, Nat.add_comm]

/-- What a state presents is told by the pending command and the host's list. -/
theorem State.Attended.congr (h : s.Attended) (hp : t.pending = s.pending) (hh : t.host = s.host) :
    t.Attended ∧ t.commandsLeft = s.commandsLeft :=
  ⟨⟨hp ▸ h.pending, hh ▸ h.host⟩, by rw [State.commandsLeft, hp, hh, State.commandsLeft]⟩

/-- The host's next event is a command. -/
theorem State.Attended.head {e : HostEvent} (h : s.Attended) (hh : s.host.head? = some e) : ∃ w, e = .command w := by
  obtain ⟨w, he, -⟩ := h.host e (List.mem_of_head? hh)
  exact ⟨w, he⟩

/-- What one step can be while the host presents only such commands: an idle block has nothing to do; a command is accepted,
which leaves the operation; or the operation takes its own step, which leaves the commands. -/
inductive AttendedStep (s : State) : Prop
  | rests (idle : s.busy = false) (stays : step s = .next s)
  | accepts (t : State) (goes : step s = .next t) (attended : t.Attended) (same : t.operation = s.operation)
      (fewer : t.commandsLeft + 1 = s.commandsLeft)
  | advances (t : State) (goes : step s = .next t) (attended : t.Attended)
      (alone : step s.operation = .next t.operation) (asMany : t.commandsLeft = s.commandsLeft)

/-- The step is one of the three, whatever the scheduler draws. -/
theorem State.Attended.attendedStep (h : s.Attended) (hl : s.Legal) : AttendedStep s := by
  obtain ⟨ho, hleft⟩ := h.offer
  have hop : s.offer.operation = s.operation := by rw [State.offer_frame]; rfl
  rcases step_cases s with ⟨hturns, hst⟩ | ⟨m, hm, d, hst⟩
  · have hno (m : Turn) : m ∉ s.offer.turns := hturns ▸ List.not_mem_nil
    simp only [State.mem_turns] at hno
    have hidle : s.busy = false := s.offer_busy ▸ Bool.eq_false_of_not_eq_true (hno .block)
    have hnone : s.offer.pending = none := by
      cases hp : s.offer.pending with
      | none => rfl
      | some w => exact absurd ⟨hp, fun _ => ho.pending w hp⟩ (hno (.accept w))
    exact .rests hidle (hst.trans (congrArg Host.Outcome.next (State.offer_of_none hnone)))
  · rw [State.mem_turns] at hm
    cases m with
    | block =>
      obtain ⟨t, hblock, -⟩ := (hl.offer.setOuter s.offer.res s.offer.pending s.offer.host d).blockStep
      obtain ⟨hkeep, -⟩ := blockStep_frame hblock
      obtain ⟨hatt, hcount⟩ := ho.congr hkeep.pending hkeep.host
      have halone := step_operation (s := { s.offer with draws := d }) hm hblock
      exact .advances t (hst.trans hblock) hatt ((congrArg step hop.symm).trans halone) (hcount.trans hleft)
    | accept w =>
      obtain ⟨hp, -⟩ := hm
      obtain ⟨v, hacc⟩ := acceptCommand_busy (ho.pending w hp) { s.offer with draws := d, pending := none }
      refine .accepts _ (hst.trans hacc) ⟨nofun, ho.host⟩ hop ?_
      rw [← hleft]
      simp [State.commandsLeft, hp, Nat.add_comm]
    | reset => exact absurd (ho.head hm) (by simp)
    | present bytes => exact absurd (ho.head hm.1) (by simp)
    | proceed => exact absurd (ho.head hm.1) (by simp)

/-- A run of `k` steps goes through the states of the operation run alone, and falls behind it by at most one step for each
command (R341, R374). -/
theorem State.Attended.run_follows (h : s.Attended) (hl : s.Legal) (k : Nat) :
    ∃ j t u, j ≤ k ∧ run k s = .next t ∧ run j s.operation = .next u ∧ t.operation = u.operation ∧
      (t.busy = true → k ≤ j + s.commandsLeft) := by
  induction k generalizing s with
  | zero => exact ⟨0, s, s.operation, Nat.le_refl 0, rfl, rfl, rfl, fun _ => Nat.zero_le _⟩
  | succ k ih =>
    have hrun {v : State} (hst : step s = .next v) : run (k + 1) s = run k v := by rw [run, hst]
    cases h.attendedStep hl with
    | rests idle stays => exact ⟨0, s, s.operation, Nat.zero_le _, run_idle stays _, rfl, rfl, by simp [idle]⟩
    | accepts v goes attended same fewer =>
      obtain ⟨j, t, u, hj, hrt, hru, heq, hlag⟩ := ih attended (hl.step goes)
      exact ⟨j, t, u, Nat.le_succ_of_le hj, (hrun goes).trans hrt, same ▸ hru, heq, fun hb => by have := hlag hb; omega⟩
    | advances v goes attended alone asMany =>
      obtain ⟨j, t, u, hj, hrt, hru, heq, hlag⟩ := ih attended (hl.step goes)
      refine ⟨j + 1, t, u, Nat.succ_le_succ hj, (hrun goes).trans hrt, ?_, heq, fun hb => by have := hlag hb; omega⟩
      rw [run, alone]
      exact hru

end Sys2Proof.Machine

section

open Sys2Proof Sys2Proof.Machine

/-- Settles O10: a run follows the operation run alone, one step or one accepted command at a time. -/
theorem drawsNeverChangeAnOperation : Obligations.DrawsNeverChangeAnOperation := by
  unfold Obligations.DrawsNeverChangeAnOperation
  intro s hl hpending hhost k
  exact State.Attended.run_follows ⟨hpending, hhost⟩ hl k

end

/-! SUPPORT. What a word says about the instruction it decodes to: its unit and op, whether it is accepted while busy, and the
whole word where the term holds it. -/

namespace Sys2Proof

variable {u op : BitVec 4} {x : BitVec 16} {w : CmdWord} {i : Instr}

/-- The instruction that a row gives is encoded in that row (R103, R109). -/
theorem encode_of_decodeFields (h : decodeFields u op x = .ok i) : ∃ z, encode i = .command (cmdWord u op z) := by
  unfold decodeFields at h
  split at h
  case h_21 => split at h <;> cases h
  all_goals
    next hu ho =>
      obtain ⟨-, rfl⟩ := BitVec.toNat_eq_nat.1 hu
      obtain ⟨-, rfl⟩ := BitVec.toNat_eq_nat.1 ho
      cases h
      exact ⟨_, rfl⟩

/-- A word decodes to an instruction of its own unit and op. -/
theorem fields_of_decodeCommand {v o : BitVec 4} {z : BitVec 16} (h : decodeCommand w = .ok i)
    (hi : encode i = .command (cmdWord v o z)) : cmdUnit w = v ∧ cmdOp w = o := by
  obtain ⟨y, hy⟩ := encode_of_decodeFields h
  have hword : cmdWord v o z = cmdWord (cmdUnit w) (cmdOp w) y := Encoded.command.inj (hi.symm.trans hy)
  have hu := congrArg cmdUnit hword
  have ho := congrArg cmdOp hword
  rw [cmdUnit_cmdWord, cmdUnit_cmdWord] at hu
  rw [cmdOp_cmdWord, cmdOp_cmdWord] at ho
  exact ⟨hu.symm, ho.symm⟩

/-- The term of an E_PUSH holds its whole word (R167, R41). -/
theorem encode_cfcEPush_of_decode {t : BitVec 1} {y : BitVec 15} (h : decodeCommand w = .ok (.cfcEPush t y)) :
    encode (.cfcEPush t y) = .command w := by
  obtain ⟨hu, ho⟩ := fields_of_decodeCommand h rfl
  rw [decodeCommand, hu, ho] at h
  cases h
  rw [encode, append_extract (m := 15) (k := 1), ← hu, ← ho, cmdWord_fields]

/-- The term of a CSR.READ holds its whole word (R294, R41). -/
theorem encode_csrRead_of_decode {n : BitVec 4} {y : BitVec 12} (h : decodeCommand w = .ok (.csrRead n y)) :
    encode (.csrRead n y) = .command w := by
  obtain ⟨hu, ho⟩ := fields_of_decodeCommand h rfl
  rw [decodeCommand, hu, ho] at h
  cases h
  rw [encode, append_extract (m := 12) (k := 4), ← hu, ← ho, cmdWord_fields]

end Sys2Proof

namespace Sys2Proof.Machine

variable {w : CmdWord}

/-- The words accepted while busy, by their fields (R341). -/
theorem acceptedWhileBusy_iff : acceptedWhileBusy w = true ↔
    (cmdUnit w = 0x0#4 ∧ cmdOp w = 0x0#4) ∨
    (cmdUnit w = 0x5#4 ∧ cmdOp w = 0x1#4 ∧ ((cmdOpnd w).extractLsb' 0 4).toNat ≤ 10) := by
  constructor
  · intro h
    unfold acceptedWhileBusy at h
    split at h
    · next hd => exact .inl (fields_of_decodeCommand hd rfl)
    · next n y hd =>
      obtain ⟨hu, ho⟩ := fields_of_decodeCommand hd rfl
      rw [decodeCommand, hu, ho] at hd
      cases hd
      exact .inr ⟨hu, ho, of_decide_eq_true h⟩
    · cases h
  · rintro (⟨hu, ho⟩ | ⟨hu, ho, hn⟩)
    · rw [acceptedWhileBusy, decodeCommand, hu, ho]
      rfl
    · rw [acceptedWhileBusy, decodeCommand, hu, ho]
      exact decide_eq_true hn

end Sys2Proof.Machine

section

open Sys2Proof Sys2Proof.Machine

/-- Settles O9: the moves of a busy block that has a command pending. -/
theorem busyBlockHoldsCommands : Obligations.BusyBlockHoldsCommands := by
  unfold Obligations.BusyBlockHoldsCommands
  refine ⟨fun w => acceptedWhileBusy_iff, fun s w hb hp hr => ⟨fun hw => ?_, fun hw => ?_⟩⟩
  · have hst := step_holds hb hp hr hw
    exact ⟨hst, fun t ht => (blockStep_frame (hst.symm.trans ht)).1.pending.trans hp⟩
  · obtain ⟨d, hst⟩ := step_pending_busy hb hp hr
    obtain ⟨v, hacc⟩ := acceptCommand_busy hw { s with pending := none, draws := d }
    exact ⟨d, v, hacc, hst.imp_right (·.trans hacc)⟩

/-- Settles O33: a word of no row, an E_PUSH at eight tags and a CSR that is not listed are each recorded as they stand. -/
theorem reservedCommandsOnlyFault : Obligations.ReservedCommandsOnlyFault := by
  unfold Obligations.ReservedCommandsOnlyFault
  intro s w h
  have hfields := cmdWord_fields w
  rcases h with hn | ⟨hu, ho, h8⟩ | ⟨hu, ho, hn⟩
  · obtain ⟨e, he⟩ : ∃ e, decodeCommand w = .error e := by
      rw [decodeCommand, decodeFields_unlisted hn]
      split <;> exact ⟨_, rfl⟩
    exact acceptCommand_of_error he s
  · rw [hu, ho] at hfields
    rw [← hfields, acceptCommand_cfcEPush]
    exact if_pos h8
  · rw [hu, ho] at hfields
    rw [← hfields, acceptCommand_csrRead_none (State.csr_reserved hn)]
    rfl

end

/-! SUPPORT. The fault record (R40 to R42) over the acceptance of a word, over a step of an idle block, and over the block steps
of the encoder; and the reads of the decoder. -/

namespace Sys2Proof.Machine

variable {s t : State} {w : CmdWord}

/-- The fault record (R40 to R42) is the same in both states. -/
structure SameRecord (s t : State) : Prop where
  faulted : t.faulted = s.faulted
  fcode : t.fcode = s.fcode
  faddr : t.faddr = s.faddr
  fval : t.fval = s.fval

/-- A command other than a START leaves the fault record, or records its word as ILLEGAL_CMD (R324, R332). -/
theorem acceptCommand_record (hd : decodeCommand w ≠ .ok .decStart) (he : decodeCommand w ≠ .ok .encStart)
    (h : acceptCommand w s = .next t) : SameRecord s t ∨ t = s.raiseFault (.illegalCmd w) := by
  cases hw : decodeCommand w with
  | error e => exact .inr (Host.Outcome.next.inj (h.symm.trans (acceptCommand_of_error hw s)))
  | ok i =>
    obtain ⟨hhdr, hctrl, hlit, hbref⟩ := decodeCommand_ne_token hw
    rw [acceptCommand_of_decode hw] at h
    -- Stated apart, so that no result of the match finder is computed to see the record.
    have hres {v : Word} (h : Host.Outcome.next (s.setRes v) = (.next t : Answer)) : SameRecord s t := by
      obtain rfl := Host.Outcome.next.inj h
      exact ⟨rfl, rfl, rfl, rfl⟩
    cases i with
    | decStart => exact absurd hw hd
    | encStart => exact absurd hw he
    | cfcEPush b y =>
      have hword : ePushWord b y = w := Encoded.command.inj (encode_cfcEPush_of_decode hw)
      rw [exec, execCfcEPush, hword] at h
      split at h
      · exact .inr (Host.Outcome.next.inj h).symm
      · obtain rfl := Host.Outcome.next.inj h
        exact .inl ⟨rfl, rfl, rfl, rfl⟩
    | csrRead n y =>
      have hword : csrReadWord n y = w := Encoded.command.inj (encode_csrRead_of_decode hw)
      rw [exec, execCsrRead, hword] at h
      split at h
      · obtain rfl := Host.Outcome.next.inj h
        exact .inl ⟨rfl, rfl, rfl, rfl⟩
      · exact .inr (Host.Outcome.next.inj h).symm
    | mfCount b => exact .inl (hres h)
    | mfProbe slot => exact .inl (hres h)
    | mfFind => exact .inl (hres h)
    | hdr n => exact absurd rfl (hhdr n)
    | ctrl v => exact absurd rfl (hctrl v)
    | lit b => exact absurd rfl (hlit b)
    | bref off n => exact absurd rfl (hbref off n)
    | _ =>
      obtain rfl := Host.Outcome.next.inj h
      exact .inl ⟨rfl, rfl, rfl, rfl⟩

/-- A step of an idle block with no command pending and no reset at hand leaves the fault record (R347, R38, R363). -/
theorem step_record_of_none (hb : s.busy = false) (hp : s.offer.pending = none) (hr : s.offer.host.head? ≠ some .reset)
    (h : step s = .next t) : SameRecord s t := by
  have hoffer := State.offer_of_none hp
  have hmove := step_next h
  rw [hoffer] at hmove hp hr
  rcases hmove with ⟨-, rfl⟩ | ⟨d, ⟨hbusy, -⟩ | ⟨w, hw, -⟩ | ⟨hreset, -⟩ | ⟨bytes, -, -, rfl⟩ | ⟨-, rfl⟩⟩
  · exact ⟨rfl, rfl, rfl, rfl⟩
  · cases hb.symm.trans hbusy
  · cases hp.symm.trans hw
  · exact absurd hreset hr
  · exact ⟨rfl, rfl, rfl, rfl⟩
  · exact ⟨rfl, rfl, rfl, rfl⟩

/-- A reading state reads a byte, and the rest of its rule leaves `in_ptr` (R64). -/
theorem blockStep_reads (hs : s.dstate ∈ [DState.hdr0, .hdr1, .ctrl, .lit, .ref0, .ref1]) :
    ∃ rest : Byte → State → State, blockStep s = .next (s.inRead rest) ∧ ∀ b u, (rest b u).inPtr = u.inPtr := by
  simp only [List.mem_cons, List.not_mem_nil, or_false] at hs
  rcases hs with hs | hs | hs | hs | hs | hs
  · exact ⟨_, blockStep_hdr0 hs, fun _ _ => rfl⟩
  · exact ⟨_, blockStep_hdr1 hs, fun _ _ => rfl⟩
  · exact ⟨_, blockStep_ctrl hs, fun _ _ => rfl⟩
  · exact ⟨_, blockStep_lit hs, fun _ _ => rfl⟩
  · exact ⟨_, blockStep_ref0 hs, fun _ _ => rfl⟩
  · refine ⟨_, blockStep_ref1 hs, fun b u => ?_⟩
    exact (apply_ite State.inPtr _ _ _).trans (ite_self _)

/-- A block step of the encoder, where it does not stop, leaves the fault record (R281 to R288). -/
theorem encoderStep_record (h : encoderStep s = .next t) : SameRecord s t := by
  cases hs : s.estate with
  | hdr0 | hdr1 | loop | idle | done | fault =>
    simp only [encoderStep, hs] at h
    cases h
    exact ⟨rfl, rfl, rfl, rfl⟩
  | flush =>
    simp only [encoderStep, hs] at h
    unfold encFlush at h
    split at h
    · cases h
      exact ⟨rfl, rfl, rfl, rfl⟩
    · cases h
  | search =>
    simp only [encoderStep, hs] at h
    unfold encSearch at h
    split at h <;> cases h <;> exact ⟨rfl, rfl, rfl, rfl⟩
  | lit =>
    simp only [encoderStep, hs] at h
    unfold encLit at h
    split at h
    · cases h
    · split at h
      · cases h
        exact ⟨rfl, rfl, rfl, rfl⟩
      · cases h
  | ref =>
    simp only [encoderStep, hs] at h
    unfold encRef at h
    split at h
    · cases h
    · split at h
      · cases h
        exact ⟨State.appendAll_faulted _ _, State.appendAll_fcode _ _, State.appendAll_faddr _ _, State.appendAll_fval _ _⟩
      · cases h
  | final =>
    simp only [encoderStep, hs] at h
    unfold encFinal at h
    split at h
    · cases h
      exact ⟨rfl, rfl, rfl, rfl⟩
    · split at h
      · cases h
        exact ⟨rfl, rfl, rfl, rfl⟩
      · cases h

/-- A block step that is not the decoder's leaves the fault record (R341). -/
theorem blockStep_record (hd : s.dstate.busy = false) (h : blockStep s = .next t) : SameRecord s t := by
  cases he : s.estate.busy with
  | true => exact encoderStep_record ((blockStep_encoder hd he).symm.trans h)
  | false =>
    obtain rfl : s = t := by simpa [blockStep, hd, he] using h
    exact ⟨rfl, rfl, rfl, rfl⟩

end Sys2Proof.Machine

section

open Sys2Proof Sys2Proof.Machine

/-- Settles O34: fault entry for each cause. -/
theorem faultEntryWritesTheRecord : Obligations.FaultEntryWritesTheRecord := by
  unfold Obligations.FaultEntryWritesTheRecord
  exact fun s pos c len w => ⟨rfl, rfl, rfl, rfl⟩

/-- Settles O37: an idle block accepts the pending command, or none is pending and at most an event of the host's lands. -/
theorem faultRecordStandsUntilStart : Obligations.FaultRecordStandsUntilStart := by
  unfold Obligations.FaultRecordStandsUntilStart
  intro s t hb hf h
  by_cases hr : s.offer.host.head? = some .reset
  · exact .inr (.inl hr)
  · cases hp : s.offer.pending with
    | none =>
      have hsame := step_record_of_none hb hp hr h
      exact .inl ⟨hsame.faulted.trans hf, hsame.fcode, hsame.faddr, hsame.fval⟩
    | some w =>
      rw [step_accept hb hp hr] at h
      by_cases hd : decodeCommand w = .ok .decStart
      · exact .inr (.inr ⟨w, rfl, .inl hd⟩)
      · by_cases he : decodeCommand w = .ok .encStart
        · exact .inr (.inr ⟨w, rfl, .inr (.inl he)⟩)
        · rcases acceptCommand_record hd he h with hsame | hill
          · rw [State.offer_frame] at hsame
            exact .inl ⟨hsame.faulted.trans hf, hsame.fcode, hsame.faddr, hsame.fval⟩
          · exact .inr (.inr ⟨w, rfl, .inr (.inr hill)⟩)

/-- Settles O35: the two outcomes of a read, and the status after the block steps of the encoder. -/
theorem endOfInputFaultsTheReader : Obligations.EndOfInputFaultsTheReader := by
  unfold Obligations.EndOfInputFaultsTheReader
  refine ⟨fun s t hd h => ?_, fun s hs => ?_⟩
  · have hsame := blockStep_record hd h
    exact ⟨hsame.fcode, hsame.faulted⟩
  · obtain ⟨rest, hblock, hrest⟩ := blockStep_reads hs
    refine ⟨fun hend => ?_, fun hin => ⟨_, hblock, ?_⟩⟩
    · rw [hblock, State.inRead_end hend]
      rfl
    · rw [State.inRead_byte (List.getElem?_eq_getElem hin), hrest]
      rfl

/-- Settles O36: D_REF1 has read its byte and latched the offset when it faults. -/
theorem corruptStreamIsPrecise : Obligations.CorruptStreamIsPrecise := by
  unfold Obligations.CorruptStreamIsPrecise
  intro s hi hs hbyte h
  have hval : (replayCount (brefNibble hi)).setWidth 16 = (hi.extractLsb' 0 4).setWidth 16 + 3 := replayCount_setWidth _
  rw [blockStep_ref1 hs, State.inRead_byte hbyte, State.refByte1_corrupt (s := s.advanceIn) h, ← hval]
  rfl

end

/-! SUPPORT. The block steps that a token's bytes take (R191 to R199, log 11). -/

namespace Sys2Proof.Machine

variable {s t : State}

/-- The byte at `in_ptr` is a byte of `IN`. -/
theorem State.input_of_drop {b : Byte} {rest : List Byte} (h : s.inp.drop s.inPtr.toNat = b :: rest) :
    s.inp[s.inPtr.toNat]? = some b := by
  rw [← Nat.add_zero s.inPtr.toNat, ← List.getElem?_drop, h]
  rfl

/-- The byte after the one at `in_ptr` is a byte of `IN`, where `in_ptr` does not wrap. -/
theorem State.input_succ_of_drop {b0 b1 : Byte} {rest : List Byte} (hp : s.inPtr.toNat + 1 < 2 ^ 32)
    (h : s.inp.drop s.inPtr.toNat = b0 :: b1 :: rest) : s.inp[(s.inPtr + 1).toNat]? = some b1 := by
  have hptr : (s.inPtr + 1).toNat = s.inPtr.toNat + 1 := by bv_omega
  rw [hptr, ← List.getElem?_drop, h]
  rfl

/-- Two reading states, one after the other: each takes its byte, and the rest of its rule (R64). -/
theorem run_two_reads {first second : Byte → State → State} {b0 b1 : Byte} {rest : List Byte}
    (hp : s.inPtr.toNat + 1 < 2 ^ 32) (hin : s.inp.drop s.inPtr.toNat = b0 :: b1 :: rest)
    (hone : step s = .next (s.inRead first)) (ht : t = first b0 s.advanceIn)
    (htwo : step t = .next (t.inRead second)) (hpos : t.inPtr = s.inPtr + 1) (hinp : t.inp = s.inp) :
    run 2 s = .next (second b1 t.advanceIn) := by
  rw [State.inRead_byte (State.input_of_drop hin), ← ht] at hone
  have hbyte : t.inp[t.inPtr.toNat]? = some b1 := by
    rw [hpos, hinp]
    exact State.input_succ_of_drop hp hin
  rw [State.inRead_byte hbyte] at htwo
  exact (run_add (run_one hone) 1).trans (run_one htwo)

/-- The two block steps of a header (R191, R192). -/
theorem run_header_token {hi lo : Byte} {rest : List Byte} (hq : s.quiet) (hs : s.dstate = .hdr0)
    (hp : s.inPtr.toNat + 1 < 2 ^ 32) (hin : s.inp.drop s.inPtr.toNat = hi :: lo :: rest) :
    run 2 s = .next ((s.advanceIn.headerHigh hi).advanceIn.headerLow lo) :=
  run_two_reads hp hin ((step_decoder hq (by rw [hs]; rfl)).trans (blockStep_hdr0 hs)) rfl
    ((step_decoder (s := s.advanceIn.headerHigh hi) hq rfl).trans (blockStep_hdr1 rfl)) rfl rfl

/-- The two block steps of a BackRef's bytes (R197, R198). -/
theorem run_refBytes {b0 b1 : Byte} {rest : List Byte} (hq : s.quiet) (hs : s.dstate = .ref0)
    (hp : s.inPtr.toNat + 1 < 2 ^ 32) (hin : s.inp.drop s.inPtr.toNat = b0 :: b1 :: rest) :
    run 2 s = .next (s.refBytes b0 b1) :=
  run_two_reads hp hin ((step_decoder hq (by rw [hs]; rfl)).trans (blockStep_ref0 hs)) rfl
    ((step_decoder (s := s.advanceIn.refByte0 b0) hq rfl).trans (blockStep_ref1 rfl)) rfl rfl

/-- A whole replay takes one block step of D_COPY for each byte (R199). -/
theorem run_copyBytes {k : Nat} (hq : s.quiet) (hs : s.dstate = .copy) (hk : s.refCnt.toNat = k + 1) :
    run (k + 1) s = .next (State.copyBytes (k + 1) s) := by
  induction k generalizing s with
  | zero => exact run_one ((step_decoder hq (by rw [hs]; rfl)).trans (blockStep_copy hs))
  | succ k ih =>
    have hone : step s = .next s.copyByte := (step_decoder hq (by rw [hs]; rfl)).trans (blockStep_copy hs)
    have hcnt : (s.refCnt - 1).toNat = k + 1 := by bv_omega
    have hstay : s.copyByte.dstate = .copy := by
      rw [State.copyByte_eq]
      exact if_neg fun h0 => absurd (congrArg BitVec.toNat h0) (hcnt ▸ Nat.succ_ne_zero k)
    rw [run, hone]
    exact ih (s := s.copyByte) hq hstay hcnt

/-- The block steps of a BackRef: two, and one for each byte of its replay unless it is rejected (R197 to R199). -/
theorem run_bref_token {off : Slot} {n : BitVec 4} {rest : List Byte} (hq : s.quiet) (hs : s.dstate = .ref0)
    (hp : s.inPtr.toNat + 1 < 2 ^ 32)
    (hin : s.inp.drop s.inPtr.toNat = brefByte0 off :: brefByte1 off n :: rest) :
    run (if s.rem.toNat < n.toNat + 3 then 2 else n.toNat + 5) s = exec (.bref off n) s := by
  have hbytes := run_refBytes hq hs hp hin
  by_cases hr : s.rem.toNat < n.toNat + 3
  · rw [if_pos hr, hbytes, State.refBytes_corrupt hr, exec_bref_corrupt hr]
  · have hboth := State.refBytes_copy (off := off) (Nat.le_of_not_lt hr)
    have hcount := replayCount_toNat n
    have hsteps : n.toNat + 5 = 2 + (n.toNat + 2 + 1) := by omega
    rw [if_neg hr, hsteps, run_add hbytes, exec, execBref, hboth]
    dsimp only
    rw [if_pos rfl, hcount]
    exact run_copyBytes hq rfl hcount

end Sys2Proof.Machine

section

open Sys2Proof Sys2Proof.Machine

/-- Settles O7: the one block step of a control byte, and of a Literal. -/
theorem tokenStepRunsTheToken : Obligations.TokenStepRunsTheToken := by
  unfold Obligations.TokenStepRunsTheToken
  intro s kind i rest hq hkind hd
  obtain ⟨own, henc, hin⟩ := encode_of_decodeToken hd
  rcases hkind with ⟨hs, rfl⟩ | ⟨hs, rfl⟩
  · cases i with
    | ctrl c =>
      cases henc
      rw [step_decoder hq (by rw [hs]; rfl), blockStep_ctrl hs, State.inRead_byte (State.input_of_drop hin)]
      rfl
    | _ => cases henc
  · cases i with
    | lit b =>
      cases henc
      rw [step_decoder hq (by rw [hs]; rfl), blockStep_lit hs, State.inRead_byte (State.input_of_drop hin)]
      rfl
    | _ => cases henc

/-- Settles O8: the bytes that the token is read from, and the block steps that read them. -/
theorem headerAndBackRefRunByBlockSteps : Obligations.HeaderAndBackRefRunByBlockSteps := by
  unfold Obligations.HeaderAndBackRefRunByBlockSteps
  refine fun s hq hp => ⟨fun i rest hs hd => ?_, fun off n rest hs hd => ?_⟩
  · obtain ⟨own, henc, hin⟩ := encode_of_decodeToken hd
    cases i with
    | hdr n =>
      cases henc
      exact run_header_token hq hs hp hin
    | _ => cases henc
  · obtain ⟨own, henc, hin⟩ := encode_of_decodeToken hd
    cases henc
    exact run_bref_token hq hs hp hin

end

/-! SUPPORT. The step of a block to which the host presents a new `IN` (R38, R369, log 4). -/

namespace Sys2Proof.Machine

variable {s : State} {bytes : List Byte} {rest : List HostEvent}

/-- A new `IN` at the head of the host's list is not a command to offer. -/
theorem State.offer_of_present (hh : s.host = .present bytes :: rest) : s.offer = s := by
  unfold State.offer
  split
  · next hc => cases hh.symm.trans hc
  · rfl

/-- With a new `IN` presented and no command pending, the moves are its landing and, while busy, the block step (R341). -/
theorem State.turns_of_present (hp : s.pending = none) (hh : s.host = .present bytes :: rest) :
    s.turns = .present bytes :: s.blockTurns := by
  simp [State.turns, State.eventTurns, State.acceptTurns, hp, hh]

/-- An idle block takes the presented `IN` (R38). -/
theorem step_present_idle (hb : s.busy = false) (hp : s.pending = none) (hh : s.host = .present bytes :: rest) :
    step s = .next { s with inp := bytes, host := rest } := by
  have hturns : s.turns = [.present bytes] := by rw [State.turns_of_present hp hh, State.blockTurns, hb]; rfl
  rw [step, State.offer_of_present hh, takeTurn_single hturns, runTurn, hb, hh]
  rfl

/-- A busy block to which a new `IN` is presented refuses it or takes its own step (R369). -/
theorem step_present_busy (hb : s.busy = true) (hp : s.pending = none) (hh : s.host = .present bytes :: rest) :
    step s = .refused .inputChangedWhileBusy ∨ ∃ d, step s = blockStep { s with draws := d } := by
  have hturns : s.turns = [.present bytes, .block] := by rw [State.turns_of_present hp hh, State.blockTurns, hb]; rfl
  rw [step, State.offer_of_present hh]
  rcases takeTurn_cases s with ⟨hnil, -⟩ | ⟨m, hm, d, hst⟩
  · cases hturns.symm.trans hnil
  · rw [hturns, List.mem_pair] at hm
    rcases hm with rfl | rfl
    · exact .inl (hst.trans (if_pos hb))
    · exact .inr ⟨d, hst⟩

end Sys2Proof.Machine

section

open Sys2Proof Sys2Proof.Machine

/-- Settles O13: an idle block takes the new `IN`; a busy one refuses it, or its own step leaves `IN` and the host's list. -/
theorem inputChangeWhileBusyGetsNoResult : Obligations.InputChangeWhileBusyGetsNoResult := by
  unfold Obligations.InputChangeWhileBusyGetsNoResult
  refine fun s bytes rest hp hh => ⟨fun hb => step_present_idle hb hp hh, fun hb => ?_⟩
  have hstep := step_present_busy hb hp hh
  refine ⟨hstep, fun t ht => ?_⟩
  rcases hstep with href | ⟨d, hblock⟩
  · cases href.symm.trans ht
  · obtain ⟨hkeeps, -⟩ := blockStep_frame (hblock.symm.trans ht)
    exact ⟨hkeeps.inp, hkeeps.host⟩

end
